-- ==== Sys2Proof/Word.lean ====
section
/-! DEFINITION. The widths of 00_scope R6 as types: stream bytes, header fields, host registers. -/

namespace Sys2Proof

/-- A stream element, a GF(256) element (00_scope R6). -/
abbrev Byte := BitVec 8

/-- A header field, a header length value, a `Clmul` result (00_scope R6, 40_galois R100). -/
abbrev Half := BitVec 16

/-- A host register, a CMD word, a command argument (00_scope R6). -/
abbrev Word := BitVec 32

end Sys2Proof
end

