-- ==== Sys2Proof/Config.lean ====
section
/-! DEFINITION. The parameters of 00_scope R5. Their values are OPEN: the constants below have no body that a
proof can see. -/

namespace Sys2Proof

/-- The implementation parameters (00_scope R5). State carries them, so that a statement about every state is
a statement about every choice of them (entry 1). -/
structure Params where
  /-- BUF_BYTES, the size of the working buffer in bytes (10_state R33) -/
  bufBytes : Nat
  /-- IN_DEPTH, the capacity of IN in tokens (10_state R31) -/
  inDepth : Nat
  /-- OUT_DEPTH, the capacity of OUT in bytes (10_state R32) -/
  outDepth : Nat
  /-- SRC_PORT_RESET, the reset value of SRC_PORT (10_state R24) -/
  srcPortReset : Half
  /-- REG_BASE, the platform address of register offset 0x00 (20_memory R60) -/
  regBase : Nat
deriving DecidableEq, Repr

/-- How far BUF_BYTES lies above its least value 14 (00_scope R5). DESIGN CHOICE: a free value (entry 1). -/
opaque Config.bufBytesBeyond : Nat

/-- How far IN_DEPTH lies above its least value 1 (00_scope R5). DESIGN CHOICE: a free value (entry 1). -/
opaque Config.inDepthBeyond : Nat

/-- How far OUT_DEPTH lies above its least value 1 (00_scope R5). DESIGN CHOICE: a free value (entry 1). -/
opaque Config.outDepthBeyond : Nat

/-- SRC_PORT_RESET (00_scope R5). DESIGN CHOICE: a free value (entry 1). -/
opaque Config.srcPortReset : Half

/-- REG_BASE (00_scope R5). DESIGN CHOICE: a free value (entry 1). -/
opaque Config.regBase : Nat

/-- The block's own parameters, within the bounds of 00_scope R5 and otherwise free. -/
def Config.params : Params where
  bufBytes := Config.bufBytesBeyond + 14
  inDepth := Config.inDepthBeyond + 1
  outDepth := Config.outDepthBeyond + 1
  srcPortReset := Config.srcPortReset
  regBase := Config.regBase

end Sys2Proof
end

