-- ==== Sys2Proof/Syntax.lean ====
section
/-! DEFINITION. The commands (30_encoding R71), the stream tokens (10_state R31), the host's operations and
the host program lines (30_encoding R78, R79). -/

namespace Sys2Proof

/-- The eleven commands of 30_encoding R71. The CMD word has no operand field (R70): a command's operands are
the latched ARG0 and ARG1. -/
inductive Instr where
  /-- multiply two GF(256) elements (40_galois R104) -/
  | gfMul
  /-- reduce a 16-bit value modulo G (40_galois R105) -/
  | gfRed
  /-- Hamming-encode the input stream (41_hamming R127) -/
  | hamEnc
  /-- Hamming-decode the input stream (41_hamming R128) -/
  | hamDec
  /-- write one frame header (42_framer R143) -/
  | addHdr
  /-- frame the input stream (42_framer R144) -/
  | frame
  /-- validate and strip frames (42_framer R146) -/
  | deframe
  /-- interleave into framed groups (42_framer R149) -/
  | ilv
  /-- de-interleave framed groups (42_framer R150) -/
  | dilv
  /-- encode into blocks of three payloads (43_reed_solomon R182) -/
  | rsEnc
  /-- decode received payloads (43_reed_solomon R184) -/
  | rsDec
deriving DecidableEq, Repr

/-- An element of the input port (10_state R31). -/
inductive Token where
  | byte (v : Byte)
  /-- end-of-stream -/
  | eos
deriving DecidableEq, Repr

/-- The nine host registers (10_state R20). -/
inductive Reg where
  | cmd | status | cfg | srcport | arg0 | arg1 | result | inCount | outCount
deriving DecidableEq, Repr

/-- One turn of the sequencer. Where a round allows both a read and a write next, 20_memory R63 leaves the
choice to the implementation: the turn names the one it prefers. DESIGN CHOICE (entry 4), safe. -/
inductive Turn where
  | read
  | write
deriving DecidableEq, Repr

/-- One operation of the host on the block. `width` is in bits, `off` a byte offset (20_memory R51). -/
inductive HostAct where
  | write (width off : Nat) (v : Word)
  | read (width off : Nat)
  /-- append one token to IN, waiting while IN is full (30_encoding R78) -/
  | push (t : Token)
  /-- remove one byte from OUT, waiting while OUT is empty (20_memory R56) -/
  | pop
  /-- remove every byte now in OUT (30_encoding R78) -/
  | drain
  /-- poll STATUS until DONE, draining OUT (30_encoding R78) -/
  | wait
  /-- assert the reset input (70_reset R220); that the host's script asserts it is the model's: DESIGN CHOICE (entry 27) -/
  | reset
  /-- no host operation: only the sequencer takes turns -/
  | pause
deriving DecidableEq, Repr

/-- A host operation and the sequencer's turns after it, before the host's next operation (entry 5). -/
structure HostEvent where
  act : HostAct
  turns : List Turn
deriving DecidableEq, Repr

/-- What a host program records: a register value read, or a byte removed from OUT (30_encoding R78). -/
inductive TraceItem where
  | value (v : Word)
  | byte (v : Byte)
deriving DecidableEq, Repr

/-- One line of a host program (30_encoding R78). -/
inductive HostLine where
  | wr (r : Reg) (v : Word)
  | rd (r : Reg)
  | pushBytes (bs : List Byte)
  | pushEos
  | drain
  | wait
  | cmd (i : Instr)
  | comment
deriving DecidableEq, Repr

/-- The pseudo-instructions (30_encoding R79). -/
inductive Pseudo where
  | gfMul (a b : Word)
  | gfRed (v : Word)
  | hamEnc
  | hamDec
  | hdrAdd (l : Word)
  | frame (l : Word)
  | deframe (l n : Word)
  | ilv (l : Word)
  | dilv (l : Word)
  | rsEnc (p : Word)
  | rsDec (p n : Word)
deriving DecidableEq, Repr

end Sys2Proof
end

