-- ==== Sys2Proof/WellFormed.lean ====
section
/-! DEFINITION. What makes an instruction, a CMD word, a register access and a choice of parameters well
formed. -/

namespace Sys2Proof

/-- The CMD word has no register, immediate or mode field (30_encoding R70), so every command is well formed;
what can be ill formed is the word the host writes (`CmdWord.wellFormed`). -/
def Instr.wellFormed : Instr → Bool
  | .gfMul | .gfRed | .hamEnc | .hamDec | .addHdr | .frame | .deframe | .ilv | .dilv | .rsEnc | .rsDec => true

/-- Bits 31:4 of a CMD word are zero (30_encoding R70, R74). -/
def CmdWord.reservedOk (w : Word) : Bool := w.extractLsb' 4 28 == 0#28

/-- The OPCODE field is none of the reserved values 0x0 and 0xC to 0xF (30_encoding R74). -/
def CmdWord.opcodeOk (w : Word) : Bool :=
  let op := w.extractLsb' 0 4
  decide (1#4 ≤ op) && decide (op ≤ 11#4)

/-- A CMD word is legal (30_encoding R71, R74). -/
def CmdWord.wellFormed (w : Word) : Bool := CmdWord.reservedOk w && CmdWord.opcodeOk w

/-- A register access is 32 bits wide (20_memory R51). -/
def Access.widthOk (width : Nat) : Bool := width == 32

/-- A register access is at a multiple of 4 (20_memory R51). -/
def Access.alignedOk (off : Nat) : Bool := off % 4 == 0

/-- An aligned offset is one of the nine of 10_state R20: offsets from 0x24 up are unmapped (20_memory R60). -/
def Access.mappedOk (off : Nat) : Bool := decide (off ≤ 0x20)

/-- A register access that has a meaning (20_memory R51). -/
def Access.wellFormed (width off : Nat) : Bool :=
  Access.widthOk width && Access.alignedOk off && Access.mappedOk off

/-- The bounds of 00_scope R5. -/
def Params.wellFormed (p : Params) : Bool :=
  decide (14 ≤ p.bufBytes) && decide (1 ≤ p.inDepth) && decide (1 ≤ p.outDepth)

end Sys2Proof
end

