-- ==== Sys2Proof/Decode.lean ====
section
/-! DEFINITION. The CMD word (30_encoding R70, R71): decoder, encoder; and the register offsets (10_state R20). -/

namespace Sys2Proof

/-- Why a CMD word is no command (30_encoding R74). Both end the accepted command with ERR_OPC. -/
inductive DecodeError where
  /-- a bit of `w[31:4]` is 1 -/
  | reservedBits
  /-- OPCODE is 0x0 or one of 0xC to 0xF -/
  | reservedOpcode
deriving DecidableEq, Repr

/-- The OPCODE field, `w[3:0]` (30_encoding R70). -/
def opcodeField (w : Word) : BitVec 4 := w.extractLsb' 0 4

/-- The RSVD field, `w[31:4]` (30_encoding R70). -/
def reservedField (w : Word) : BitVec 28 := w.extractLsb' 4 28

/-- The opcode map (30_encoding R71), read from the field. -/
def instrOfOpcode (op : BitVec 4) : Option Instr :=
  match op.toNat with
  | 0x1 => some .gfMul
  | 0x2 => some .gfRed
  | 0x3 => some .hamEnc
  | 0x4 => some .hamDec
  | 0x5 => some .addHdr
  | 0x6 => some .frame
  | 0x7 => some .deframe
  | 0x8 => some .ilv
  | 0x9 => some .dilv
  | 0xA => some .rsEnc
  | 0xB => some .rsDec
  | _ => none

/-- Decoding a CMD word: every word is a command or is rejected by name (30_encoding R71, R74). -/
def decode (w : Word) : Except DecodeError Instr :=
  if reservedField w = 0#28 then
    match instrOfOpcode (opcodeField w) with
    | some i => .ok i
    | none => .error .reservedOpcode
  else .error .reservedBits

/-- The OPCODE of a command (30_encoding R71). -/
def opcodeOf : Instr → BitVec 4
  | .gfMul => 0x1#4
  | .gfRed => 0x2#4
  | .hamEnc => 0x3#4
  | .hamDec => 0x4#4
  | .addHdr => 0x5#4
  | .frame => 0x6#4
  | .deframe => 0x7#4
  | .ilv => 0x8#4
  | .dilv => 0x9#4
  | .rsEnc => 0xA#4
  | .rsDec => 0xB#4

/-- The CMD word of a command: OPCODE in bits 3:0, the reserved bits zero (30_encoding R70, R71). -/
def encode (i : Instr) : Word := 0#28 ++ opcodeOf i

/-- The instruction the decoder reads from a table row's bits: one CMD word, bit 0 its least significant bit,
every bit from `nbits` up zero. -/
def decodeTableWord (nbits w : Nat) : Option Instr := (decode (BitVec.ofNat 32 (w % 2 ^ nbits))).toOption

/-- The register at a byte offset (10_state R20). -/
def regOfOffset (off : Nat) : Option Reg :=
  match off with
  | 0x00 => some .cmd
  | 0x04 => some .status
  | 0x08 => some .cfg
  | 0x0C => some .srcport
  | 0x10 => some .arg0
  | 0x14 => some .arg1
  | 0x18 => some .result
  | 0x1C => some .inCount
  | 0x20 => some .outCount
  | _ => none

/-- The byte offset of a register (10_state R20). -/
def offsetOf : Reg → Nat
  | .cmd => 0x00
  | .status => 0x04
  | .cfg => 0x08
  | .srcport => 0x0C
  | .arg0 => 0x10
  | .arg1 => 0x14
  | .result => 0x18
  | .inCount => 0x1C
  | .outCount => 0x20

end Sys2Proof
end

