-- ==== Sys2Proof/Machine/Flags.lean ====
section
/-! DEFINITION. The bits of STATUS (10_state R22) and the two changes made to them by acceptance, completion and
the errors (30_encoding R72, R77; 60_exceptions R201, R202). -/

namespace Sys2Proof.Machine

/-- STATUS bit 0 (10_state R22). -/
def statusBusy (w : Word) : Bool := w.getLsbD 0

/-- STATUS bit 1 (10_state R22). -/
def statusDone (w : Word) : Bool := w.getLsbD 1

/-- STATUS bit 2 (10_state R22). -/
def statusErrArg (w : Word) : Bool := w.getLsbD 2

/-- STATUS bit 3 (10_state R22). -/
def statusErrOpc (w : Word) : Bool := w.getLsbD 3

/-- STATUS after acceptance: DONE, ERR_ARG and ERR_OPC cleared, BUSY set (30_encoding R72). The reserved bits
are never set (10_state R22). -/
def statusAccepted : Word := 0x1#32

/-- ERR_ARG set (60_exceptions R201). -/
def statusSetErrArg (w : Word) : Word := w ||| 0x4#32

/-- ERR_OPC set (60_exceptions R202). -/
def statusSetErrOpc (w : Word) : Word := w ||| 0x8#32

/-- BUSY cleared and DONE set in one step (30_encoding R77). -/
def statusCompleted (w : Word) : Word := (w &&& ~~~0x1#32) ||| 0x2#32

/-- STATUS as the host reads it: bits 31:4 read as 0 (10_state R22). -/
def statusView (w : Word) : Word := w &&& 0xF#32

end Sys2Proof.Machine
end

