-- ==== Sys2Proof/Machine/State.lean ====
section
/-! DEFINITION. The machine's state (10_state), the reasons a step can stop, and the state after reset. -/

namespace Sys2Proof.Machine

/-- Why the machine stops with a fault. The block takes no trap (60_exceptions R208) and reports its two errors
in STATUS, in next states; the one fault is the model's guard on the working buffer. -/
inductive Fault where
  /-- The running command's round does not fit in BUF, so that the sequencer would use an address outside
  `0..BUF_BYTES-1` (00_scope R8). Raised by `State.advance`. 20_memory R58 says it never happens; safe. -/
  | bufRange
deriving DecidableEq, Repr

/-- Why a step has no meaning. -/
inductive Refusal where
  /-- An instruction without a meaning yet, by its mnemonic; raised by `exec`'s refused arms only, of which
  this model has none. Safe. -/
  | notModelled (mnemonic : String)
  /-- A register access that is not 32 bits wide (20_memory R51); raised by the host's accesses. Safe. -/
  | accessWidth
  /-- A register access at an offset that is not a multiple of 4 (20_memory R51); raised by the host's
  accesses. Safe. -/
  | accessMisaligned
  /-- A register access at an offset not listed in 10_state R20 (20_memory R51); raised by the host's
  accesses. Safe. -/
  | accessUnmapped
deriving DecidableEq, Repr

/-- `phase` of 10_state R36. -/
inductive Phase where
  | idle
  | running
deriving DecidableEq, Repr

/-- How far a running command is towards completion: its rounds, then the RESULT write, then DONE, in the
order of 20_memory R64. -/
inductive Stage where
  | rounds
  | result
  | finish
deriving DecidableEq, Repr

/-- Where the third payload of the current RS_DEC group is kept: it replaces an erased (all-zero) data payload
in BUF, or is dropped where neither is erased, since 43_reed_solomon R183 then does not use it. So `2*p` bytes
of BUF are enough, as 92 D32 says. DESIGN CHOICE (entry 10), safe: BUF is not visible. -/
inductive Hold where
  | dropped
  | over0
  | over1
deriving DecidableEq, Repr

/-- BUF's bytes (10_state R33) as (address, byte) pairs: addresses strictly rising, no entry equal to what an
unlisted address reads as (`Memory.wf`). -/
abbrev Memory := List Host.Cell

/-- The whole state of the block (10_state R20 to R36), the parameters it was built with (00_scope R5), and the
host's side: its remaining events, the sequencer's turns before the next one, and what it has recorded. -/
structure State where
  /-- the parameters; no step changes them (entry 1) -/
  params : Params
  /-- STATUS (10_state R22) -/
  status : Word
  /-- CFG (10_state R23) -/
  cfg : Word
  /-- SRCPORT (10_state R24) -/
  srcport : Word
  /-- ARG0 (10_state R25) -/
  arg0 : Word
  /-- ARG1 (10_state R26) -/
  arg1 : Word
  /-- RESULT (10_state R27) -/
  result : Word
  /-- IN_COUNT (10_state R28) -/
  inCount : Word
  /-- OUT_COUNT (10_state R29) -/
  outCount : Word
  /-- IN, head first (10_state R31) -/
  inQ : List Token
  /-- OUT, head first (10_state R32) -/
  outQ : List Byte
  /-- BUF (10_state R33) -/
  buf : Memory
  /-- `phase` (10_state R36) -/
  phase : Phase
  /-- `op` (10_state R36) -/
  op : Instr
  /-- latched ARG0 (10_state R36) -/
  a0 : Word
  /-- latched ARG1 (10_state R36) -/
  a1 : Word
  /-- latched HDR_BE (10_state R36) -/
  be : Bool
  /-- latched SRC_PORT (10_state R36) -/
  sp : Half
  /-- `eos` (10_state R36) -/
  eos : Bool
  /-- completion stage (20_memory R64) -/
  stage : Stage
  /-- rounds finished by the running command (10_state R36) -/
  round : Nat
  /-- bytes read in the current round (10_state R36) -/
  rd : Nat
  /-- bytes written in the current round (10_state R36) -/
  wr : Nat
  /-- place of the third RS_DEC payload (10_state R36) -/
  hold : Hold
  /-- the sequencer's turns before the host's next operation (entry 4) -/
  turns : List Turn
  /-- the host's remaining events (entry 5) -/
  script : List HostEvent
  /-- what the host has recorded, oldest first (entry 6) -/
  trace : List TraceItem
deriving DecidableEq, Repr

/-- The block with parameters `p` right after reset (10_state R38, 70_reset R220). The sequencer's fields other
than `phase` and `eos` are unspecified and unobservable while IDLE (10_state R36): DESIGN CHOICE (entry 2). -/
def State.powerUp (p : Params) : State where
  params := p
  status := 0#32
  cfg := 1#32
  srcport := p.srcPortReset.setWidth 32
  arg0 := 0#32
  arg1 := 0#32
  result := 0#32
  inCount := 0#32
  outCount := 0#32
  inQ := []
  outQ := []
  buf := []
  phase := .idle
  op := .gfMul
  a0 := 0#32
  a1 := 0#32
  be := false
  sp := 0#16
  eos := false
  stage := .rounds
  round := 0
  rd := 0
  wr := 0
  hold := .dropped
  turns := []
  script := []
  trace := []

/-- The machine right after reset, with the block's own parameters. -/
def State.reset : State := State.powerUp Config.params

end Sys2Proof.Machine
end

