-- ==== Sys2Proof/Machine/Operands.lean ====
section
/-! DEFINITION. How a command takes its operands from the latched arguments (30_encoding R75), and the argument
checks. -/

namespace Sys2Proof.Machine

/-- Bits 7:0 of an argument: a GF(256) operand (40_galois R104). -/
def lowByte (a : Word) : Byte := a.extractLsb' 0 8

/-- Bits 15:0 of an argument: the operand of GF_RED (40_galois R105), a header length value (42_framer R143),
the field SRC_PORT (10_state R24). -/
def lowHalf (a : Word) : Half := a.extractLsb' 0 16

/-- CFG.HDR_BE, bit 0 (10_state R23). -/
def hdrBe (cfg : Word) : Bool := cfg.getLsbD 0

/-- The length operand `L` or `p`, an unsigned 32-bit value (30_encoding R75). -/
def State.len (s : State) : Nat := s.a0.toNat

/-- The count operand `N`, an unsigned 32-bit value (30_encoding R75). -/
def State.count (s : State) : Nat := s.a1.toNat

/-- LenOK (42_framer R140). -/
def lenOk (l : Nat) : Bool := l == 0 || l == 1 || (decide (8 ≤ l) && decide (l ≤ 65535))

/-- The check of ILV and DILV (30_encoding R75). -/
def ilvOk (bufBytes l : Nat) : Bool :=
  decide (1 ≤ l) && decide (l ≤ 9362) && decide (7 * l ≤ bufBytes)

/-- The check of RS_ENC (30_encoding R75). -/
def rsEncOk (bufBytes p : Nat) : Bool := decide (1 ≤ p) && decide (2 * p ≤ bufBytes)

/-- The check of RS_DEC (30_encoding R75). -/
def rsDecOk (bufBytes p n : Nat) : Bool := rsEncOk bufBytes p && n % 3 == 0

end Sys2Proof.Machine
end

