-- ==== Sys2Proof/Machine/Ops.lean ====
section
/-! DEFINITION. The named operations: BUF, the stream primitives, the register file, acceptance, the two errors
and completion, reset. -/

namespace Sys2Proof.Machine

/-! ### The working buffer -/

/-- What an unlisted address of BUF reads as. The spec leaves BUF unspecified at reset (10_state R33) and no
rule's result depends on it. DESIGN CHOICE (entry 3), unsafe. -/
def Memory.unlisted : Byte := 0x00#8

/-- The byte at an address (MemRead of 00_scope R8, one byte). -/
def Memory.read : Memory → Nat → Byte
  | [], _ => Memory.unlisted
  | (b, v) :: m, a => if a = b then v else Memory.read m a

/-- Insert a byte, or remove the entry where it is what an unlisted address reads as, in one pass over the
rising addresses (MemWrite of 00_scope R8, one byte). -/
def Memory.write : Memory → Nat → Byte → Memory
  | [], a, v => if v = Memory.unlisted then [] else [(a, v)]
  | (b, w) :: m, a, v =>
    if a < b then (if v = Memory.unlisted then (b, w) :: m else (a, v) :: (b, w) :: m)
    else if a = b then (if v = Memory.unlisted then m else (a, v) :: m)
    else (b, w) :: Memory.write m a v

/-- The canonical form from address `lo` on. -/
def Memory.wfFrom : Nat → Memory → Bool
  | _, [] => true
  | lo, (a, v) :: m => decide (lo ≤ a) && decide (v ≠ Memory.unlisted) && Memory.wfFrom (a + 1) m

/-- The canonical form: addresses strictly rising, no entry equal to what an unlisted address reads as. -/
def Memory.wf (m : Memory) : Bool := Memory.wfFrom 0 m

/-- Every listed address lies in `0..n-1` (20_memory R50, R58). -/
def Memory.within (n : Nat) (m : Memory) : Bool := m.all fun c => decide (c.1 < n)

/-- `n` bytes of BUF from address `a` on. -/
def State.bytes (s : State) (a n : Nat) : List Byte := (List.range n).map fun i => s.buf.read (a + i)

/-! ### The stream primitives -/

/-- InRead (20_memory R53): the token read and the state after it, or nothing while the command must wait. After
EOS it answers EOS again and removes nothing. -/
def State.inRead (s : State) : Option (Token × State) :=
  if s.eos then some (.eos, s)
  else
    match s.inQ with
    | [] => none
    | .byte v :: q => some (.byte v, { s with inQ := q, inCount := s.inCount + 1#32 })
    | .eos :: q => some (.eos, { s with inQ := q, eos := true })

/-- What InByte makes of a token: end-of-stream reads as 0x00 (20_memory R54). -/
def tokenByte : Token → Byte
  | .byte v => v
  | .eos => 0x00#8

/-- OutWrite (20_memory R56): the state after it, or nothing while the command must wait. -/
def State.outWrite (s : State) (v : Byte) : Option State :=
  if s.outQ.length < s.params.outDepth then
    some { s with outQ := s.outQ ++ [v], outCount := s.outCount + 1#32 }
  else none

/-! ### Acceptance, errors, completion -/

/-- The part of acceptance that comes before the checks (30_encoding R72). The round and position counters and
the completion stage start with it. -/
def State.latch (s : State) : State :=
  { s with
    status := statusAccepted
    phase := .running
    inCount := 0#32
    outCount := 0#32
    eos := false
    a0 := s.arg0
    a1 := s.arg1
    be := hdrBe s.cfg
    sp := lowHalf s.srcport
    stage := .rounds
    round := 0
    rd := 0
    wr := 0
    hold := .dropped }

/-- Completion, in one step (30_encoding R77). -/
def State.complete (s : State) : State := { s with status := statusCompleted s.status, phase := .idle }

/-- ERR_ARG (60_exceptions R201). -/
def State.raiseErrArg (s : State) : State := State.complete { s with status := statusSetErrArg s.status }

/-- ERR_OPC (60_exceptions R202). -/
def State.raiseErrOpc (s : State) : State := State.complete { s with status := statusSetErrOpc s.status }

/-! ### The register file -/

/-- What the host reads from a register (10_state R20 to R29): CMD reads as 0, reserved bits read as 0. -/
def State.readReg (s : State) : Reg → Word
  | .cmd => 0#32
  | .status => statusView s.status
  | .cfg => s.cfg &&& 0x1#32
  | .srcport => s.srcport &&& 0xFFFF#32
  | .arg0 => s.arg0
  | .arg1 => s.arg1
  | .result => s.result
  | .inCount => s.inCount
  | .outCount => s.outCount

/-- A host write to a register other than CMD (10_state R20, R23 to R26): reserved bits are not written, and a
write to a read-only register is ignored. A write to CMD is a command request (10_state R21) and does nothing
here. -/
def State.writeReg (s : State) (v : Word) : Reg → State
  | .cfg => { s with cfg := v &&& 0x1#32 }
  | .srcport => { s with srcport := v &&& 0xFFFF#32 }
  | .arg0 => { s with arg0 := v }
  | .arg1 => { s with arg1 := v }
  | .cmd | .status | .result | .inCount | .outCount => s

/-! ### The host's side of the ports, and reset -/

/-- Record an item (30_encoding R78). -/
def State.record (s : State) (t : TraceItem) : State := { s with trace := s.trace ++ [t] }

/-- DRAIN: remove every byte now in OUT, in order, and record them (30_encoding R78). -/
def State.drain (s : State) : State := { s with outQ := [], trace := s.trace ++ s.outQ.map .byte }

/-- The reset event (70_reset R220; who asserts it and when is the model's, entry 27): the block takes its reset state.
The host's side is not the block's and goes on (entry 16). -/
def State.resetBlock (s : State) : State :=
  { State.powerUp s.params with turns := s.turns, script := s.script, trace := s.trace }

/-- The platform address of a register: REG_BASE plus its offset (20_memory R60; 95 §3 writes it
`REG_BASE + off`). The accesses themselves name the offset, as 20_memory R51 does (entry 14). -/
def State.regAddress (s : State) (r : Reg) : Nat := s.params.regBase + offsetOf r

end Sys2Proof.Machine
end

