-- ==== Sys2Proof/Machine/Command.lean ====
section
/-! DEFINITION. What a command's rule (40_galois to 43_reed_solomon) fixes, as one record: every command is a
sequence of rounds (00_scope §5), each reading bytes into BUF and writing bytes computed from BUF. -/

namespace Sys2Proof.Machine

/-- How many rounds a command runs (00_scope §5). -/
inductive Rounds where
  /-- uncounted: until end-of-stream -/
  | untilEos
  /-- counted: this many -/
  | count (n : Nat)
deriving DecidableEq, Repr

/-- A command's rule. Every field is read from the state after acceptance, so that it depends on the latched
arguments and configuration only (10_state R36), and on the current round in BUF. -/
structure Command where
  /-- ArgOK (30_encoding R75) -/
  argOk : State → Bool
  rounds : State → Rounds
  /-- bytes read in a round -/
  roundIn : State → Nat
  /-- bytes written in a round -/
  roundOut : State → Nat
  /-- bytes of BUF the round uses, from address 0 on (DESIGN CHOICE, entries 9, 10, 25) -/
  bufUse : State → Nat
  /-- BUF has room for the next byte of the round -/
  mayRead : State → Bool
  /-- where the third RS_DEC payload is kept once the next byte of the round is read -/
  holdNext : State → Hold
  /-- BUF after the next byte of the round is read. Where a round's bytes lie in BUF the spec does not say: DESIGN
  CHOICE (entries 9, 10, 25) -/
  store : State → Byte → Memory
  /-- how many bytes of the round must be read before output byte `k` is written (20_memory R63) -/
  need : State → Nat → Nat
  /-- output byte `k` of the round -/
  outByte : State → Nat → Byte
  /-- the value RESULT gets, for a command that returns one (10_state R27) -/
  result : State → Option Word

end Sys2Proof.Machine
end

