-- ==== Sys2Proof/Machine/FramerUnit.lean ====
section
/-! DEFINITION. The Framer unit's datapath and the rules of ADD_HDR, FRAME, DEFRAME, ILV and DILV (42_framer). -/

namespace Sys2Proof.Machine

/-- Field16 (42_framer R141). -/
def field16 (v : Half) (be : Bool) : List Byte :=
  if be then [v.extractLsb' 8 8, v.extractLsb' 0 8] else [v.extractLsb' 0 8, v.extractLsb' 8 8]

/-- HeaderBytes (42_framer R141). -/
def headerBytes (len16 : Half) (be : Bool) (sp : Half) : List Byte :=
  field16 sp be ++ field16 0xFFFF#16 be ++ field16 len16 be ++ field16 0x0000#16 be

/-- HeaderMatch (42_framer R142). -/
def headerMatch (h : List Byte) (l : Nat) (be : Bool) (sp : Half) : Bool :=
  decide (l ≤ 65535) && h == headerBytes (BitVec.ofNat 16 l) be sp

/-- The header a command writes for a length value, with its latched configuration (42_framer R141). -/
def State.header (s : State) (len16 : Half) : List Byte := headerBytes len16 s.be s.sp

/-- ADD_HDR (42_framer R143): one round that reads nothing. -/
def addHdrCommand : Command where
  argOk s := lenOk s.len
  rounds _ := .count 1
  roundIn _ := 0
  roundOut _ := 8
  bufUse _ := 0
  mayRead _ := true
  holdNext s := s.hold
  store s _ := s.buf
  need _ _ := 0
  outByte s k := (s.header (lowHalf s.a0)).getD k 0x00#8
  result _ := none

/-- FRAME (42_framer R144, R145). The header waits for the round's first payload byte, where there is one; each
payload byte depends on itself (20_memory R63). BUF holds the payload bytes read and not yet written, as a ring
(entry 9). With L = 0 a round reads nothing and the command has no last round. -/
def frameCommand : Command where
  argOk s := lenOk s.len
  rounds _ := .untilEos
  roundIn s := s.len
  roundOut s := 8 + s.len
  bufUse _ := 1
  mayRead s := decide (s.rd - (s.wr - 8) < s.params.bufBytes)
  holdNext s := s.hold
  store s v := s.buf.write (s.rd % s.params.bufBytes) v
  need s k := if k < 8 then min 1 s.len else k - 8 + 1
  outByte s k :=
    if k < 8 then (s.header (lowHalf s.a0)).getD k 0x00#8
    else s.buf.read ((k - 8) % s.params.bufBytes)
  result s := some (BitVec.ofNat 32 s.round)

/-- The validation of the header in BUF (42_framer R146). -/
def State.frameOk (s : State) : Bool := headerMatch (s.bytes 0 8) s.len s.be s.sp

/-- The room DEFRAME has for payload bytes, above the 8 header bytes (entry 9). -/
def State.payloadRoom (s : State) : Nat := s.params.bufBytes - 8

/-- DEFRAME (42_framer R146). A payload byte of a valid frame depends on the header and itself, one of a dropped
frame on the header only (20_memory R63). BUF holds the header, and the payload bytes read and not yet written as
a ring above it (entry 9). -/
def deframeCommand : Command where
  argOk _ := true
  rounds s := .count s.count
  roundIn s := 8 + s.len
  roundOut s := s.len
  bufUse _ := 9
  mayRead s := decide (s.rd < 8) || decide (s.rd - 8 - s.wr < s.payloadRoom)
  holdNext s := s.hold
  store s v :=
    if s.rd < 8 then s.buf.write s.rd v else s.buf.write (8 + (s.rd - 8) % s.payloadRoom) v
  need s k := if s.frameOk then 8 + k + 1 else 8
  outByte s k := if s.frameOk then s.buf.read (8 + k % s.payloadRoom) else 0x00#8
  result _ := none

/-- The input byte that is output payload byte `m` of an interleaver group: with `m = r*L + j`, byte `7*j + r`
(42_framer R148). -/
def ilvSource (l m : Nat) : Nat := 7 * (m % l) + m / l

/-- The payload byte that is output byte `m` of a de-interleaved group: with `m = 7*j + r`, byte `r*L + j`
(42_framer R150). -/
def dilvSource (l m : Nat) : Nat := (m % 7) * l + m / 7

/-- ILV (42_framer R149). The header depends on there being a group, each payload byte on its input byte
(20_memory R63). BUF holds the group from address 0 on, in input order: DESIGN CHOICE (entry 25), the spec gives no
layout. -/
def ilvCommand : Command where
  argOk s := ilvOk s.params.bufBytes s.len
  rounds _ := .untilEos
  roundIn s := 7 * s.len
  roundOut s := 8 + 7 * s.len
  bufUse s := 7 * s.len
  mayRead _ := true
  holdNext s := s.hold
  store s v := s.buf.write s.rd v
  need s k := if k < 8 then 1 else ilvSource s.len (k - 8) + 1
  outByte s k :=
    if k < 8 then (s.header (BitVec.ofNat 16 (7 * s.len))).getD k 0x00#8
    else s.buf.read (ilvSource s.len (k - 8))
  result s := some (BitVec.ofNat 32 (7 * s.len * s.round))

/-- DILV (42_framer R150). The 8 header bytes are read and discarded; each output byte depends on its payload
byte (20_memory R63). BUF holds the payload from address 0 on, in input order: DESIGN CHOICE (entry 25), the spec gives
no layout. -/
def dilvCommand : Command where
  argOk s := ilvOk s.params.bufBytes s.len
  rounds _ := .untilEos
  roundIn s := 8 + 7 * s.len
  roundOut s := 7 * s.len
  bufUse s := 7 * s.len
  mayRead _ := true
  holdNext s := s.hold
  store s v := if s.rd < 8 then s.buf else s.buf.write (s.rd - 8) v
  need s k := 8 + dilvSource s.len k + 1
  outByte s k := s.buf.read (dilvSource s.len k)
  result _ := none

end Sys2Proof.Machine
end

