-- ==== Sys2Proof/Machine/GaloisUnit.lean ====
section
/-! DEFINITION. The GaloisField256 unit's datapath and the rules of GF_MUL and GF_RED (40_galois). -/

namespace Sys2Proof.Machine

/-- The generator polynomial G = 0x11D (10_state R35). -/
def generator : Half := 0x011D#16

/-- One iteration of the loop of `clmul` (40_galois R100). -/
def clmulStep (a b : Byte) (p : Half) (i : Nat) : Half :=
  if b.getLsbD i then p ^^^ (a.setWidth 16 <<< i) else p

/-- Clmul, the carry-less product (40_galois R100). -/
def clmul (a b : Byte) : Half := (List.range 8).foldl (clmulStep a b) 0#16

/-- The index of the highest set bit of a nonzero value (00_scope R8). -/
def msb (v : Half) : Nat := v.toNat.log2

/-- At most `n` passes of the loop of `gfReduce` (40_galois R101). -/
def gfReducePasses : Nat → Half → Half
  | 0, v => v
  | n + 1, v => if v < 0x0100#16 then v else gfReducePasses n (v ^^^ (generator <<< (msb v - 8)))

/-- GfReduce (40_galois R101). DEDUCED from R101's own remark: each pass clears the highest set bit, so that 8
passes are enough for a 16-bit value (entry 23). -/
def gfReduce (v : Half) : Byte := (gfReducePasses 8 v).setWidth 8

/-- GfMul (40_galois R102). -/
def gfMul (a b : Byte) : Byte := gfReduce (clmul a b)

/-- GfAdd (40_galois R106). -/
def gfAdd (a b : Byte) : Byte := a ^^^ b

/-- A command without stream access: no round, and a value for RESULT. -/
def resultOnly (value : State → Word) : Command where
  argOk _ := true
  rounds _ := .count 0
  roundIn _ := 0
  roundOut _ := 0
  bufUse _ := 0
  mayRead _ := true
  holdNext s := s.hold
  store s _ := s.buf
  need _ _ := 0
  outByte _ _ := 0x00#8
  result s := some (value s)

/-- GF_MUL (40_galois R104). -/
def gfMulCommand : Command := resultOnly fun s => (gfMul (lowByte s.a0) (lowByte s.a1)).setWidth 32

/-- GF_RED (40_galois R105). -/
def gfRedCommand : Command := resultOnly fun s => (gfReduce (lowHalf s.a0)).setWidth 32

end Sys2Proof.Machine
end

