-- ==== Sys2Proof/Machine/HammingUnit.lean ====
section
/-! DEFINITION. The Hamming unit's datapath and the rules of HAM_ENC and HAM_DEC (41_hamming). -/

namespace Sys2Proof.Machine

/-- The syndrome matrix H, row by row (10_state R34). -/
def syndromeMatrix : List (List Bool) :=
  [[true, true, false, true, true, false, false],
   [true, false, true, true, false, true, false],
   [false, true, true, true, false, false, true]]

/-- `H[s][i]` (10_state R34). -/
def matrixBit (s i : Nat) : Bool := (syndromeMatrix.getD s []).getD i false

/-- A lane's pattern of three syndrome bits (41_hamming R122). -/
abbrev Pattern := Bool × Bool × Bool

/-- The column of position `i` (10_state R34, 41_hamming R124). -/
def column (i : Nat) : Pattern := (matrixBit 0 i, matrixBit 1 i, matrixBit 2 i)

/-- HamEncRound (41_hamming R121). -/
def hamEncRound (d0 d1 d2 d3 : Byte) : List Byte :=
  [d0, d1, d2, d3, d0 ^^^ d1 ^^^ d3, d0 ^^^ d2 ^^^ d3, d1 ^^^ d2 ^^^ d3]

/-- Syndrome byte `s` of a received word (41_hamming R122). -/
def syndrome (r : List Byte) (s : Nat) : Byte :=
  (List.range 7).foldl (fun acc i => if matrixBit s i then acc ^^^ r.getD i 0x00#8 else acc) 0x00#8

/-- The first position whose column is the pattern, in index order 0..6 (41_hamming R123). -/
def findPosition (pat : Pattern) : Option Nat := (List.range 7).find? fun i => column i == pat

/-- Bit-lane `b` of three syndrome bytes (41_hamming R122). -/
def lanePattern (s0 s1 s2 : Byte) (b : Nat) : Pattern := (s0.getLsbD b, s1.getLsbD b, s2.getLsbD b)

/-- The correction of lane `b`: flip bit `b` of the matching position, if one matches (41_hamming R123). -/
def fixLane (s0 s1 s2 : Byte) (r : List Byte) (b : Nat) : List Byte :=
  if lanePattern s0 s1 s2 b = (false, false, false) then r
  else
    match findPosition (lanePattern s0 s1 s2 b) with
    | some i => r.set i (r.getD i 0x00#8 ^^^ (1#8 <<< b))
    | none => r

/-- HamDecRound, the search of 41_hamming R123. -/
def hamDecRound (r : List Byte) : List Byte :=
  if syndrome r 0 = 0x00#8 ∧ syndrome r 1 = 0x00#8 ∧ syndrome r 2 = 0x00#8 then r.take 4
  else ((List.range 8).foldl (fixLane (syndrome r 0) (syndrome r 1) (syndrome r 2)) r).take 4

/-- HAM_ENC (41_hamming R127). A data byte depends on itself, a parity byte on the whole round (20_memory R63). BUF
holds the 4 data bytes at addresses 0 to 3, in input order, and no parity byte: DESIGN CHOICE (entry 25), the spec gives
no layout and 92 D15 only that Hamming rounds use 7 bytes. -/
def hamEncCommand : Command where
  argOk _ := true
  rounds _ := .untilEos
  roundIn _ := 4
  roundOut _ := 7
  bufUse _ := 4
  mayRead _ := true
  holdNext s := s.hold
  store s v := s.buf.write s.rd v
  need _ k := if k < 4 then k + 1 else 4
  outByte s k := (hamEncRound (s.buf.read 0) (s.buf.read 1) (s.buf.read 2) (s.buf.read 3)).getD k 0x00#8
  result _ := none

/-- HAM_DEC (41_hamming R128). Every output byte depends on the whole round (20_memory R63). BUF holds the 7 received
bytes at addresses 0 to 6, in input order: DESIGN CHOICE (entry 25), the spec gives no layout. -/
def hamDecCommand : Command where
  argOk _ := true
  rounds _ := .untilEos
  roundIn _ := 7
  roundOut _ := 4
  bufUse _ := 7
  mayRead _ := true
  holdNext s := s.hold
  store s v := s.buf.write s.rd v
  need _ _ := 7
  outByte s k := (hamDecRound (s.bytes 0 7)).getD k 0x00#8
  result _ := none

end Sys2Proof.Machine
end

