-- ==== Sys2Proof/Machine/RsUnit.lean ====
section
/-! DEFINITION. The Reed-Solomon unit's datapath and the rules of RS_ENC and RS_DEC (43_reed_solomon). -/

namespace Sys2Proof.Machine

/-- Erased (43_reed_solomon R180). -/
def erased (p : List Byte) : Bool := p.all fun v => v == 0x00#8

/-- RsParity (43_reed_solomon R181). -/
def rsParity (d0 d1 : List Byte) : List Byte := List.zipWith gfMul d0 d1

/-- Bytewise XOR of two payloads (43_reed_solomon R183). -/
def payloadAdd (x y : List Byte) : List Byte := List.zipWith gfAdd x y

/-- RsDecGroup (43_reed_solomon R183). -/
def rsDecGroup (p0 p1 p2 : List Byte) : List Byte :=
  if erased p0 && !erased p2 then payloadAdd p1 p2 ++ p1
  else if erased p1 && !erased p2 then p0 ++ payloadAdd p0 p2
  else p0 ++ p1

/-- RS_ENC (43_reed_solomon R182). A data byte depends on itself, a parity byte on its two data bytes
(20_memory R63). BUF holds the 2*p data bytes from address 0 on, in input order: DESIGN CHOICE (entry 25), the spec
gives no layout. -/
def rsEncCommand : Command where
  argOk s := rsEncOk s.params.bufBytes s.len
  rounds _ := .untilEos
  roundIn s := 2 * s.len
  roundOut s := 3 * s.len
  bufUse s := 2 * s.len
  mayRead _ := true
  holdNext s := s.hold
  store s v := s.buf.write s.rd v
  need s k := if k < 2 * s.len then k + 1 else k - s.len + 1
  outByte s k :=
    if k < 2 * s.len then s.buf.read k
    else gfMul (s.buf.read (k - 2 * s.len)) (s.buf.read (k - s.len))
  result s := some (BitVec.ofNat 32 (3 * s.round))

/-- Where the third payload is kept, decided when its first byte comes: in the place of the first erased data
payload, or nowhere (entry 10). -/
def State.holdNext (s : State) : Hold :=
  if s.rd = 2 * s.len then
    if erased (s.bytes 0 s.len) then .over0
    else if erased (s.bytes s.len s.len) then .over1
    else .dropped
  else s.hold

/-- BUF after the next byte of an RS_DEC group (entry 10): payloads 0 and 1 from address 0 on, the third payload
in the place of an erased one. -/
def State.storeRs (s : State) (v : Byte) : Memory :=
  if s.rd < 2 * s.len then s.buf.write s.rd v
  else
    match s.holdNext with
    | .over0 => s.buf.write (s.rd - 2 * s.len) v
    | .over1 => s.buf.write (s.rd - s.len) v
    | .dropped => s.buf

/-- The group's output once its three payloads are read (43_reed_solomon R183). A payload whose place the third
one has taken was erased; a third payload that was dropped is not used. -/
def State.rsGroup (s : State) : List Byte :=
  let zeros := List.replicate s.len 0x00#8
  let low := s.bytes 0 s.len
  let high := s.bytes s.len s.len
  match s.hold with
  | .over0 => rsDecGroup zeros high low
  | .over1 => rsDecGroup low zeros high
  | .dropped => low ++ high

/-- RS_DEC (43_reed_solomon R184). Every output byte depends on the whole group (20_memory R63). -/
def rsDecCommand : Command where
  argOk s := rsDecOk s.params.bufBytes s.len s.count
  rounds s := .count (s.count / 3)
  roundIn s := 3 * s.len
  roundOut s := 2 * s.len
  bufUse s := 2 * s.len
  mayRead _ := true
  holdNext := State.holdNext
  store := State.storeRs
  need s _ := 3 * s.len
  outByte s k := s.rsGroup.getD k 0x00#8
  result _ := none

end Sys2Proof.Machine
end

