-- ==== Sys2Proof/Machine/Sequencer.lean ====
section
/-! DEFINITION. The command sequencer (10_state R36): one turn of a running command, and the issue of a command
(30_encoding R72, R73). -/

namespace Sys2Proof.Machine

/-- The rule of each command (30_encoding R71). -/
def commandOf : Instr → Command
  | .gfMul => gfMulCommand
  | .gfRed => gfRedCommand
  | .hamEnc => hamEncCommand
  | .hamDec => hamDecCommand
  | .addHdr => addHdrCommand
  | .frame => frameCommand
  | .deframe => deframeCommand
  | .ilv => ilvCommand
  | .dilv => dilvCommand
  | .rsEnc => rsEncCommand
  | .rsDec => rsDecCommand

/-- The rule of the running command. -/
def State.command (s : State) : Command := commandOf s.op

/-- The running command reads until end-of-stream (00_scope §5). -/
def State.uncounted (s : State) : Bool := s.command.rounds s == .untilEos

/-- A counted command has run its rounds, and no round is open. -/
def State.countReached (s : State) : Bool :=
  s.rd == 0 && s.wr == 0 &&
    match s.command.rounds s with
    | .untilEos => false
    | .count n => decide (n ≤ s.round)

/-- Every byte of the round is read and written. -/
def State.roundDone (s : State) : Bool :=
  decide (s.command.roundIn s ≤ s.rd) && decide (s.command.roundOut s ≤ s.wr)

/-- The round allows a read next. -/
def State.canRead (s : State) : Bool := decide (s.rd < s.command.roundIn s) && s.command.mayRead s

/-- The round allows a write next: an output byte is written only after the bytes it depends on are read
(20_memory R63). -/
def State.canWrite (s : State) : Bool :=
  decide (s.wr < s.command.roundOut s) && decide (s.command.need s s.wr ≤ s.rd)

/-- The byte just read joins the round. -/
def State.putByte (s : State) (v : Byte) : State :=
  { s with buf := s.command.store s v, hold := s.command.holdNext s, rd := s.rd + 1 }

/-- All rounds are over: RESULT and DONE remain (20_memory R64). -/
def State.stop (s : State) : State := { s with stage := .result }

/-- A read turn. End-of-stream as the first token of a round of an uncounted command ends the command without a
round (92 D5); anywhere else it reads as 0x00 (20_memory R54). -/
def State.readTurn (s : State) : State :=
  match s.inRead with
  | none => s
  | some (t, s') =>
    if t = .eos ∧ s.uncounted = true ∧ s.rd = 0 then s'.stop else s'.putByte (tokenByte t)

/-- A write turn: output byte `wr` of the round. -/
def State.writeTurn (s : State) : State :=
  match s.outWrite (s.command.outByte s s.wr) with
  | none => s
  | some s' => { s' with wr := s.wr + 1 }

/-- The round is over; an uncounted command that has read end-of-stream in it stops (92 D5). -/
def State.endRound (s : State) : State :=
  { s with
    round := s.round + 1
    rd := 0
    wr := 0
    stage := if s.uncounted && s.eos then .result else .rounds }

/-- One turn within the rounds of a command. -/
def State.roundTurn (s : State) (t : Turn) : State :=
  if s.countReached then s.stop
  else if s.roundDone then s.endRound
  else
    match t with
    | .read => if s.canRead then s.readTurn else if s.canWrite then s.writeTurn else s
    | .write => if s.canWrite then s.writeTurn else if s.canRead then s.readTurn else s

/-- The RESULT write, for a command that returns a value (10_state R27, 20_memory R64 step 2). -/
def State.writeResult (s : State) : State :=
  { s with result := (s.command.result s).getD s.result, stage := .finish }

/-- One turn of the sequencer. An IDLE block waits (60_exceptions R211). -/
def State.turn (s : State) (t : Turn) : State :=
  match s.phase with
  | .idle => s
  | .running =>
    match s.stage with
    | .rounds => s.roundTurn t
    | .result => s.writeResult
    | .finish => s.complete

/-- The sequencer's turns, until the block is IDLE. -/
def State.runTurns : List Turn → State → State
  | [], s => s
  | t :: ts, s =>
    match s.phase with
    | .idle => s
    | .running => State.runTurns ts (s.turn t)

/-- The running command's round lies in BUF (20_memory R58). -/
def State.bufFits (s : State) : Bool :=
  match s.phase with
  | .idle => true
  | .running => decide (s.command.bufUse s ≤ s.params.bufBytes)

/-- The sequencer takes the turns that come before the host's next operation. -/
def State.advance (s : State) : Host.Outcome State Fault Refusal :=
  if s.bufFits then .next { State.runTurns s.turns s with turns := [] } else .fault .bufRange

/-- The latch of a legal command word: `op <- w[3:0]` comes with it (30_encoding R72). -/
def State.latchOp (s : State) (i : Instr) : State := { s.latch with op := i }

/-- Acceptance of a legal command word (30_encoding R72): latch, then the argument check. -/
def State.accept (s : State) (i : Instr) : State :=
  if (commandOf i).argOk (s.latchOp i) then s.latchOp i else (s.latchOp i).raiseErrArg

/-- A legal command word is written to CMD: accepted while IDLE, ignored while RUNNING (30_encoding R72, R73).
Then the sequencer takes its turns. -/
def State.issue (s : State) (i : Instr) : Host.Outcome State Fault Refusal :=
  match s.phase with
  | .running => s.advance
  | .idle => (s.accept i).advance

end Sys2Proof.Machine
end

