-- ==== Sys2Proof/Machine/Framer.lean ====
section
/-! DEFINITION. The commands of the Framer unit (42_framer). -/

namespace Sys2Proof.Machine

/-- ADD_HDR (42_framer R143); its rule is `addHdrCommand`. -/
def execAddHdr (s : State) : Host.Outcome State Fault Refusal := s.issue .addHdr

/-- FRAME (42_framer R144, R145); its rule is `frameCommand`. -/
def execFrame (s : State) : Host.Outcome State Fault Refusal := s.issue .frame

/-- DEFRAME (42_framer R146); its rule is `deframeCommand`. -/
def execDeframe (s : State) : Host.Outcome State Fault Refusal := s.issue .deframe

/-- ILV (42_framer R149); its rule is `ilvCommand`. -/
def execIlv (s : State) : Host.Outcome State Fault Refusal := s.issue .ilv

/-- DILV (42_framer R150); its rule is `dilvCommand`. -/
def execDilv (s : State) : Host.Outcome State Fault Refusal := s.issue .dilv

end Sys2Proof.Machine
end

