-- ==== Sys2Proof/Machine/Galois.lean ====
section
/-! DEFINITION. The commands of the GaloisField256 unit (40_galois). -/

namespace Sys2Proof.Machine

/-- GF_MUL (40_galois R104); its rule is `gfMulCommand`. -/
def execGfMul (s : State) : Host.Outcome State Fault Refusal := s.issue .gfMul

/-- GF_RED (40_galois R105); its rule is `gfRedCommand`. -/
def execGfRed (s : State) : Host.Outcome State Fault Refusal := s.issue .gfRed

end Sys2Proof.Machine
end

