-- ==== Sys2Proof/Machine/Hamming.lean ====
section
/-! DEFINITION. The commands of the Hamming unit (41_hamming). -/

namespace Sys2Proof.Machine

/-- HAM_ENC (41_hamming R127); its rule is `hamEncCommand`. -/
def execHamEnc (s : State) : Host.Outcome State Fault Refusal := s.issue .hamEnc

/-- HAM_DEC (41_hamming R128); its rule is `hamDecCommand`. -/
def execHamDec (s : State) : Host.Outcome State Fault Refusal := s.issue .hamDec

end Sys2Proof.Machine
end

