-- ==== Sys2Proof/Machine/ReedSolomon.lean ====
section
/-! DEFINITION. The commands of the Reed-Solomon unit (43_reed_solomon). -/

namespace Sys2Proof.Machine

/-- RS_ENC (43_reed_solomon R182); its rule is `rsEncCommand`. -/
def execRsEnc (s : State) : Host.Outcome State Fault Refusal := s.issue .rsEnc

/-- RS_DEC (43_reed_solomon R184); its rule is `rsDecCommand`. -/
def execRsDec (s : State) : Host.Outcome State Fault Refusal := s.issue .rsDec

end Sys2Proof.Machine
end

