-- ==== Sys2Proof/Machine/Dispatch.lean ====
section
/-! DEFINITION. The dispatch of a command to its meaning (30_encoding R71). -/

namespace Sys2Proof.Machine

def exec (i : Instr) (s : State) : Host.Outcome State Fault Refusal :=
  match i with
  | .gfMul => Sys2Proof.Machine.execGfMul s
  | .gfRed => Sys2Proof.Machine.execGfRed s
  | .hamEnc => Sys2Proof.Machine.execHamEnc s
  | .hamDec => Sys2Proof.Machine.execHamDec s
  | .addHdr => Sys2Proof.Machine.execAddHdr s
  | .frame => Sys2Proof.Machine.execFrame s
  | .deframe => Sys2Proof.Machine.execDeframe s
  | .ilv => Sys2Proof.Machine.execIlv s
  | .dilv => Sys2Proof.Machine.execDilv s
  | .rsEnc => Sys2Proof.Machine.execRsEnc s
  | .rsDec => Sys2Proof.Machine.execRsDec s

end Sys2Proof.Machine
end

