-- ==== Sys2Proof/Machine/HostAgent.lean ====
section
/-! DEFINITION. The host's operations on the block (20_memory R51 to R56, 30_encoding R78, 70_reset R220), and
the placing of a CMD write as its next one. -/

namespace Sys2Proof.Machine

/-- A CMD write (30_encoding R72, R73): a legal word is executed; an illegal one is accepted and ends with
ERR_OPC, before any argument check (60_exceptions R207); while RUNNING either is ignored. -/
def State.writeCmd (s : State) (w : Word) : Host.Outcome State Fault Refusal :=
  match decode w with
  | .ok i => exec i s
  | .error _ =>
    match s.phase with
    | .running => s.advance
    | .idle => s.latch.raiseErrOpc.advance

/-- The register of an access, or why the access has no meaning (20_memory R51). -/
def accessReg (width off : Nat) : Except Refusal Reg :=
  if !Access.widthOk width then .error .accessWidth
  else if !Access.alignedOk off then .error .accessMisaligned
  else
    match regOfOffset off with
    | some r => .ok r
    | none => .error .accessUnmapped

/-- A host register write (20_memory R51, R52). -/
def State.hostWrite (s : State) (width off : Nat) (v : Word) : Host.Outcome State Fault Refusal :=
  match accessReg width off with
  | .error e => .refused e
  | .ok .cmd => s.writeCmd v
  | .ok r => (s.writeReg v r).advance

/-- A host register read (20_memory R51, R52); the value is recorded (30_encoding R78). -/
def State.hostRead (s : State) (width off : Nat) : Host.Outcome State Fault Refusal :=
  match accessReg width off with
  | .error e => .refused e
  | .ok r => (s.record (.value (s.readReg r))).advance

/-- The sequencer's turns in a step in which the host waits: those of the waiting event, and one turn where it names
none, so that a host that waits never stops the block (70_reset R229, 30_encoding R77). Which access that one turn prefers
is a DESIGN CHOICE (entry 20). -/
def waitTurns : List Turn → List Turn
  | [] => [.write]
  | t :: ts => t :: ts

/-- The state in which an event that must wait stays the host's next one; its turns come next. -/
def State.here (s : State) (e : HostEvent) : State := { s with turns := waitTurns e.turns }

/-- The state once the event is the host's past: `rest` remains, and the event's turns come next. -/
def State.past (s : State) (e : HostEvent) (rest : List HostEvent) : State :=
  { s with turns := e.turns, script := rest }

/-- PUSH of one token (30_encoding R78, 10_state R31). -/
def State.append (s : State) (t : Token) : State := { s with inQ := s.inQ ++ [t] }

/-- The removal of OUT's head byte, the rest being `q` (20_memory R56). That the byte is recorded is the model's: DESIGN
CHOICE (entry 6), since R78 records reads and DRAIN only. -/
def State.remove (s : State) (v : Byte) (q : List Byte) : State :=
  { s with outQ := q, trace := s.trace ++ [.byte v] }

/-- One pass of WAIT: DRAIN, then a read of STATUS (30_encoding R78). -/
def State.poll (s : State) : State := s.drain.record (.value (s.readReg .status))

/-- One host event; `rest` are the events after it. A PUSH into a full IN, a removal from an empty OUT, and a
WAIT whose STATUS read shows DONE = 0, stay the host's next event (30_encoding R78; entry 20). Reset is one of the script's
events, so that it comes at its place in the script and not while an earlier event waits: DESIGN CHOICE (entry 27), since
70_reset R220 says what the reset input does and not who asserts it or when. -/
def State.hostEvent (s : State) (e : HostEvent) (rest : List HostEvent) : Host.Outcome State Fault Refusal :=
  match e.act with
  | .write width off v => (s.past e rest).hostWrite width off v
  | .read width off => (s.past e rest).hostRead width off
  | .push t =>
    if s.inQ.length < s.params.inDepth then ((s.past e rest).append t).advance else (s.here e).advance
  | .pop =>
    match s.outQ with
    | [] => (s.here e).advance
    | v :: q => ((s.past e rest).remove v q).advance
  | .drain => (s.past e rest).drain.advance
  | .wait => if statusDone s.status then (s.past e rest).poll.drain.advance else (s.here e).poll.advance
  | .reset => (s.past e rest).resetBlock.advance
  | .pause => (s.past e rest).advance

/-- With no host event left the sequencer goes on, one turn a step, writing first. DESIGN CHOICE (entry 19),
safe. -/
def State.quiet (s : State) : Host.Outcome State Fault Refusal := { s with turns := waitTurns [] }.advance

/-- The turns of the CMD write that `withCmdWrite` places (entry 15). -/
def issueTurns : List Turn := List.replicate 256 .write

/-- The host's next event is a write of `w` to CMD, and the block is IDLE, so that the write is accepted
(30_encoding R72; entry 15). -/
def State.withCmdWrite (s : State) (w : Word) : State :=
  { s with phase := .idle, script := { act := .write 32 (offsetOf .cmd) w, turns := issueTurns } :: s.script }

/-- The host operations of one line of a host program (30_encoding R78). -/
def lineActs : HostLine → List HostAct
  | .wr r v => [.write 32 (offsetOf r) v]
  | .rd r => [.read 32 (offsetOf r)]
  | .pushBytes bs => bs.map fun b => .push (.byte b)
  | .pushEos => [.push .eos]
  | .drain => [.drain]
  | .wait => [.wait]
  | .cmd i => [.write 32 (offsetOf .cmd) (encode i)]
  | .comment => []

/-- The lines a pseudo-instruction expands to (30_encoding R79). -/
def expandPseudo : Pseudo → List HostLine
  | .gfMul a b => [.wr .arg0 a, .wr .arg1 b, .cmd .gfMul, .wait, .rd .result]
  | .gfRed v => [.wr .arg0 v, .cmd .gfRed, .wait, .rd .result]
  | .hamEnc => [.cmd .hamEnc, .wait]
  | .hamDec => [.cmd .hamDec, .wait]
  | .hdrAdd l => [.wr .arg0 l, .cmd .addHdr, .wait, .rd .status]
  | .frame l => [.wr .arg0 l, .cmd .frame, .wait, .rd .result]
  | .deframe l n => [.wr .arg0 l, .wr .arg1 n, .cmd .deframe, .wait]
  | .ilv l => [.wr .arg0 l, .cmd .ilv, .wait, .rd .result]
  | .dilv l => [.wr .arg0 l, .cmd .dilv, .wait]
  | .rsEnc p => [.wr .arg0 p, .cmd .rsEnc, .wait, .rd .result]
  | .rsDec p n => [.wr .arg0 p, .wr .arg1 n, .cmd .rsDec, .wait]

/-- A host program's events: the operations of its lines, in order (30_encoding R78). That each is followed by the same
turns of the sequencer is the model's, since the spec gives no schedule: DESIGN CHOICE (entry 26). A script may hold any
other turns, and no statement is about this function. -/
def programEvents (turns : List Turn) (lines : List HostLine) : List HostEvent :=
  (lines.flatMap lineActs).map fun a => { act := a, turns := turns }

end Sys2Proof.Machine
end

