-- ==== Sys2Proof/Machine/Step.lean ====
section
/-! DEFINITION. One step of the machine: the host's next event and the sequencer's turns after it. -/

namespace Sys2Proof.Machine

/-- One step: the host's next event takes effect (20_memory R62), then the sequencer takes the event's turns. -/
def step (s : State) : Host.Outcome State Fault Refusal :=
  match s.script with
  | [] => s.quiet
  | e :: rest => s.hostEvent e rest

/-- The CMD word of `nbits` bits `w` placed as the host's next write to CMD (entry 15). -/
def State.withFetchWord (s : State) (nbits w : Nat) : State :=
  s.withCmdWrite (BitVec.ofNat 32 (w % 2 ^ nbits))

end Sys2Proof.Machine
end

