-- ==== Sys2Proof/Safety.lean ====
section
/-! DEFINITION. What holds of every state a run reaches, the machine's invariant; and the terms in which claims
speak of a command's input, output and completion. -/

namespace Sys2Proof.Machine

/-- STATUS agrees with the phase and with itself (10_state R22, R36): BUSY = 1 exactly while RUNNING, never BUSY
and DONE, never both errors, an error only with DONE, reserved bits 0. -/
structure StatusInv (s : State) : Prop where
  busy_iff : statusBusy s.status = true ↔ s.phase = .running
  not_busy_done : ¬(statusBusy s.status = true ∧ statusDone s.status = true)
  not_both_errors : ¬(statusErrArg s.status = true ∧ statusErrOpc s.status = true)
  error_done : statusErrArg s.status = true ∨ statusErrOpc s.status = true → statusDone s.status = true
  reserved : s.status.extractLsb' 4 28 = 0#28

/-- The reserved bits of CFG and SRCPORT are 0 (10_state R23, R24). -/
structure ConfigInv (s : State) : Prop where
  cfg_reserved : s.cfg.extractLsb' 1 31 = 0#31
  srcport_reserved : s.srcport.extractLsb' 16 16 = 0#16

/-- Neither port holds more than its depth (10_state R31, R32). -/
structure PortInv (s : State) : Prop where
  in_depth : s.inQ.length ≤ s.params.inDepth
  out_depth : s.outQ.length ≤ s.params.outDepth

/-- BUF is in its canonical form and no address outside `0..BUF_BYTES-1` is used (20_memory R58). -/
structure BufInv (s : State) : Prop where
  canonical : s.buf.wf = true
  in_range : s.buf.within s.params.bufBytes = true

/-- The running command passed its argument check (30_encoding R72), and its position counters lie in its round
(10_state R36). -/
structure RoundInv (s : State) : Prop where
  arg_ok : s.phase = .running → s.command.argOk s = true
  rd_le : s.phase = .running → s.rd ≤ s.command.roundIn s
  wr_le : s.phase = .running → s.wr ≤ s.command.roundOut s

/-- The machine's invariant. -/
structure Inv (s : State) : Prop where
  params : s.params.wellFormed = true
  status : StatusInv s
  config : ConfigInv s
  ports : PortInv s
  buf : BufInv s
  round : RoundInv s

/-! ### The terms of claims -/

/-- Input byte `i`, 0x00 past the end of the input (20_memory R54). -/
def byteAt (ds : List Byte) (i : Nat) : Byte := ds.getD i 0x00#8

/-- Bytes `g*n .. g*n + n - 1` of the input: the bytes of round `g`, `n` being a round's length. -/
def roundBytes (n : Nat) (ds : List Byte) (g : Nat) : List Byte :=
  (List.range n).map fun i => byteAt ds (g * n + i)

/-- How many rounds of `n` bytes an input of `len` bytes fills, the last one perhaps in part: `ceil(len/n)`. -/
def roundCount (n len : Nat) : Nat := (len + (n - 1)) / n

/-- What `g` rounds of `n` input bytes write, a round of bytes `bs` writing `out bs`. -/
def streamOut (n : Nat) (out : List Byte → List Byte) (ds : List Byte) (g : Nat) : List Byte :=
  (List.range g).flatMap fun i => out (roundBytes n ds i)

/-- `n` blocks of `l` bytes, byte `j` of block `r` being `f r j`. -/
def blocks (n l : Nat) (f : Nat → Nat → Byte) : List Byte :=
  (List.range n).flatMap fun r => (List.range l).map (f r)

/-- The payload of an interleaver group: 7 buffers of `l` bytes, buffer `r` holding byte `7*j + r` of the group
at position `j` (42_framer R148). -/
def interleave (l : Nat) (q : List Byte) : List Byte := blocks 7 l fun r j => byteAt q (7 * j + r)

/-- The group a payload came from: codeword `j` holds byte `r*l + j` of the payload at position `r`
(42_framer R150). -/
def deinterleave (l : Nat) (w : List Byte) : List Byte := blocks l 7 fun j r => byteAt w (r * l + j)

/-- An IDLE block, built within the bounds of 00_scope R5 and with BUF in its canonical form, whose sequencer has
at least `n` turns before the host's next operation. -/
structure Ready (n : Nat) (s : State) : Prop where
  idle : s.phase = .idle
  params : s.params.wellFormed = true
  buf : s.buf.wf = true
  turns : n ≤ s.turns.length

/-- Command `i` was accepted in `s`, and the host's registers, its events and its trace are in `t` as they were
(10_state R36, 30_encoding R72). -/
structure Latched (i : Instr) (s t : State) : Prop where
  op : t.op = i
  a0 : t.a0 = s.arg0
  a1 : t.a1 = s.arg1
  be : t.be = s.cfg.getLsbD 0
  sp : t.sp = s.srcport.extractLsb' 0 16
  params : t.params = s.params
  cfg : t.cfg = s.cfg
  srcport : t.srcport = s.srcport
  arg0 : t.arg0 = s.arg0
  arg1 : t.arg1 = s.arg1
  script : t.script = s.script
  trace : t.trace = s.trace

/-- Command `i` was accepted in `s` and has completed in `t` without an error (30_encoding R77). -/
structure Completes (i : Instr) (s t : State) : Prop where
  latched : Latched i s t
  phase : t.phase = .idle
  status : t.status = 0x2#32

/-- Every byte of BUF at or above `n` is as it was. -/
def BufKeptFrom (n : Nat) (s t : State) : Prop := ∀ a, n ≤ a → t.buf.read a = s.buf.read a

/-- A command that was accepted in `s` has ended in `t` with the given STATUS and no other effect
(30_encoding R76; 60_exceptions R201, R202). -/
structure EndsWithError (status : Word) (s t : State) : Prop where
  status : t.status = status
  phase : t.phase = .idle
  inCount : t.inCount = 0#32
  outCount : t.outCount = 0#32
  inQ : t.inQ = s.inQ
  outQ : t.outQ = s.outQ
  result : t.result = s.result
  buf : t.buf = s.buf
  params : t.params = s.params
  cfg : t.cfg = s.cfg
  srcport : t.srcport = s.srcport
  arg0 : t.arg0 = s.arg0
  arg1 : t.arg1 = s.arg1
  script : t.script = s.script
  trace : t.trace = s.trace

/-- The arguments of command `i`, as the host has written them, fail the check of 30_encoding R75. -/
def ArgumentBad (i : Instr) (s : State) : Prop :=
  let l := s.arg0.toNat
  let n := s.arg1.toNat
  let buf := s.params.bufBytes
  match i with
  | .gfMul | .gfRed | .hamEnc | .hamDec | .deframe => False
  | .addHdr | .frame => ¬(l = 0 ∨ l = 1 ∨ 8 ≤ l ∧ l ≤ 65535)
  | .ilv | .dilv => ¬(1 ≤ l ∧ l ≤ 9362 ∧ 7 * l ≤ buf)
  | .rsEnc => ¬(1 ≤ l ∧ 2 * l ≤ buf)
  | .rsDec => ¬(1 ≤ l ∧ 2 * l ≤ buf ∧ n % 3 = 0)

/-- Command `i` reads at least one token with the arguments the host has written: every uncounted command but
FRAME with L = 0, and a counted one with a round to run (00_scope §5). -/
def ReadsInput (i : Instr) (s : State) : Prop :=
  match i with
  | .gfMul | .gfRed | .addHdr => False
  | .hamEnc | .hamDec | .ilv | .dilv | .rsEnc => True
  | .frame => s.arg0 ≠ 0#32
  | .deframe | .rsDec => s.arg1 ≠ 0#32

/-- A FRAME with L = 0 is running (42_framer R145). -/
structure EndlessFrame (s : State) : Prop where
  phase : s.phase = .running
  stage : s.stage = .rounds
  op : s.op = .frame
  len : s.a0 = 0#32
  eos : s.eos = false

/-- A token that is a byte. -/
def tokenIsByte : Token → Bool
  | .byte _ => true
  | .eos => false

/-- The closed form of 41_hamming R124 (c), with the syndrome of R122 written out. -/
def hamDecClosed (r : List Byte) : List Byte :=
  let s0 := byteAt r 0 ^^^ byteAt r 1 ^^^ byteAt r 3 ^^^ byteAt r 4
  let s1 := byteAt r 0 ^^^ byteAt r 2 ^^^ byteAt r 3 ^^^ byteAt r 5
  let s2 := byteAt r 1 ^^^ byteAt r 2 ^^^ byteAt r 3 ^^^ byteAt r 6
  [byteAt r 0 ^^^ (s0 &&& s1 &&& ~~~s2), byteAt r 1 ^^^ (s0 &&& ~~~s1 &&& s2),
   byteAt r 2 ^^^ (~~~s0 &&& s1 &&& s2), byteAt r 3 ^^^ (s0 &&& s1 &&& s2)]

/-- A received word: a codeword and an error pattern, bytewise XORed (41_hamming R125). -/
def corrupt (c e : List Byte) : List Byte := List.zipWith (fun x y => x ^^^ y) c e

/-- The error pattern has at most one 1 bit in each of the 8 lanes (41_hamming R125). -/
def AtMostOnePerLane (e : List Byte) : Prop :=
  ∀ b < 8, ∀ i j, (byteAt e i).getLsbD b = true → (byteAt e j).getLsbD b = true → i = j

/-- The `n`-th power of a GF(256) element. -/
def gfPow (a : Byte) : Nat → Byte
  | 0 => 0x01#8
  | n + 1 => gfMul a (gfPow a n)

/-- The carry-less product of a byte and G (10_state R35): the XOR of G shifted to each set bit. -/
def timesGenerator (q : Byte) : Half :=
  (List.range 8).foldl (fun p i => if q.getLsbD i then p ^^^ (0x011D#16 <<< i) else p) 0#16

/-! ### What a command has read and written, whatever the host does in between -/

/-- The bytes among tokens, in order (10_state R31). -/
def tokenBytes (ts : List Token) : List Byte :=
  ts.filterMap fun t => match t with
    | .byte v => some v
    | .eos => none

/-- Input bytes of a command that has taken the tokens `taken`: those taken, and any that may still come before
end-of-stream (20_memory R53, R54). -/
def InputGoesOn (taken : List Token) (ds : List Byte) : Prop :=
  tokenBytes taken <+: ds ∧ (.eos ∈ taken → ds = tokenBytes taken)

/-- How many bytes a round of command `i` reads, `l` being its length operand (00_scope §5). -/
def roundLength (i : Instr) (l : Nat) : Nat :=
  match i with
  | .gfMul | .gfRed | .addHdr => 0
  | .hamEnc => 4
  | .hamDec => 7
  | .frame => l
  | .deframe => 8 + l
  | .ilv => 7 * l
  | .dilv => 8 + 7 * l
  | .rsEnc => 2 * l
  | .rsDec => 3 * l

/-- What a round of command `i`, issued in `k`, writes from the bytes `d` it reads (41_hamming R127, R128; 42_framer
R143, R144, R146, R149, R150; 43_reed_solomon R182, R184). -/
def roundOutput (i : Instr) (k : State) (d : List Byte) : List Byte :=
  let l := k.arg0.toNat
  let header := fun len16 => headerBytes len16 (k.cfg.getLsbD 0) (k.srcport.extractLsb' 0 16)
  match i with
  | .gfMul | .gfRed => []
  | .hamEnc => hamEncRound (byteAt d 0) (byteAt d 1) (byteAt d 2) (byteAt d 3)
  | .hamDec => hamDecRound d
  | .addHdr => header (k.arg0.extractLsb' 0 16)
  | .frame => header (k.arg0.extractLsb' 0 16) ++ d
  | .deframe =>
    if l ≤ 65535 ∧ d.take 8 = header (k.arg0.extractLsb' 0 16) then d.drop 8 else List.replicate l 0x00#8
  | .ilv => header (BitVec.ofNat 16 (7 * l)) ++ interleave l d
  | .dilv => deinterleave l (d.drop 8)
  | .rsEnc => d ++ (List.range l).map fun j => gfMul (byteAt d j) (byteAt d (l + j))
  | .rsDec => rsDecGroup (d.take l) ((d.drop l).take l) (d.drop (2 * l))

/-- How many rounds command `i`, issued in `k`, runs on `len` input bytes: a counted one as many as its count, an
uncounted one until end-of-stream (00_scope §5). FRAME with L = 0 has no last round (42_framer R145), and `endless` is
how many of them are asked for. -/
def roundTotal (i : Instr) (k : State) (len endless : Nat) : Nat :=
  let l := k.arg0.toNat
  match i with
  | .gfMul | .gfRed => 0
  | .addHdr => 1
  | .deframe => k.arg1.toNat
  | .rsDec => k.arg1.toNat / 3
  | .frame => if l = 0 then endless else roundCount l len
  | .hamEnc | .hamDec | .ilv | .dilv | .rsEnc => roundCount (roundLength i l) len

/-- All that command `i`, issued in `k`, writes for the input `ds` (20_memory R62 item 4). -/
def ruleOutput (i : Instr) (k : State) (ds : List Byte) (endless : Nat) : List Byte :=
  streamOut (roundLength i k.arg0.toNat) (roundOutput i k) ds (roundTotal i k ds.length endless)

/-- RESULT after command `i`, issued in `k`, has run `g` rounds (10_state R27). -/
def ruleResult (i : Instr) (k : State) (g : Nat) : Word :=
  match i with
  | .gfMul => (gfMul (k.arg0.extractLsb' 0 8) (k.arg1.extractLsb' 0 8)).setWidth 32
  | .gfRed => (gfReduce (k.arg0.extractLsb' 0 16)).setWidth 32
  | .frame => BitVec.ofNat 32 g
  | .ilv => BitVec.ofNat 32 (7 * k.arg0.toNat * g)
  | .rsEnc => BitVec.ofNat 32 (3 * g)
  | .hamEnc | .hamDec | .addHdr | .deframe | .dilv | .rsDec => k.result

/-- The commands that run until end-of-stream (00_scope §5). -/
def runsUntilEos (i : Instr) : Bool :=
  match i with
  | .hamEnc | .hamDec | .frame | .ilv | .dilv | .rsEnc => true
  | .gfMul | .gfRed | .addHdr | .deframe | .rsDec => false

/-- The host's next operation is reset (70_reset R220). -/
def State.resetNext (s : State) : Prop := ∃ ts rest, s.script = { act := .reset, turns := ts } :: rest

/-- The tokens in IN once the host's next operation is done (10_state R31, 30_encoding R78): a PUSH into an IN that is
not full appends its token. -/
def State.offered (s : State) : List Token :=
  match s.script with
  | [] => s.inQ
  | e :: _ =>
    match e.act with
    | .push t => if s.inQ.length < s.params.inDepth then s.inQ ++ [t] else s.inQ
    | _ => s.inQ

/-- The bytes in OUT once the host's next operation is done (20_memory R56, 30_encoding R78): a removal takes the head,
DRAIN and WAIT take them all. -/
def State.undrained (s : State) : List Byte :=
  match s.script with
  | [] => s.outQ
  | e :: _ =>
    match e.act with
    | .pop => s.outQ.drop 1
    | .drain | .wait => []
    | _ => s.outQ

/-- `History i k s taken written`: in state `s`, command `i`, which was issued in `k`, has taken the tokens `taken` from
IN and appended the bytes `written` to OUT, in the issuing step and in any number of steps after it. In each of those the
host does whatever its script says, but no reset: it appends tokens, removes bytes, writes registers, waits. The
relation speaks of the ports only, by what a step finds and leaves in them. -/
inductive History (i : Instr) (k : State) : State → List Token → List Byte → Prop
  | issued (t : State) (taken : List Token) (written : List Byte) (hx : exec i k = .next t)
      (hin : k.inQ = taken ++ t.inQ) (hout : t.outQ = k.outQ ++ written) : History i k t taken written
  | step (s u : State) (taken more : List Token) (written new : List Byte) (h : History i k s taken written)
      (hp : s.phase = .running) (hr : ¬s.resetNext) (hs : step s = .next u) (hin : s.offered = more ++ u.inQ)
      (hout : u.outQ = s.undrained ++ new) : History i k u (taken ++ more) (written ++ new)

/-- In the step from `s` the running command need not wait: a read it may do next finds a token or `eos = 1`, and a write
it may do next finds room in OUT (70_reset R229). -/
def Unblocked (s : State) : Prop :=
  s.phase = .running → s.stage = .rounds → s.countReached = false →
    (s.canRead = true → s.eos = true ∨ s.offered ≠ []) ∧
    (s.canWrite = true → s.undrained.length < s.params.outDepth)

end Sys2Proof.Machine
end

