-- ==== Sys2Proof/Certificates/Slice0/Obligations.lean ====
section
/-! DEFINITION. The statements for the provers. `Ready n s`, `Completes`, `Latched`, `EndsWithError` and the other
terms are those of Sys2Proof/Safety.lean. -/

open Sys2Proof Sys2Proof.Machine

/-! ### The CMD word -/

/-- 30_encoding R71: the eleven CMD words, written out, and their commands. -/
def Obligations.TheElevenWordsDecode : Prop :=
  decode 0x00000001#32 = .ok .gfMul ∧ decode 0x00000002#32 = .ok .gfRed ∧
  decode 0x00000003#32 = .ok .hamEnc ∧ decode 0x00000004#32 = .ok .hamDec ∧
  decode 0x00000005#32 = .ok .addHdr ∧ decode 0x00000006#32 = .ok .frame ∧
  decode 0x00000007#32 = .ok .deframe ∧ decode 0x00000008#32 = .ok .ilv ∧
  decode 0x00000009#32 = .ok .dilv ∧ decode 0x0000000A#32 = .ok .rsEnc ∧
  decode 0x0000000B#32 = .ok .rsDec

/-- 30_encoding R70, R71: decoding the word of a well-formed command gives the command. -/
def Obligations.DecodeOfEncodeIsTheCommand : Prop :=
  ∀ i : Instr, i.wellFormed = true → decode (encode i) = .ok i

/-- 30_encoding R71: a word decodes to a command exactly when it is that command's word, whose OPCODE is the
row's and whose other bits are 0. -/
def Obligations.OnlyItsOwnWordDecodesToACommand : Prop :=
  ∀ (w : Word) (i : Instr), decode w = .ok i ↔ w = encode i

/-- 30_encoding R74: which words are illegal, and why. -/
def Obligations.IllegalWordsAreRejectedByName : Prop :=
  ∀ w : Word,
    (decode w = .error .reservedBits ↔ ∃ b, 4 ≤ b ∧ b < 32 ∧ w.getLsbD b = true) ∧
    (decode w = .error .reservedOpcode ↔
      w = 0x0#32 ∨ w = 0xC#32 ∨ w = 0xD#32 ∨ w = 0xE#32 ∨ w = 0xF#32)

/-- 30_encoding R72: a write to CMD of a word that decodes to a command executes it, with the event's turns. -/
def Obligations.StepRunsTheDecodedCommand : Prop :=
  ∀ (s : State) (w : Word) (i : Instr) (ts : List Turn) (rest : List HostEvent),
    s.script = { act := .write 32 0x00 w, turns := ts } :: rest → decode w = .ok i → i.wellFormed = true →
    step s = exec i { s with turns := ts, script := rest }

/-- 30_encoding R73: a CMD write while RUNNING is as if the host had done nothing. -/
def Obligations.CommandWriteWhileRunningIsIgnored : Prop :=
  ∀ (s : State) (w : Word) (ts : List Turn) (rest : List HostEvent), s.phase = .running →
    step { s with script := { act := .write 32 0x00 w, turns := ts } :: rest } =
      step { s with script := { act := .pause, turns := ts } :: rest }

/-- 60_exceptions R202: an illegal word accepted in IDLE ends with ERR_OPC, whatever the arguments (R207), and
nothing records the word. -/
def Obligations.IllegalWordEndsWithErrOpc : Prop :=
  ∀ (s : State) (w : Word) (ts : List Turn) (rest : List HostEvent), s.phase = .idle →
    s.script = { act := .write 32 0x00 w, turns := ts } :: rest →
    (w.extractLsb' 4 28 ≠ 0#28 ∨ w.extractLsb' 0 4 ∈ [0x0#4, 0xC#4, 0xD#4, 0xE#4, 0xF#4]) →
    ∃ t, step s = .next t ∧ EndsWithError 0xA#32 { s with script := rest } t ∧ t.op = s.op

/-- 60_exceptions R201: ERR_ARG is raised exactly when the argument check fails, and then nothing else happens. -/
def Obligations.ErrArgExactlyOnABadArgument : Prop :=
  ∀ (i : Instr) (s : State), s.phase = .idle →
    (ArgumentBad i s → ∃ t, exec i s = .next t ∧ EndsWithError 0x6#32 s t) ∧
    (¬ArgumentBad i s → ∀ t, exec i s = .next t → statusErrArg t.status = false ∧ statusErrOpc t.status = false)

/-- 30_encoding R72: what acceptance alone does, before the sequencer's first turn. -/
def Obligations.AcceptanceLatchesAndStarts : Prop :=
  ∀ (i : Instr) (s : State), Ready 0 s → s.turns = [] → ¬ArgumentBad i s →
    ∃ t, exec i s = .next t ∧ Latched i s t ∧ t.phase = .running ∧ t.status = 0x1#32 ∧ t.inCount = 0#32 ∧
      t.outCount = 0#32 ∧ t.eos = false ∧ t.inQ = s.inQ ∧ t.outQ = s.outQ ∧ t.result = s.result ∧ t.buf = s.buf

/-! ### The commands

The number of turns that each `Ready n s` below asks for is the model's, not the spec's: one turn for each byte read,
each byte written, each end of a round, the stop, the RESULT write and the completion (entries 4, 5, 7). Which bytes of BUF
are unchanged (`BufKeptFrom`) rests on where the model keeps a round's bytes, which the spec does not say (entries 9, 10 and
25). -/

/-- 40_galois R104: GF_MUL completes with the product in RESULT. -/
def Obligations.GfMulWritesTheProduct : Prop :=
  ∀ s : State, Ready 3 s →
    ∃ t, exec .gfMul s = .next t ∧ Completes .gfMul s t ∧
      t.result = (gfMul (s.arg0.extractLsb' 0 8) (s.arg1.extractLsb' 0 8)).setWidth 32 ∧
      t.inQ = s.inQ ∧ t.outQ = s.outQ ∧ t.inCount = 0#32 ∧ t.outCount = 0#32 ∧ BufKeptFrom 0 s t

/-- 40_galois R105: GF_RED completes with the remainder in RESULT. -/
def Obligations.GfRedWritesTheRemainder : Prop :=
  ∀ s : State, Ready 3 s →
    ∃ t, exec .gfRed s = .next t ∧ Completes .gfRed s t ∧
      t.result = (gfReduce (s.arg0.extractLsb' 0 16)).setWidth 32 ∧
      t.inQ = s.inQ ∧ t.outQ = s.outQ ∧ t.inCount = 0#32 ∧ t.outCount = 0#32 ∧ BufKeptFrom 0 s t

/-- 41_hamming R127, with the parity of R121 written out: HAM_ENC on an input that ends. That it uses bytes 0 to 3 of BUF
only is the model's choice (entry 25). -/
def Obligations.HamEncEncodesTheInput : Prop :=
  ∀ (s : State) (ds : List Byte) (rest : List Token) (g : Nat), g = roundCount 4 ds.length →
    Ready (12 * g + 3) s → s.inQ = ds.map .byte ++ .eos :: rest → s.outQ.length + 7 * g ≤ s.params.outDepth →
    ∃ t, exec .hamEnc s = .next t ∧ Completes .hamEnc s t ∧
      t.outQ = s.outQ ++ streamOut 4 (fun d => [byteAt d 0, byteAt d 1, byteAt d 2, byteAt d 3,
        byteAt d 0 ^^^ byteAt d 1 ^^^ byteAt d 3, byteAt d 0 ^^^ byteAt d 2 ^^^ byteAt d 3,
        byteAt d 1 ^^^ byteAt d 2 ^^^ byteAt d 3]) ds g ∧
      t.outCount = BitVec.ofNat 32 (7 * g) ∧ t.inQ = rest ∧ t.inCount = BitVec.ofNat 32 ds.length ∧
      t.result = s.result ∧ BufKeptFrom (if ds = [] then 0 else 4) s t

/-- 41_hamming R128, with the closed form of R124 (c): HAM_DEC on an input that ends. That it uses bytes 0 to 6 of BUF only
is the model's choice (entry 25). -/
def Obligations.HamDecDecodesTheInput : Prop :=
  ∀ (s : State) (ds : List Byte) (rest : List Token) (g : Nat), g = roundCount 7 ds.length →
    Ready (12 * g + 3) s → s.inQ = ds.map .byte ++ .eos :: rest → s.outQ.length + 4 * g ≤ s.params.outDepth →
    ∃ t, exec .hamDec s = .next t ∧ Completes .hamDec s t ∧
      t.outQ = s.outQ ++ streamOut 7 hamDecClosed ds g ∧
      t.outCount = BitVec.ofNat 32 (4 * g) ∧ t.inQ = rest ∧ t.inCount = BitVec.ofNat 32 ds.length ∧
      t.result = s.result ∧ BufKeptFrom (if ds = [] then 0 else 7) s t

/-- 42_framer R143: ADD_HDR writes one header and reads nothing. -/
def Obligations.AddHdrWritesOneHeader : Prop :=
  ∀ s : State, Ready 12 s → ¬ArgumentBad .addHdr s → s.outQ.length + 8 ≤ s.params.outDepth →
    ∃ t, exec .addHdr s = .next t ∧ Completes .addHdr s t ∧
      t.outQ = s.outQ ++ headerBytes (s.arg0.extractLsb' 0 16) (s.cfg.getLsbD 0) (s.srcport.extractLsb' 0 16) ∧
      t.outCount = 8#32 ∧ t.inQ = s.inQ ∧ t.inCount = 0#32 ∧ t.result = s.result ∧ BufKeptFrom 0 s t

/-- 42_framer R144: FRAME with L >= 1 on an input that ends. Which bytes of BUF it uses is the model's choice (entry 9). -/
def Obligations.FrameFramesTheInput : Prop :=
  ∀ (s : State) (ds : List Byte) (rest : List Token) (l g : Nat), l = s.arg0.toNat → g = roundCount l ds.length →
    1 ≤ l → ¬ArgumentBad .frame s → Ready ((2 * l + 9) * g + 3) s → s.inQ = ds.map .byte ++ .eos :: rest →
    s.outQ.length + (8 + l) * g ≤ s.params.outDepth →
    ∃ t, exec .frame s = .next t ∧ Completes .frame s t ∧
      t.outQ = s.outQ ++ streamOut l (fun d =>
        headerBytes (s.arg0.extractLsb' 0 16) (s.cfg.getLsbD 0) (s.srcport.extractLsb' 0 16) ++ d) ds g ∧
      t.outCount = BitVec.ofNat 32 ((8 + l) * g) ∧ t.inQ = rest ∧ t.inCount = BitVec.ofNat 32 ds.length ∧
      t.result = BitVec.ofNat 32 g ∧ BufKeptFrom (if ds = [] then 0 else min l s.params.bufBytes) s t

/-- 42_framer R146: DEFRAME, given the bytes of its N frames or an end-of-stream before them. Which bytes of BUF it uses is
the model's choice (entry 9). -/
def Obligations.DeframeStripsItsFrames : Prop :=
  ∀ (s : State) (ds : List Byte) (tail : List Token) (l n : Nat), l = s.arg0.toNat → n = s.arg1.toNat →
    Ready ((2 * l + 9) * n + 3) s → s.inQ = ds.map .byte ++ tail →
    (n * (8 + l) ≤ ds.length ∨ ∃ rest, tail = .eos :: rest) → s.outQ.length + l * n ≤ s.params.outDepth →
    ∃ t, exec .deframe s = .next t ∧ Completes .deframe s t ∧
      t.outQ = s.outQ ++ streamOut (8 + l) (fun f =>
        if l ≤ 65535 ∧ f.take 8 =
            headerBytes (s.arg0.extractLsb' 0 16) (s.cfg.getLsbD 0) (s.srcport.extractLsb' 0 16)
        then f.drop 8 else List.replicate l 0x00#8) ds n ∧
      t.outCount = BitVec.ofNat 32 (l * n) ∧
      t.inQ = (if n * (8 + l) ≤ ds.length then (ds.drop (n * (8 + l))).map .byte ++ tail else tail.drop 1) ∧
      t.inCount = BitVec.ofNat 32 (min (n * (8 + l)) ds.length) ∧ t.result = s.result ∧
      BufKeptFrom (if n = 0 then 0 else 8 + min l (s.params.bufBytes - 8)) s t

/-- 42_framer R149: ILV on an input that ends. That it uses bytes 0 to 7*L - 1 of BUF is the model's choice (entry 25). -/
def Obligations.IlvInterleavesTheInput : Prop :=
  ∀ (s : State) (ds : List Byte) (rest : List Token) (l g : Nat), l = s.arg0.toNat →
    g = roundCount (7 * l) ds.length → ¬ArgumentBad .ilv s → Ready ((14 * l + 9) * g + 3) s →
    s.inQ = ds.map .byte ++ .eos :: rest → s.outQ.length + (8 + 7 * l) * g ≤ s.params.outDepth →
    ∃ t, exec .ilv s = .next t ∧ Completes .ilv s t ∧
      t.outQ = s.outQ ++ streamOut (7 * l) (fun q =>
        headerBytes (BitVec.ofNat 16 (7 * l)) (s.cfg.getLsbD 0) (s.srcport.extractLsb' 0 16) ++ interleave l q) ds g ∧
      t.outCount = BitVec.ofNat 32 ((8 + 7 * l) * g) ∧ t.inQ = rest ∧ t.inCount = BitVec.ofNat 32 ds.length ∧
      t.result = BitVec.ofNat 32 (7 * l * g) ∧ BufKeptFrom (if ds = [] then 0 else 7 * l) s t

/-- 42_framer R150: DILV on an input that ends. That it uses bytes 0 to 7*L - 1 of BUF is the model's choice (entry 25). -/
def Obligations.DilvDeinterleavesTheInput : Prop :=
  ∀ (s : State) (ds : List Byte) (rest : List Token) (l g : Nat), l = s.arg0.toNat →
    g = roundCount (8 + 7 * l) ds.length → ¬ArgumentBad .dilv s → Ready ((14 * l + 9) * g + 3) s →
    s.inQ = ds.map .byte ++ .eos :: rest → s.outQ.length + 7 * l * g ≤ s.params.outDepth →
    ∃ t, exec .dilv s = .next t ∧ Completes .dilv s t ∧
      t.outQ = s.outQ ++ streamOut (8 + 7 * l) (fun w => deinterleave l (w.drop 8)) ds g ∧
      t.outCount = BitVec.ofNat 32 (7 * l * g) ∧ t.inQ = rest ∧ t.inCount = BitVec.ofNat 32 ds.length ∧
      t.result = s.result ∧ BufKeptFrom (if ds = [] then 0 else 7 * l) s t

/-- 43_reed_solomon R182: RS_ENC on an input that ends. That it uses bytes 0 to 2*p - 1 of BUF is the model's choice (entry
25). -/
def Obligations.RsEncEncodesTheInput : Prop :=
  ∀ (s : State) (ds : List Byte) (rest : List Token) (p g : Nat), p = s.arg0.toNat →
    g = roundCount (2 * p) ds.length → ¬ArgumentBad .rsEnc s → Ready ((5 * p + 1) * g + 3) s →
    s.inQ = ds.map .byte ++ .eos :: rest → s.outQ.length + 3 * p * g ≤ s.params.outDepth →
    ∃ t, exec .rsEnc s = .next t ∧ Completes .rsEnc s t ∧
      t.outQ = s.outQ ++ streamOut (2 * p) (fun q =>
        q ++ (List.range p).map fun j => gfMul (byteAt q j) (byteAt q (p + j))) ds g ∧
      t.outCount = BitVec.ofNat 32 (3 * p * g) ∧ t.inQ = rest ∧ t.inCount = BitVec.ofNat 32 ds.length ∧
      t.result = BitVec.ofNat 32 (3 * g) ∧ BufKeptFrom (if ds = [] then 0 else 2 * p) s t

/-- 43_reed_solomon R184: RS_DEC, given the bytes of its N payloads or an end-of-stream before them. That it uses bytes 0 to
2*p - 1 of BUF is the model's choice (entry 10). -/
def Obligations.RsDecDecodesItsGroups : Prop :=
  ∀ (s : State) (ds : List Byte) (tail : List Token) (p g : Nat), p = s.arg0.toNat → g = s.arg1.toNat / 3 →
    ¬ArgumentBad .rsDec s → Ready ((5 * p + 1) * g + 3) s → s.inQ = ds.map .byte ++ tail →
    (g * (3 * p) ≤ ds.length ∨ ∃ rest, tail = .eos :: rest) → s.outQ.length + 2 * p * g ≤ s.params.outDepth →
    ∃ t, exec .rsDec s = .next t ∧ Completes .rsDec s t ∧
      t.outQ = s.outQ ++ streamOut (3 * p) (fun q =>
        rsDecGroup (q.take p) ((q.drop p).take p) (q.drop (2 * p))) ds g ∧
      t.outCount = BitVec.ofNat 32 (2 * p * g) ∧
      t.inQ = (if g * (3 * p) ≤ ds.length then (ds.drop (g * (3 * p))).map .byte ++ tail else tail.drop 1) ∧
      t.inCount = BitVec.ofNat 32 (min (g * (3 * p)) ds.length) ∧ t.result = s.result ∧
      BufKeptFrom (if g = 0 then 0 else 2 * p) s t

/-! ### Commands that do not complete -/

/-- 42_framer R145: FRAME with L = 0, for any number of turns, is still RUNNING; it has read nothing and written the
header with length 0 again and again, as far as its turns (the model's, entry 7) or the room in OUT went. -/
def Obligations.FrameOfLengthZeroNeverCompletes : Prop :=
  ∀ s : State, Ready 0 s → s.arg0 = 0#32 →
    ∃ (t : State) (n : Nat), exec .frame s = .next t ∧ Latched .frame s t ∧ t.phase = .running ∧ t.status = 0x1#32 ∧
      t.result = s.result ∧ t.inQ = s.inQ ∧ t.inCount = 0#32 ∧ t.buf = s.buf ∧
      t.outQ = s.outQ ++ (List.range n).map (fun k =>
        byteAt (headerBytes 0x0000#16 (s.cfg.getLsbD 0) (s.srcport.extractLsb' 0 16)) (k % 8)) ∧
      t.outCount = BitVec.ofNat 32 n ∧ (s.turns.length ≤ 2 * n ∨ s.params.outDepth ≤ t.outQ.length)

/-- 70_reset R225: only reset ends a FRAME with L = 0. That reset is an event of the host's script is the model's (entry 27). -/
def Obligations.OnlyResetEndsFrameOfLengthZero : Prop :=
  ∀ s u : State, EndlessFrame s → step s = .next u →
    EndlessFrame u ∨ ∃ ts rest, s.script = { act := .reset, turns := ts } :: rest

/-- 20_memory R53: a command that must read waits on an empty IN, however many turns it gets. That it has written nothing by
then (`outQ` kept, `outCount` 0) is the model's: it rests on R63, which lets an output byte be written only after the tokens it
depends on, and on the model's reading of which those are (entry 11, DEDUCED). For DEFRAME with L > 65535, whose zeros depend on
no token, R63 leaves it free. -/
def Obligations.CommandWaitsOnEmptyIn : Prop :=
  ∀ (i : Instr) (s : State), Ready 0 s → ¬ArgumentBad i s → ReadsInput i s → s.inQ = [] →
    ∃ t, exec i s = .next t ∧ Latched i s t ∧ t.phase = .running ∧ t.status = 0x1#32 ∧ t.inQ = [] ∧
      t.outQ = s.outQ ∧ t.inCount = 0#32 ∧ t.outCount = 0#32 ∧ t.result = s.result ∧ t.buf = s.buf ∧ t.eos = false

/-- 20_memory R56: a command that must write waits on a full OUT: ADD_HDR with room for `k < 8` bytes writes the
first `k` bytes of its header and is still RUNNING, however many further turns it gets. -/
def Obligations.AddHdrWaitsOnFullOut : Prop :=
  ∀ (s : State) (k : Nat), Ready k s → ¬ArgumentBad .addHdr s → k < 8 → s.outQ.length + k = s.params.outDepth →
    ∃ t, exec .addHdr s = .next t ∧ Latched .addHdr s t ∧ t.phase = .running ∧ t.status = 0x1#32 ∧
      t.outQ = s.outQ ++
        (headerBytes (s.arg0.extractLsb' 0 16) (s.cfg.getLsbD 0) (s.srcport.extractLsb' 0 16)).take k ∧
      t.outCount = BitVec.ofNat 32 k ∧ t.inQ = s.inQ ∧ t.inCount = 0#32 ∧ t.result = s.result ∧ t.buf = s.buf

/-! ### Every command -/

/-- 10_state R28, R29, R31, R32, 20_memory R53, R55, R62: a command takes tokens from the head of IN, none after an EOS, and
appends bytes to OUT; the counters count them, whether or not it completes. So does a command that is RUNNING already and goes
on, after it has waited or not: in a RUNNING block `exec` is a CMD write, which is ignored (30_encoding R73), and the running
command takes its turns. -/
def Obligations.CommandsMoveTokensInOrderAndCountThem : Prop :=
  ∀ (i : Instr) (s t : State), exec i s = .next t →
    ∃ (taken : List Token) (new : List Byte), s.inQ = taken ++ t.inQ ∧ t.outQ = s.outQ ++ new ∧
      .eos ∉ taken.dropLast ∧ taken.count .eos ≤ 1 ∧
      (s.phase = .idle →
        t.inCount = BitVec.ofNat 32 (taken.countP tokenIsByte) ∧ t.outCount = BitVec.ofNat 32 new.length ∧
        t.eos = decide (.eos ∈ taken)) ∧
      (s.phase = .running →
        t.inCount = s.inCount + BitVec.ofNat 32 (taken.countP tokenIsByte) ∧
        t.outCount = s.outCount + BitVec.ofNat 32 new.length ∧
        t.eos = (s.eos || decide (.eos ∈ taken)) ∧ (s.eos = true → taken = []))

/-- 10_state R27: a command without a return value leaves RESULT alone, completed or not; one that is RUNNING already, too, in
every further step (in a RUNNING block `exec` is a CMD write, which is ignored, 30_encoding R73). -/
def Obligations.CommandsWithoutAValueKeepResult : Prop :=
  ∀ (i : Instr) (s t : State),
    (s.phase = .idle ∧ i ∈ [.hamEnc, .hamDec, .addHdr, .deframe, .dilv, .rsDec] ∨
      s.phase = .running ∧ s.op ∈ [.hamEnc, .hamDec, .addHdr, .deframe, .dilv, .rsDec]) →
    exec i s = .next t → t.result = s.result

/-- 20_memory R62 items 3 and 4, R63, 30_encoding R77: whatever the host does between a command's turns (`History`: PUSH,
removals, DRAIN, WAIT, register writes, anything but reset), what the command has written is the start of what its rule gives
for the tokens it has taken, whichever tokens may still come; and when it has completed it has written all of it, with STATUS
and RESULT as its rule says. No hypothesis is on the depths of the ports, on the input being there, or on the turns. -/
def Obligations.OutputFollowsTheRuleWhateverTheHostDoes : Prop :=
  ∀ (i : Instr) (k s : State) (taken : List Token) (written : List Byte),
    Ready 0 k → ¬ArgumentBad i k → History i k s taken written →
    s.inCount = BitVec.ofNat 32 (taken.countP tokenIsByte) ∧ s.outCount = BitVec.ofNat 32 written.length ∧
    (∀ ds, InputGoesOn taken ds → written <+: ruleOutput i k ds written.length) ∧
    (s.phase = .idle →
      s.status = 0x2#32 ∧ written = ruleOutput i k (tokenBytes taken) 0 ∧
      s.result = ruleResult i k (roundTotal i k (tokenBytes taken).length 0) ∧
      (runsUntilEos i = true → .eos ∈ taken) ∧
      (runsUntilEos i = false → .eos ∉ taken → (tokenBytes taken).length =
        roundTotal i k (tokenBytes taken).length 0 * roundLength i k.arg0.toNat))

/-- 70_reset R229: in a run (of `step`, with any host events but reset while the command runs) in which no read of the running
command must wait for a token and no write for room, the command completes after finitely many steps, unless it is FRAME with
L = 0. The steps are those of the model's schedule, in which each host operation gives the sequencer its turns, and a host that
waits, or has nothing left to do, at least one (entries 5, 19, 20, 21). -/
def Obligations.CommandThatNeedNotWaitCompletes : Prop :=
  ∀ x : Nat → State, Inv (x 0) → (x 0).phase = .running → ¬((x 0).op = .frame ∧ (x 0).a0 = 0#32) →
    (∀ n, step (x n) = .next (x (n + 1))) → (∀ n, (x n).phase = .running → ¬(x n).resetNext) →
    (∀ n, Unblocked (x n)) → ∃ n, (x n).phase = .idle

/-- 20_memory R62: no command writes the registers the host writes, nor the host's side. -/
def Obligations.CommandsKeepTheHostsRegisters : Prop :=
  ∀ (i : Instr) (s t : State), exec i s = .next t →
    t.params = s.params ∧ t.cfg = s.cfg ∧ t.srcport = s.srcport ∧ t.arg0 = s.arg0 ∧ t.arg1 = s.arg1 ∧
      t.script = s.script ∧ t.trace = s.trace

/-- 10_state R36: a host write to ARG0, ARG1, CFG or SRCPORT while RUNNING changes the register and nothing of the
running command: the step is the one without a host operation, but for that register. -/
def Obligations.WritesWhileRunningDoNotReachTheCommand : Prop :=
  ∀ (s u : State) (v : Word) (ts : List Turn) (rest : List HostEvent), s.phase = .running →
    step { s with script := { act := .pause, turns := ts } :: rest } = .next u →
    step { s with script := { act := .write 32 0x10 v, turns := ts } :: rest } = .next { u with arg0 := v } ∧
    step { s with script := { act := .write 32 0x14 v, turns := ts } :: rest } = .next { u with arg1 := v } ∧
    step { s with script := { act := .write 32 0x08 v, turns := ts } :: rest } =
      .next { u with cfg := (v.extractLsb' 0 1).setWidth 32 } ∧
    step { s with script := { act := .write 32 0x0C v, turns := ts } :: rest } =
      .next { u with srcport := (v.extractLsb' 0 16).setWidth 32 }

/-- 30_encoding R77, 20_memory R64: the turn that completes a command comes after the RESULT write and changes
STATUS and the phase only. -/
def Obligations.CompletionIsOneLastTurn : Prop :=
  ∀ (s : State) (t : Turn), s.phase = .running → (s.turn t).phase = .idle →
    s.stage = .finish ∧
      s.turn t = { s with status := (s.status ||| 0x3#32) ^^^ 0x1#32, phase := .idle }

/-- 30_encoding R77, 70_reset R220: a command stops RUNNING only by completing, with DONE = 1 and BUSY = 0, or by
reset. That reset is an event of the host's script is the model's (entry 27). -/
def Obligations.RunningEndsOnlyByCompletionOrReset : Prop :=
  ∀ s u : State, s.phase = .running → step s = .next u → u.phase = .idle →
    (u.status.getLsbD 1 = true ∧ u.status.getLsbD 0 = false) ∨
      ∃ ts rest, s.script = { act := .reset, turns := ts } :: rest

/-! ### The invariant -/

/-- 10_state R38, 00_scope R5: the block right after reset meets the invariant. -/
def Obligations.ResetMeetsTheInvariant : Prop := Inv State.reset

/-- 10_state R22, R23, R24, R31, R32, R36, 20_memory R58: every step keeps the invariant, from every state that
meets it. -/
def Obligations.EveryStepKeepsTheInvariant : Prop :=
  ∀ s u : State, Inv s → step s = .next u → Inv u

/-- 20_memory R51, R58, 60_exceptions R206: no step from a state of the invariant faults, and none is refused but for a
register access without a meaning, which is refused. -/
def Obligations.StepsFromTheInvariantDoNotFault : Prop :=
  ∀ s : State, Inv s → (∃ u, step s = .next u) ∨
    ((∃ r, step s = .refused r) ∧ ∃ e rest, s.script = e :: rest ∧ ∃ width off v,
      (e.act = .write width off v ∨ e.act = .read width off) ∧ ¬(width = 32 ∧ off % 4 = 0 ∧ off ≤ 0x20))

/-! ### The host's operations -/

/-- 20_memory R51: exactly the accesses without a meaning are refused. -/
def Obligations.RegisterAccessesAreRefusedExactlyWithoutAMeaning : Prop :=
  ∀ (s : State) (e : HostEvent) (rest : List HostEvent) (width off : Nat) (v : Word), s.script = e :: rest →
    (e.act = .write width off v ∨ e.act = .read width off) →
    ((∃ r, step s = .refused r) ↔ width ≠ 32 ∨ off % 4 ≠ 0 ∨ 0x24 ≤ off)

/-- 10_state R20 to R29, 20_memory R59: what a read of each register returns; nothing else changes. -/
def Obligations.RegisterReadsReturnTheRegisters : Prop :=
  ∀ (s : State) (rest : List HostEvent) (off : Nat) (v : Word), Inv s →
    s.script = { act := .read 32 off, turns := [] } :: rest →
    (off, v) ∈ [(0x00, 0x00000000#32), (0x04, (s.status.extractLsb' 0 4).setWidth 32),
      (0x08, (s.cfg.extractLsb' 0 1).setWidth 32), (0x0C, (s.srcport.extractLsb' 0 16).setWidth 32),
      (0x10, s.arg0), (0x14, s.arg1), (0x18, s.result), (0x1C, s.inCount), (0x20, s.outCount)] →
    step s = .next { s with script := rest, turns := [], trace := s.trace ++ [.value v] }

/-- 10_state R20, R23 to R26: what a write to each register but CMD does; the read-only ones ignore it. -/
def Obligations.RegisterWritesChangeTheirRegister : Prop :=
  ∀ (s u : State) (rest : List HostEvent) (off : Nat) (v : Word), Inv s →
    s.script = { act := .write 32 off v, turns := [] } :: rest →
    (off, u) ∈ [(0x04, s), (0x08, { s with cfg := (v.extractLsb' 0 1).setWidth 32 }),
      (0x0C, { s with srcport := (v.extractLsb' 0 16).setWidth 32 }), (0x10, { s with arg0 := v }),
      (0x14, { s with arg1 := v }), (0x18, s), (0x1C, s), (0x20, s)] →
    step s = .next { u with script := rest, turns := [] }

/-- 10_state R31, 30_encoding R78, 70_reset R229: a token that is appended to IN is there before the sequencer's next turn;
while IN is full the host waits, and the step is one without a host operation. The turns of such a step are the event's, and one
turn where it names none (entry 20). In an IDLE block, or where there is room and no turn, nothing else happens. -/
def Obligations.PushAppendsOrWaits : Prop :=
  ∀ (s : State) (t : Token) (ts : List Turn) (rest : List HostEvent), Inv s →
    s.script = { act := .push t, turns := ts } :: rest →
    (s.inQ.length < s.params.inDepth →
      step s = step { s with inQ := s.inQ ++ [t], script := { act := .pause, turns := ts } :: rest }) ∧
    (¬s.inQ.length < s.params.inDepth →
      step s = step { s with script := { act := .pause, turns := if ts = [] then [.write] else ts } :: s.script }) ∧
    (s.phase = .idle ∨ ts = [] ∧ s.inQ.length < s.params.inDepth →
      step s = .next (if s.inQ.length < s.params.inDepth
        then { s with inQ := s.inQ ++ [t], script := rest, turns := [] } else { s with turns := [] }))

/-- 20_memory R56, 30_encoding R78: DRAIN takes every byte of OUT, in order, a removal its head byte, before the sequencer's
next turn. That a single removal records its byte in the trace is the model's choice (entry 6, DESIGN CHOICE): R56 records
nothing, and R78 reads and DRAIN only. A removal waits while OUT is empty, and the step is one without a host operation (entry
20: that it waits, and the one turn where the event names none, are the model's choice). In an IDLE block, or where nothing waits and there is no turn,
nothing else happens. -/
def Obligations.HostRemovesBytesInOrder : Prop :=
  ∀ (s : State) (ts : List Turn) (rest : List HostEvent), Inv s →
    (s.script = { act := .drain, turns := ts } :: rest →
      step s = step { s with
        outQ := [], trace := s.trace ++ s.outQ.map .byte, script := { act := .pause, turns := ts } :: rest } ∧
      (s.phase = .idle ∨ ts = [] →
        step s = .next { s with outQ := [], trace := s.trace ++ s.outQ.map .byte, script := rest, turns := [] })) ∧
    (s.script = { act := .pop, turns := ts } :: rest →
      (s.outQ = [] →
        step s = step { s with script := { act := .pause, turns := if ts = [] then [.write] else ts } :: s.script } ∧
        (s.phase = .idle → step s = .next { s with turns := [] })) ∧
      ∀ v q, s.outQ = v :: q →
        step s = step { s with
          outQ := q, trace := s.trace ++ [.byte v], script := { act := .pause, turns := ts } :: rest } ∧
        (s.phase = .idle ∨ ts = [] →
          step s = .next { s with outQ := q, trace := s.trace ++ [.byte v], script := rest, turns := [] }))

/-- 30_encoding R78, 70_reset R229: a pass of WAIT drains OUT and reads STATUS, before the sequencer's next turn; it is the last
one when DONE = 1. A pass that is not the last gives the sequencer the event's turns, and one turn where it names none, so that
WAIT alone never keeps a command from completing (entry 20). -/
def Obligations.WaitPollsUntilDone : Prop :=
  ∀ (s : State) (ts : List Turn) (rest : List HostEvent), Inv s → s.script = { act := .wait, turns := ts } :: rest →
    let polled : State := { s with outQ := [], trace := s.trace ++ s.outQ.map .byte ++ [.value s.status] }
    (s.status.getLsbD 1 = true →
      step s = step { polled with script := { act := .pause, turns := ts } :: rest } ∧
      step s = .next { polled with script := rest, turns := [] }) ∧
    (s.status.getLsbD 1 = false →
      step s = step { polled with
        script := { act := .pause, turns := if ts = [] then [.write] else ts } :: s.script } ∧
      (s.phase = .idle → step s = .next { polled with turns := [] }))

/-- 70_reset R220, 10_state R38: reset, in any state, RUNNING or not. That the parameters, the host's script and the host's
trace go on is the model's, not the spec's (entry 16, DEDUCED), and so is that reset is an event of the host's script (entry
27). -/
def Obligations.ResetPutsTheBlockInItsResetState : Prop :=
  ∀ (s : State) (ts : List Turn) (rest : List HostEvent), s.script = { act := .reset, turns := ts } :: rest →
    ∃ u, step s = .next u ∧ u.status = 0#32 ∧ u.cfg = 1#32 ∧ u.srcport = s.params.srcPortReset.setWidth 32 ∧
      u.arg0 = 0#32 ∧ u.arg1 = 0#32 ∧ u.result = 0#32 ∧ u.inCount = 0#32 ∧ u.outCount = 0#32 ∧ u.inQ = [] ∧
      u.outQ = [] ∧ u.phase = .idle ∧ u.eos = false ∧ u.params = s.params ∧ u.script = rest ∧ u.trace = s.trace

/-- 10_state R38: the reset values, with the OPEN parameter SRC_PORT_RESET, and the constants H and G (R34, R35). -/
def Obligations.ResetValues : Prop :=
  State.reset.status = 0x00000000#32 ∧ State.reset.cfg = 0x00000001#32 ∧
    State.reset.srcport = Config.srcPortReset.setWidth 32 ∧ State.reset.arg0 = 0x00000000#32 ∧
    State.reset.arg1 = 0x00000000#32 ∧ State.reset.result = 0x00000000#32 ∧ State.reset.inCount = 0x00000000#32 ∧
    State.reset.outCount = 0x00000000#32 ∧ State.reset.inQ = [] ∧ State.reset.outQ = [] ∧
    State.reset.phase = .idle ∧ State.reset.eos = false ∧ generator = 0x011D#16 ∧
    (List.range 3).map (fun r => (List.range 7).map (matrixBit r)) =
      [[true, true, false, true, true, false, false], [true, false, true, true, false, true, false],
       [false, true, true, true, false, false, true]]

/-! ### GF(256) -/

/-- 40_galois R100: Clmul is the product of polynomials over GF(2): bit `n` is the sum of `a[n-i]*b[i]`. -/
def Obligations.ClmulIsThePolynomialProduct : Prop :=
  ∀ (a b : Byte) (n : Nat), n < 16 →
    (clmul a b).getLsbD n =
      (List.range 8).foldl (fun acc i => acc ^^ (decide (i ≤ n) && a.getLsbD (n - i) && b.getLsbD i)) false

/-- 40_galois R101: GfReduce is the remainder modulo G: it is the one byte that differs from `v` by a multiple of
G. -/
def Obligations.GfReduceIsTheRemainder : Prop :=
  ∀ (v : Half) (r : Byte), gfReduce v = r ↔ ∃ q : Byte, v = timesGenerator q ^^^ r.setWidth 16

/-- 40_galois R102, R103: GfMul is GfReduce of Clmul, so that it differs from the product of polynomials by a multiple of G; and
its laws: 0x02 has order 255, G is irreducible (no product of two bytes is G), and every nonzero element has an inverse. -/
def Obligations.GfMulMakesAField : Prop :=
  (∀ a b : Byte, gfMul a b = gfReduce (clmul a b)) ∧
  (∀ a b : Byte, ∃ q : Byte, clmul a b = timesGenerator q ^^^ (gfMul a b).setWidth 16) ∧
  (∀ a b : Byte, gfMul a b = gfMul b a) ∧ (∀ a : Byte, gfMul a 0x00#8 = 0x00#8) ∧
  (∀ a : Byte, gfMul a 0x01#8 = a) ∧ (∀ a b c : Byte, gfMul (gfMul a b) c = gfMul a (gfMul b c)) ∧
  (∀ a b c : Byte, gfMul a (b ^^^ c) = gfMul a b ^^^ gfMul a c) ∧
  gfPow 0x02#8 255 = 0x01#8 ∧ (∀ n, 0 < n → n < 255 → gfPow 0x02#8 n ≠ 0x01#8) ∧
  (∀ a b : Byte, clmul a b ≠ 0x011D#16) ∧
  ∀ a : Byte, a ≠ 0x00#8 → ∃ b, gfMul a b = 0x01#8

/-! ### The Hamming code -/

/-- 10_state R34: the columns of H are the seven nonzero patterns of 41_hamming R124, each once. -/
def Obligations.ColumnsOfTheMatrix : Prop :=
  (List.range 7).map column =
    [(true, true, false), (true, false, true), (false, true, true), (true, true, true), (true, false, false),
     (false, true, false), (false, false, true)]

/-- 41_hamming R123, R124 (c): the search and the closed form are the same function. -/
def Obligations.HammingSearchEqualsClosedForm : Prop :=
  ∀ r : List Byte, r.length = 7 → hamDecRound r = hamDecClosed r

/-- 41_hamming R125: one error in each lane, at most, is corrected. -/
def Obligations.HammingCorrectsOneErrorPerLane : Prop :=
  ∀ (d0 d1 d2 d3 : Byte) (e : List Byte), e.length = 7 → AtMostOnePerLane e →
    hamDecRound (corrupt (hamEncRound d0 d1 d2 d3) e) = [d0, d1, d2, d3]

/-- 41_hamming R126: two errors in a lane are always decoded wrongly in that lane. -/
def Obligations.HammingMiscorrectsTwoErrorsInALane : Prop :=
  ∀ (d0 d1 d2 d3 : Byte) (e : List Byte) (b i j : Nat), e.length = 7 → b < 8 → i < j → j < 7 →
    (∀ m < 7, (byteAt e m).getLsbD b = (m == i || m == j)) →
    ∃ k < 4, (byteAt (hamDecRound (corrupt (hamEncRound d0 d1 d2 d3) e)) k).getLsbD b ≠
      (byteAt [d0, d1, d2, d3] k).getLsbD b

/-- 41_hamming R126: three errors in a lane at positions whose columns add to zero pass undetected; the triples are
the seven listed. -/
def Obligations.HammingMissesTheSevenTriples : Prop :=
  ∀ (d0 d1 d2 d3 : Byte) (e : List Byte) (b i j m : Nat), e.length = 7 → b < 8 → i < j → j < m → m < 7 →
    (∀ n < 7, (byteAt e n).getLsbD b = (n == i || n == j || n == m)) →
    ((∀ s < 3, (syndrome (corrupt (hamEncRound d0 d1 d2 d3) e) s).getLsbD b = false) ↔
      (i, j, m) ∈ [(0, 1, 2), (0, 3, 6), (0, 4, 5), (1, 3, 5), (1, 4, 6), (2, 3, 4), (2, 5, 6)])

/-- 41_hamming R127, R128, R125: what HAM_ENC wrote, with at most one error in each lane of each codeword, HAM_DEC
turns back into the input and its padding. The number of turns is the model's (entry 7). -/
def Obligations.HammingStreamRoundTrip : Prop :=
  ∀ (s t s' : State) (ds : List Byte) (err : Nat → List Byte) (rest rest' : List Token) (g : Nat),
    g = roundCount 4 ds.length → Ready (12 * g + 3) s → s.inQ = ds.map .byte ++ .eos :: rest →
    s.outQ.length + 7 * g ≤ s.params.outDepth → exec .hamEnc s = .next t →
    (∀ i < g, (err i).length = 7 ∧ AtMostOnePerLane (err i)) →
    Ready (12 * g + 3) s' → s'.outQ.length + 4 * g ≤ s'.params.outDepth →
    s'.inQ = ((List.range g).flatMap fun i =>
      corrupt (roundBytes 7 (t.outQ.drop s.outQ.length) i) (err i)).map .byte ++ .eos :: rest' →
    ∃ u, exec .hamDec s' = .next u ∧
      u.outQ = s'.outQ ++ ds ++ List.replicate (4 * g - ds.length) 0x00#8

/-! ### The framer and the interleaver -/

/-- 42_framer R141: the header, byte by byte, in both byte orders. -/
def Obligations.HeaderBytesInBothOrders : Prop :=
  ∀ len sp : Half,
    headerBytes len true sp = [sp.extractLsb' 8 8, sp.extractLsb' 0 8, 0xFF#8, 0xFF#8, len.extractLsb' 8 8,
      len.extractLsb' 0 8, 0x00#8, 0x00#8] ∧
    headerBytes len false sp = [sp.extractLsb' 0 8, sp.extractLsb' 8 8, 0xFF#8, 0xFF#8, len.extractLsb' 0 8,
      len.extractLsb' 8 8, 0x00#8, 0x00#8]

/-- 42_framer R148: in the group's payload, 7 buffers of `l` bytes one after the other, buffer `r` holds at position
`j` byte `7*j + r` of the group. -/
def Obligations.BuffersOfAnInterleavedGroup : Prop :=
  ∀ (l : Nat) (q : List Byte), q.length = 7 * l → (interleave l q).length = 7 * l ∧
    ∀ r < 7, ∀ j < l, byteAt (interleave l q) (r * l + j) = byteAt q (7 * j + r)

/-- 42_framer R148: the interleaver's permutation and the de-interleaver's undo each other. -/
def Obligations.InterleaverPermutationsAreInverse : Prop :=
  ∀ (l : Nat) (q : List Byte), q.length = 7 * l →
    deinterleave l (interleave l q) = q ∧ interleave l (deinterleave l q) = q

/-- 42_framer R147: what FRAME wrote, DEFRAME turns back into the data and its padding. The number of turns is the
model's (entry 7). -/
def Obligations.FrameRoundTrip : Prop :=
  ∀ (s t s' : State) (ds : List Byte) (rest tail : List Token) (l g : Nat), l = s.arg0.toNat →
    g = roundCount l ds.length → 1 ≤ l → ¬ArgumentBad .frame s → Ready ((2 * l + 9) * g + 3) s →
    s.inQ = ds.map .byte ++ .eos :: rest → s.outQ.length + (8 + l) * g ≤ s.params.outDepth →
    exec .frame s = .next t → g < 2 ^ 32 →
    Ready ((2 * l + 9) * g + 3) s' → s'.arg0 = s.arg0 → s'.arg1 = t.result →
    s'.cfg.getLsbD 0 = s.cfg.getLsbD 0 → s'.srcport.extractLsb' 0 16 = s.srcport.extractLsb' 0 16 →
    s'.inQ = (t.outQ.drop s.outQ.length).map .byte ++ tail → s'.outQ.length + l * g ≤ s'.params.outDepth →
    ∃ u, exec .deframe s' = .next u ∧ u.inQ = tail ∧
      u.outQ = s'.outQ ++ ds ++ List.replicate (l * g - ds.length) 0x00#8

/-- 42_framer R151: what ILV wrote, DILV turns back into the stream and its padding, whatever the byte order and
SRC_PORT of the two. The number of turns is the model's (entry 7). -/
def Obligations.InterleaverRoundTrip : Prop :=
  ∀ (s t s' : State) (ds : List Byte) (rest rest' : List Token) (l g : Nat), l = s.arg0.toNat →
    g = roundCount (7 * l) ds.length → ¬ArgumentBad .ilv s → Ready ((14 * l + 9) * g + 3) s →
    s.inQ = ds.map .byte ++ .eos :: rest → s.outQ.length + (8 + 7 * l) * g ≤ s.params.outDepth →
    exec .ilv s = .next t →
    Ready ((14 * l + 9) * g + 3) s' → s'.arg0 = s.arg0 → 7 * l ≤ s'.params.bufBytes →
    s'.inQ = (t.outQ.drop s.outQ.length).map .byte ++ .eos :: rest' →
    s'.outQ.length + 7 * l * g ≤ s'.params.outDepth →
    ∃ u, exec .dilv s' = .next u ∧ u.inQ = rest' ∧
      u.outQ = s'.outQ ++ ds ++ List.replicate (7 * l * g - ds.length) 0x00#8

/-! ### Reed-Solomon -/

/-- 43_reed_solomon R183: the three branches, in their order, on payloads of equal length. -/
def Obligations.RsDecGroupBranches : Prop :=
  ∀ (p : Nat) (p0 p1 p2 : List Byte), p0.length = p → p1.length = p → p2.length = p →
    ((∀ v ∈ p0, v = 0x00#8) → (∃ v ∈ p2, v ≠ 0x00#8) →
      rsDecGroup p0 p1 p2 = (List.range p).map (fun j => byteAt p1 j ^^^ byteAt p2 j) ++ p1) ∧
    ((∃ v ∈ p0, v ≠ 0x00#8) → (∀ v ∈ p1, v = 0x00#8) → (∃ v ∈ p2, v ≠ 0x00#8) →
      rsDecGroup p0 p1 p2 = p0 ++ (List.range p).map (fun j => byteAt p0 j ^^^ byteAt p2 j)) ∧
    (((∃ v ∈ p0, v ≠ 0x00#8) ∧ (∃ v ∈ p1, v ≠ 0x00#8) ∨ (∀ v ∈ p2, v = 0x00#8)) →
      rsDecGroup p0 p1 p2 = p0 ++ p1)

/-- 43_reed_solomon R185: recovery of an erased data byte from the multiplicative parity is exact only on a thin
set: for each value other than 0x01 one value of the other byte, for 0x01 none. -/
def Obligations.RecoveryIsExactOnAThinSet : Prop :=
  (∀ d0 d1 : Byte, d1 ^^^ gfMul d0 d1 = d0 ↔ gfMul (d0 ^^^ 0x01#8) (d1 ^^^ 0x01#8) = 0x01#8) ∧
  (∀ d0 d1 : Byte, d0 ^^^ gfMul d0 d1 = d1 ↔ gfMul (d0 ^^^ 0x01#8) (d1 ^^^ 0x01#8) = 0x01#8) ∧
  (∀ d0 : Byte, d0 ≠ 0x01#8 → ∃ d1, d1 ^^^ gfMul d0 d1 = d0 ∧ ∀ x, x ^^^ gfMul d0 x = d0 → x = d1) ∧
  ∀ d1 : Byte, d1 ^^^ gfMul 0x01#8 d1 ≠ 0x01#8

/-- 43_reed_solomon R186: what RS_ENC wrote, RS_DEC turns back into the data and its padding. The number of turns is
the model's (entry 7). -/
def Obligations.ReedSolomonRoundTrip : Prop :=
  ∀ (s t s' : State) (ds : List Byte) (rest tail : List Token) (p g : Nat), p = s.arg0.toNat →
    g = roundCount (2 * p) ds.length → ¬ArgumentBad .rsEnc s → Ready ((5 * p + 1) * g + 3) s →
    s.inQ = ds.map .byte ++ .eos :: rest → s.outQ.length + 3 * p * g ≤ s.params.outDepth →
    exec .rsEnc s = .next t → 3 * g < 2 ^ 32 →
    Ready ((5 * p + 1) * g + 3) s' → s'.arg0 = s.arg0 → s'.arg1 = t.result → 2 * p ≤ s'.params.bufBytes →
    s'.inQ = (t.outQ.drop s.outQ.length).map .byte ++ tail → s'.outQ.length + 2 * p * g ≤ s'.params.outDepth →
    ∃ u, exec .rsDec s' = .next u ∧ u.inQ = tail ∧
      u.outQ = s'.outQ ++ ds ++ List.replicate (2 * p * g - ds.length) 0x00#8
end

