-- ==== Sys2Proof/Laws/Memory.lean ====
section
/-! SUPPORT. The laws of BUF: a read after a write, and the canonical form. -/

namespace Sys2Proof.Machine

@[simp] theorem Memory.read_nil (a : Nat) : Memory.read [] a = Memory.unlisted := rfl

theorem Memory.wfFrom_cons {lo a : Nat} {v : Byte} {m : Memory} :
    Memory.wfFrom lo ((a, v) :: m) = true ↔ lo ≤ a ∧ v ≠ Memory.unlisted ∧ Memory.wfFrom (a + 1) m = true := by
  simp only [Memory.wfFrom, Bool.and_eq_true, decide_eq_true_eq, and_assoc]

/-- Nothing is listed below the bound. -/
theorem Memory.read_of_lt {m : Memory} {lo a : Nat} (h : Memory.wfFrom lo m = true) (ha : a < lo) :
    m.read a = Memory.unlisted := by
  induction m generalizing lo with
  | nil => rfl
  | cons c m ih =>
    obtain ⟨b, v⟩ := c
    obtain ⟨hb, -, hm⟩ := Memory.wfFrom_cons.mp h
    rw [Memory.read, if_neg (by omega : a ≠ b)]
    exact ih hm (by omega)

/-- A lower bound may be lowered. -/
theorem Memory.wfFrom_mono {m : Memory} {lo hi : Nat} (h : Memory.wfFrom hi m = true) (hle : lo ≤ hi) :
    Memory.wfFrom lo m = true := by
  cases m with
  | nil => rfl
  | cons c m =>
    obtain ⟨hb, hv, hm⟩ := Memory.wfFrom_cons.mp h
    exact Memory.wfFrom_cons.mpr ⟨hle.trans hb, hv, hm⟩

/-- A write at or above the bound keeps the canonical form. -/
theorem Memory.wfFrom_write {m : Memory} {lo a : Nat} {v : Byte} (h : Memory.wfFrom lo m = true) (ha : lo ≤ a) :
    Memory.wfFrom lo (m.write a v) = true := by
  induction m generalizing lo with
  | nil =>
    rw [Memory.write]
    split
    · rfl
    · exact Memory.wfFrom_cons.mpr ⟨ha, ‹_›, rfl⟩
  | cons c m ih =>
    obtain ⟨b, w⟩ := c
    obtain ⟨hb, hw, hm⟩ := Memory.wfFrom_cons.mp h
    rw [Memory.write]
    split
    · split
      · exact h
      · exact Memory.wfFrom_cons.mpr ⟨ha, ‹_›, Memory.wfFrom_cons.mpr ⟨by omega, hw, hm⟩⟩
    · split
      · subst_vars
        split
        · exact Memory.wfFrom_mono hm (by omega)
        · exact Memory.wfFrom_cons.mpr ⟨ha, ‹_›, hm⟩
      · exact Memory.wfFrom_cons.mpr ⟨hb, hw, ih hm (by omega)⟩

/-- A write keeps the canonical form. -/
theorem Memory.wf_write {m : Memory} (a : Nat) (v : Byte) (h : m.wf = true) : (m.write a v).wf = true :=
  Memory.wfFrom_write h (Nat.zero_le a)

/-- A read after a write to the same address, above a bound. -/
theorem Memory.read_write_same_from {m : Memory} {lo a : Nat} (v : Byte) (h : Memory.wfFrom lo m = true) :
    (m.write a v).read a = v := by
  induction m generalizing lo with
  | nil =>
    rw [Memory.write]
    split
    · exact (‹v = _›).symm
    · simp [Memory.read]
  | cons c m ih =>
    obtain ⟨b, w⟩ := c
    obtain ⟨hb, hw, hm⟩ := Memory.wfFrom_cons.mp h
    rw [Memory.write]
    split
    · split
      · rw [Memory.read, if_neg (by omega), Memory.read_of_lt hm (by omega), ‹v = _›]
      · simp [Memory.read]
    · split
      · subst_vars
        split
        · rw [Memory.read_of_lt hm (by omega), ‹v = _›]
        · simp [Memory.read]
      · rw [Memory.read, if_neg ‹_›, ih hm]

/-- A read after a write to the same address. -/
theorem Memory.read_write_same {m : Memory} (a : Nat) (v : Byte) (h : m.wf = true) : (m.write a v).read a = v :=
  Memory.read_write_same_from v h

/-- A write leaves every other address alone. -/
theorem Memory.read_write_ne {m : Memory} {a b : Nat} (v : Byte) (hne : b ≠ a) :
    (m.write a v).read b = m.read b := by
  induction m with
  | nil =>
    rw [Memory.write]
    split
    · rfl
    · simp [Memory.read, hne]
  | cons c m ih =>
    obtain ⟨x, w⟩ := c
    rw [Memory.write]
    split
    · split <;> simp [Memory.read, hne]
    · split
      · subst_vars
        split <;> simp [Memory.read, hne]
      · simp only [Memory.read, ih]

/-- Where a listed entry of the memory after a write comes from. -/
theorem Memory.mem_write {m : Memory} {a : Nat} {v : Byte} {c : Host.Cell} (h : c ∈ m.write a v) :
    c.1 = a ∨ c ∈ m := by
  induction m with
  | nil =>
    rw [Memory.write] at h
    split at h
    · exact .inr h
    · exact .inl (by simp_all)
  | cons d m ih =>
    obtain ⟨x, w⟩ := d
    rw [Memory.write] at h
    split at h
    · split at h
      · exact .inr h
      · rcases List.mem_cons.mp h with rfl | h
        · exact .inl rfl
        · exact .inr h
    · split at h
      · split at h
        · exact .inr (List.mem_cons_of_mem _ h)
        · rcases List.mem_cons.mp h with rfl | h
          · exact .inl rfl
          · exact .inr (List.mem_cons_of_mem _ h)
      · rcases List.mem_cons.mp h with rfl | h
        · exact .inr (List.mem_cons_self ..)
        · exact (ih h).imp_right (List.mem_cons_of_mem _)

/-- A write inside a range keeps every listed address inside it. -/
theorem Memory.within_write {m : Memory} {n a : Nat} (v : Byte) (ha : a < n) (h : m.within n = true) :
    (m.write a v).within n = true := by
  simp only [Memory.within, List.all_eq_true, decide_eq_true_eq] at h ⊢
  intro c hc
  rcases Memory.mem_write hc with hc | hc
  · omega
  · exact h c hc

/-- The buffer of a block right after reset is in its canonical form. -/
theorem State.powerUp_buf_wf (p : Params) : (State.powerUp p).buf.wf = true := rfl

end Sys2Proof.Machine
end

