-- ==== Sys2Proof/Laws/State.lean ====
section
/-! SUPPORT. What each named update of State leaves in each field. -/

namespace Sys2Proof.Machine

/-! ### `State.latch` -/

@[simp] theorem State.latch_params (s : State) : s.latch.params = s.params := rfl
@[simp] theorem State.latch_status (s : State) : s.latch.status = statusAccepted := rfl
@[simp] theorem State.latch_cfg (s : State) : s.latch.cfg = s.cfg := rfl
@[simp] theorem State.latch_srcport (s : State) : s.latch.srcport = s.srcport := rfl
@[simp] theorem State.latch_arg0 (s : State) : s.latch.arg0 = s.arg0 := rfl
@[simp] theorem State.latch_arg1 (s : State) : s.latch.arg1 = s.arg1 := rfl
@[simp] theorem State.latch_result (s : State) : s.latch.result = s.result := rfl
@[simp] theorem State.latch_inCount (s : State) : s.latch.inCount = 0#32 := rfl
@[simp] theorem State.latch_outCount (s : State) : s.latch.outCount = 0#32 := rfl
@[simp] theorem State.latch_inQ (s : State) : s.latch.inQ = s.inQ := rfl
@[simp] theorem State.latch_outQ (s : State) : s.latch.outQ = s.outQ := rfl
@[simp] theorem State.latch_buf (s : State) : s.latch.buf = s.buf := rfl
@[simp] theorem State.latch_phase (s : State) : s.latch.phase = .running := rfl
@[simp] theorem State.latch_op (s : State) : s.latch.op = s.op := rfl
@[simp] theorem State.latch_a0 (s : State) : s.latch.a0 = s.arg0 := rfl
@[simp] theorem State.latch_a1 (s : State) : s.latch.a1 = s.arg1 := rfl
@[simp] theorem State.latch_be (s : State) : s.latch.be = hdrBe s.cfg := rfl
@[simp] theorem State.latch_sp (s : State) : s.latch.sp = lowHalf s.srcport := rfl
@[simp] theorem State.latch_eos (s : State) : s.latch.eos = false := rfl
@[simp] theorem State.latch_stage (s : State) : s.latch.stage = .rounds := rfl
@[simp] theorem State.latch_round (s : State) : s.latch.round = 0 := rfl
@[simp] theorem State.latch_rd (s : State) : s.latch.rd = 0 := rfl
@[simp] theorem State.latch_wr (s : State) : s.latch.wr = 0 := rfl
@[simp] theorem State.latch_hold (s : State) : s.latch.hold = .dropped := rfl
@[simp] theorem State.latch_turns (s : State) : s.latch.turns = s.turns := rfl
@[simp] theorem State.latch_script (s : State) : s.latch.script = s.script := rfl
@[simp] theorem State.latch_trace (s : State) : s.latch.trace = s.trace := rfl

/-! ### `State.latchOp` -/

@[simp] theorem State.latchOp_params (s : State) (i : Instr) : (s.latchOp i).params = s.params := rfl
@[simp] theorem State.latchOp_status (s : State) (i : Instr) : (s.latchOp i).status = statusAccepted := rfl
@[simp] theorem State.latchOp_cfg (s : State) (i : Instr) : (s.latchOp i).cfg = s.cfg := rfl
@[simp] theorem State.latchOp_srcport (s : State) (i : Instr) : (s.latchOp i).srcport = s.srcport := rfl
@[simp] theorem State.latchOp_arg0 (s : State) (i : Instr) : (s.latchOp i).arg0 = s.arg0 := rfl
@[simp] theorem State.latchOp_arg1 (s : State) (i : Instr) : (s.latchOp i).arg1 = s.arg1 := rfl
@[simp] theorem State.latchOp_result (s : State) (i : Instr) : (s.latchOp i).result = s.result := rfl
@[simp] theorem State.latchOp_inCount (s : State) (i : Instr) : (s.latchOp i).inCount = 0#32 := rfl
@[simp] theorem State.latchOp_outCount (s : State) (i : Instr) : (s.latchOp i).outCount = 0#32 := rfl
@[simp] theorem State.latchOp_inQ (s : State) (i : Instr) : (s.latchOp i).inQ = s.inQ := rfl
@[simp] theorem State.latchOp_outQ (s : State) (i : Instr) : (s.latchOp i).outQ = s.outQ := rfl
@[simp] theorem State.latchOp_buf (s : State) (i : Instr) : (s.latchOp i).buf = s.buf := rfl
@[simp] theorem State.latchOp_phase (s : State) (i : Instr) : (s.latchOp i).phase = .running := rfl
@[simp] theorem State.latchOp_op (s : State) (i : Instr) : (s.latchOp i).op = i := rfl
@[simp] theorem State.latchOp_a0 (s : State) (i : Instr) : (s.latchOp i).a0 = s.arg0 := rfl
@[simp] theorem State.latchOp_a1 (s : State) (i : Instr) : (s.latchOp i).a1 = s.arg1 := rfl
@[simp] theorem State.latchOp_be (s : State) (i : Instr) : (s.latchOp i).be = hdrBe s.cfg := rfl
@[simp] theorem State.latchOp_sp (s : State) (i : Instr) : (s.latchOp i).sp = lowHalf s.srcport := rfl
@[simp] theorem State.latchOp_eos (s : State) (i : Instr) : (s.latchOp i).eos = false := rfl
@[simp] theorem State.latchOp_stage (s : State) (i : Instr) : (s.latchOp i).stage = .rounds := rfl
@[simp] theorem State.latchOp_round (s : State) (i : Instr) : (s.latchOp i).round = 0 := rfl
@[simp] theorem State.latchOp_rd (s : State) (i : Instr) : (s.latchOp i).rd = 0 := rfl
@[simp] theorem State.latchOp_wr (s : State) (i : Instr) : (s.latchOp i).wr = 0 := rfl
@[simp] theorem State.latchOp_hold (s : State) (i : Instr) : (s.latchOp i).hold = .dropped := rfl
@[simp] theorem State.latchOp_turns (s : State) (i : Instr) : (s.latchOp i).turns = s.turns := rfl
@[simp] theorem State.latchOp_script (s : State) (i : Instr) : (s.latchOp i).script = s.script := rfl
@[simp] theorem State.latchOp_trace (s : State) (i : Instr) : (s.latchOp i).trace = s.trace := rfl

/-! ### `State.complete` -/

@[simp] theorem State.complete_params (s : State) : s.complete.params = s.params := rfl
@[simp] theorem State.complete_status (s : State) : s.complete.status = statusCompleted s.status := rfl
@[simp] theorem State.complete_cfg (s : State) : s.complete.cfg = s.cfg := rfl
@[simp] theorem State.complete_srcport (s : State) : s.complete.srcport = s.srcport := rfl
@[simp] theorem State.complete_arg0 (s : State) : s.complete.arg0 = s.arg0 := rfl
@[simp] theorem State.complete_arg1 (s : State) : s.complete.arg1 = s.arg1 := rfl
@[simp] theorem State.complete_result (s : State) : s.complete.result = s.result := rfl
@[simp] theorem State.complete_inCount (s : State) : s.complete.inCount = s.inCount := rfl
@[simp] theorem State.complete_outCount (s : State) : s.complete.outCount = s.outCount := rfl
@[simp] theorem State.complete_inQ (s : State) : s.complete.inQ = s.inQ := rfl
@[simp] theorem State.complete_outQ (s : State) : s.complete.outQ = s.outQ := rfl
@[simp] theorem State.complete_buf (s : State) : s.complete.buf = s.buf := rfl
@[simp] theorem State.complete_phase (s : State) : s.complete.phase = .idle := rfl
@[simp] theorem State.complete_op (s : State) : s.complete.op = s.op := rfl
@[simp] theorem State.complete_a0 (s : State) : s.complete.a0 = s.a0 := rfl
@[simp] theorem State.complete_a1 (s : State) : s.complete.a1 = s.a1 := rfl
@[simp] theorem State.complete_be (s : State) : s.complete.be = s.be := rfl
@[simp] theorem State.complete_sp (s : State) : s.complete.sp = s.sp := rfl
@[simp] theorem State.complete_eos (s : State) : s.complete.eos = s.eos := rfl
@[simp] theorem State.complete_stage (s : State) : s.complete.stage = s.stage := rfl
@[simp] theorem State.complete_round (s : State) : s.complete.round = s.round := rfl
@[simp] theorem State.complete_rd (s : State) : s.complete.rd = s.rd := rfl
@[simp] theorem State.complete_wr (s : State) : s.complete.wr = s.wr := rfl
@[simp] theorem State.complete_hold (s : State) : s.complete.hold = s.hold := rfl
@[simp] theorem State.complete_turns (s : State) : s.complete.turns = s.turns := rfl
@[simp] theorem State.complete_script (s : State) : s.complete.script = s.script := rfl
@[simp] theorem State.complete_trace (s : State) : s.complete.trace = s.trace := rfl

/-! ### `State.raiseErrArg` -/

@[simp] theorem State.raiseErrArg_params (s : State) : s.raiseErrArg.params = s.params := rfl
@[simp] theorem State.raiseErrArg_status (s : State) : s.raiseErrArg.status = statusCompleted (statusSetErrArg s.status) := rfl
@[simp] theorem State.raiseErrArg_cfg (s : State) : s.raiseErrArg.cfg = s.cfg := rfl
@[simp] theorem State.raiseErrArg_srcport (s : State) : s.raiseErrArg.srcport = s.srcport := rfl
@[simp] theorem State.raiseErrArg_arg0 (s : State) : s.raiseErrArg.arg0 = s.arg0 := rfl
@[simp] theorem State.raiseErrArg_arg1 (s : State) : s.raiseErrArg.arg1 = s.arg1 := rfl
@[simp] theorem State.raiseErrArg_result (s : State) : s.raiseErrArg.result = s.result := rfl
@[simp] theorem State.raiseErrArg_inCount (s : State) : s.raiseErrArg.inCount = s.inCount := rfl
@[simp] theorem State.raiseErrArg_outCount (s : State) : s.raiseErrArg.outCount = s.outCount := rfl
@[simp] theorem State.raiseErrArg_inQ (s : State) : s.raiseErrArg.inQ = s.inQ := rfl
@[simp] theorem State.raiseErrArg_outQ (s : State) : s.raiseErrArg.outQ = s.outQ := rfl
@[simp] theorem State.raiseErrArg_buf (s : State) : s.raiseErrArg.buf = s.buf := rfl
@[simp] theorem State.raiseErrArg_phase (s : State) : s.raiseErrArg.phase = .idle := rfl
@[simp] theorem State.raiseErrArg_op (s : State) : s.raiseErrArg.op = s.op := rfl
@[simp] theorem State.raiseErrArg_a0 (s : State) : s.raiseErrArg.a0 = s.a0 := rfl
@[simp] theorem State.raiseErrArg_a1 (s : State) : s.raiseErrArg.a1 = s.a1 := rfl
@[simp] theorem State.raiseErrArg_be (s : State) : s.raiseErrArg.be = s.be := rfl
@[simp] theorem State.raiseErrArg_sp (s : State) : s.raiseErrArg.sp = s.sp := rfl
@[simp] theorem State.raiseErrArg_eos (s : State) : s.raiseErrArg.eos = s.eos := rfl
@[simp] theorem State.raiseErrArg_stage (s : State) : s.raiseErrArg.stage = s.stage := rfl
@[simp] theorem State.raiseErrArg_round (s : State) : s.raiseErrArg.round = s.round := rfl
@[simp] theorem State.raiseErrArg_rd (s : State) : s.raiseErrArg.rd = s.rd := rfl
@[simp] theorem State.raiseErrArg_wr (s : State) : s.raiseErrArg.wr = s.wr := rfl
@[simp] theorem State.raiseErrArg_hold (s : State) : s.raiseErrArg.hold = s.hold := rfl
@[simp] theorem State.raiseErrArg_turns (s : State) : s.raiseErrArg.turns = s.turns := rfl
@[simp] theorem State.raiseErrArg_script (s : State) : s.raiseErrArg.script = s.script := rfl
@[simp] theorem State.raiseErrArg_trace (s : State) : s.raiseErrArg.trace = s.trace := rfl

/-! ### `State.raiseErrOpc` -/

@[simp] theorem State.raiseErrOpc_params (s : State) : s.raiseErrOpc.params = s.params := rfl
@[simp] theorem State.raiseErrOpc_status (s : State) : s.raiseErrOpc.status = statusCompleted (statusSetErrOpc s.status) := rfl
@[simp] theorem State.raiseErrOpc_cfg (s : State) : s.raiseErrOpc.cfg = s.cfg := rfl
@[simp] theorem State.raiseErrOpc_srcport (s : State) : s.raiseErrOpc.srcport = s.srcport := rfl
@[simp] theorem State.raiseErrOpc_arg0 (s : State) : s.raiseErrOpc.arg0 = s.arg0 := rfl
@[simp] theorem State.raiseErrOpc_arg1 (s : State) : s.raiseErrOpc.arg1 = s.arg1 := rfl
@[simp] theorem State.raiseErrOpc_result (s : State) : s.raiseErrOpc.result = s.result := rfl
@[simp] theorem State.raiseErrOpc_inCount (s : State) : s.raiseErrOpc.inCount = s.inCount := rfl
@[simp] theorem State.raiseErrOpc_outCount (s : State) : s.raiseErrOpc.outCount = s.outCount := rfl
@[simp] theorem State.raiseErrOpc_inQ (s : State) : s.raiseErrOpc.inQ = s.inQ := rfl
@[simp] theorem State.raiseErrOpc_outQ (s : State) : s.raiseErrOpc.outQ = s.outQ := rfl
@[simp] theorem State.raiseErrOpc_buf (s : State) : s.raiseErrOpc.buf = s.buf := rfl
@[simp] theorem State.raiseErrOpc_phase (s : State) : s.raiseErrOpc.phase = .idle := rfl
@[simp] theorem State.raiseErrOpc_op (s : State) : s.raiseErrOpc.op = s.op := rfl
@[simp] theorem State.raiseErrOpc_a0 (s : State) : s.raiseErrOpc.a0 = s.a0 := rfl
@[simp] theorem State.raiseErrOpc_a1 (s : State) : s.raiseErrOpc.a1 = s.a1 := rfl
@[simp] theorem State.raiseErrOpc_be (s : State) : s.raiseErrOpc.be = s.be := rfl
@[simp] theorem State.raiseErrOpc_sp (s : State) : s.raiseErrOpc.sp = s.sp := rfl
@[simp] theorem State.raiseErrOpc_eos (s : State) : s.raiseErrOpc.eos = s.eos := rfl
@[simp] theorem State.raiseErrOpc_stage (s : State) : s.raiseErrOpc.stage = s.stage := rfl
@[simp] theorem State.raiseErrOpc_round (s : State) : s.raiseErrOpc.round = s.round := rfl
@[simp] theorem State.raiseErrOpc_rd (s : State) : s.raiseErrOpc.rd = s.rd := rfl
@[simp] theorem State.raiseErrOpc_wr (s : State) : s.raiseErrOpc.wr = s.wr := rfl
@[simp] theorem State.raiseErrOpc_hold (s : State) : s.raiseErrOpc.hold = s.hold := rfl
@[simp] theorem State.raiseErrOpc_turns (s : State) : s.raiseErrOpc.turns = s.turns := rfl
@[simp] theorem State.raiseErrOpc_script (s : State) : s.raiseErrOpc.script = s.script := rfl
@[simp] theorem State.raiseErrOpc_trace (s : State) : s.raiseErrOpc.trace = s.trace := rfl

/-! ### `State.record` -/

@[simp] theorem State.record_params (s : State) (t : TraceItem) : (s.record t).params = s.params := rfl
@[simp] theorem State.record_status (s : State) (t : TraceItem) : (s.record t).status = s.status := rfl
@[simp] theorem State.record_cfg (s : State) (t : TraceItem) : (s.record t).cfg = s.cfg := rfl
@[simp] theorem State.record_srcport (s : State) (t : TraceItem) : (s.record t).srcport = s.srcport := rfl
@[simp] theorem State.record_arg0 (s : State) (t : TraceItem) : (s.record t).arg0 = s.arg0 := rfl
@[simp] theorem State.record_arg1 (s : State) (t : TraceItem) : (s.record t).arg1 = s.arg1 := rfl
@[simp] theorem State.record_result (s : State) (t : TraceItem) : (s.record t).result = s.result := rfl
@[simp] theorem State.record_inCount (s : State) (t : TraceItem) : (s.record t).inCount = s.inCount := rfl
@[simp] theorem State.record_outCount (s : State) (t : TraceItem) : (s.record t).outCount = s.outCount := rfl
@[simp] theorem State.record_inQ (s : State) (t : TraceItem) : (s.record t).inQ = s.inQ := rfl
@[simp] theorem State.record_outQ (s : State) (t : TraceItem) : (s.record t).outQ = s.outQ := rfl
@[simp] theorem State.record_buf (s : State) (t : TraceItem) : (s.record t).buf = s.buf := rfl
@[simp] theorem State.record_phase (s : State) (t : TraceItem) : (s.record t).phase = s.phase := rfl
@[simp] theorem State.record_op (s : State) (t : TraceItem) : (s.record t).op = s.op := rfl
@[simp] theorem State.record_a0 (s : State) (t : TraceItem) : (s.record t).a0 = s.a0 := rfl
@[simp] theorem State.record_a1 (s : State) (t : TraceItem) : (s.record t).a1 = s.a1 := rfl
@[simp] theorem State.record_be (s : State) (t : TraceItem) : (s.record t).be = s.be := rfl
@[simp] theorem State.record_sp (s : State) (t : TraceItem) : (s.record t).sp = s.sp := rfl
@[simp] theorem State.record_eos (s : State) (t : TraceItem) : (s.record t).eos = s.eos := rfl
@[simp] theorem State.record_stage (s : State) (t : TraceItem) : (s.record t).stage = s.stage := rfl
@[simp] theorem State.record_round (s : State) (t : TraceItem) : (s.record t).round = s.round := rfl
@[simp] theorem State.record_rd (s : State) (t : TraceItem) : (s.record t).rd = s.rd := rfl
@[simp] theorem State.record_wr (s : State) (t : TraceItem) : (s.record t).wr = s.wr := rfl
@[simp] theorem State.record_hold (s : State) (t : TraceItem) : (s.record t).hold = s.hold := rfl
@[simp] theorem State.record_turns (s : State) (t : TraceItem) : (s.record t).turns = s.turns := rfl
@[simp] theorem State.record_script (s : State) (t : TraceItem) : (s.record t).script = s.script := rfl
@[simp] theorem State.record_trace (s : State) (t : TraceItem) : (s.record t).trace = s.trace ++ [t] := rfl

/-! ### `State.drain` -/

@[simp] theorem State.drain_params (s : State) : s.drain.params = s.params := rfl
@[simp] theorem State.drain_status (s : State) : s.drain.status = s.status := rfl
@[simp] theorem State.drain_cfg (s : State) : s.drain.cfg = s.cfg := rfl
@[simp] theorem State.drain_srcport (s : State) : s.drain.srcport = s.srcport := rfl
@[simp] theorem State.drain_arg0 (s : State) : s.drain.arg0 = s.arg0 := rfl
@[simp] theorem State.drain_arg1 (s : State) : s.drain.arg1 = s.arg1 := rfl
@[simp] theorem State.drain_result (s : State) : s.drain.result = s.result := rfl
@[simp] theorem State.drain_inCount (s : State) : s.drain.inCount = s.inCount := rfl
@[simp] theorem State.drain_outCount (s : State) : s.drain.outCount = s.outCount := rfl
@[simp] theorem State.drain_inQ (s : State) : s.drain.inQ = s.inQ := rfl
@[simp] theorem State.drain_outQ (s : State) : s.drain.outQ = [] := rfl
@[simp] theorem State.drain_buf (s : State) : s.drain.buf = s.buf := rfl
@[simp] theorem State.drain_phase (s : State) : s.drain.phase = s.phase := rfl
@[simp] theorem State.drain_op (s : State) : s.drain.op = s.op := rfl
@[simp] theorem State.drain_a0 (s : State) : s.drain.a0 = s.a0 := rfl
@[simp] theorem State.drain_a1 (s : State) : s.drain.a1 = s.a1 := rfl
@[simp] theorem State.drain_be (s : State) : s.drain.be = s.be := rfl
@[simp] theorem State.drain_sp (s : State) : s.drain.sp = s.sp := rfl
@[simp] theorem State.drain_eos (s : State) : s.drain.eos = s.eos := rfl
@[simp] theorem State.drain_stage (s : State) : s.drain.stage = s.stage := rfl
@[simp] theorem State.drain_round (s : State) : s.drain.round = s.round := rfl
@[simp] theorem State.drain_rd (s : State) : s.drain.rd = s.rd := rfl
@[simp] theorem State.drain_wr (s : State) : s.drain.wr = s.wr := rfl
@[simp] theorem State.drain_hold (s : State) : s.drain.hold = s.hold := rfl
@[simp] theorem State.drain_turns (s : State) : s.drain.turns = s.turns := rfl
@[simp] theorem State.drain_script (s : State) : s.drain.script = s.script := rfl
@[simp] theorem State.drain_trace (s : State) : s.drain.trace = s.trace ++ s.outQ.map .byte := rfl

/-! ### `State.putByte` -/

@[simp] theorem State.putByte_params (s : State) (v : Byte) : (s.putByte v).params = s.params := rfl
@[simp] theorem State.putByte_status (s : State) (v : Byte) : (s.putByte v).status = s.status := rfl
@[simp] theorem State.putByte_cfg (s : State) (v : Byte) : (s.putByte v).cfg = s.cfg := rfl
@[simp] theorem State.putByte_srcport (s : State) (v : Byte) : (s.putByte v).srcport = s.srcport := rfl
@[simp] theorem State.putByte_arg0 (s : State) (v : Byte) : (s.putByte v).arg0 = s.arg0 := rfl
@[simp] theorem State.putByte_arg1 (s : State) (v : Byte) : (s.putByte v).arg1 = s.arg1 := rfl
@[simp] theorem State.putByte_result (s : State) (v : Byte) : (s.putByte v).result = s.result := rfl
@[simp] theorem State.putByte_inCount (s : State) (v : Byte) : (s.putByte v).inCount = s.inCount := rfl
@[simp] theorem State.putByte_outCount (s : State) (v : Byte) : (s.putByte v).outCount = s.outCount := rfl
@[simp] theorem State.putByte_inQ (s : State) (v : Byte) : (s.putByte v).inQ = s.inQ := rfl
@[simp] theorem State.putByte_outQ (s : State) (v : Byte) : (s.putByte v).outQ = s.outQ := rfl
@[simp] theorem State.putByte_buf (s : State) (v : Byte) : (s.putByte v).buf = s.command.store s v := rfl
@[simp] theorem State.putByte_phase (s : State) (v : Byte) : (s.putByte v).phase = s.phase := rfl
@[simp] theorem State.putByte_op (s : State) (v : Byte) : (s.putByte v).op = s.op := rfl
@[simp] theorem State.putByte_a0 (s : State) (v : Byte) : (s.putByte v).a0 = s.a0 := rfl
@[simp] theorem State.putByte_a1 (s : State) (v : Byte) : (s.putByte v).a1 = s.a1 := rfl
@[simp] theorem State.putByte_be (s : State) (v : Byte) : (s.putByte v).be = s.be := rfl
@[simp] theorem State.putByte_sp (s : State) (v : Byte) : (s.putByte v).sp = s.sp := rfl
@[simp] theorem State.putByte_eos (s : State) (v : Byte) : (s.putByte v).eos = s.eos := rfl
@[simp] theorem State.putByte_stage (s : State) (v : Byte) : (s.putByte v).stage = s.stage := rfl
@[simp] theorem State.putByte_round (s : State) (v : Byte) : (s.putByte v).round = s.round := rfl
@[simp] theorem State.putByte_rd (s : State) (v : Byte) : (s.putByte v).rd = s.rd + 1 := rfl
@[simp] theorem State.putByte_wr (s : State) (v : Byte) : (s.putByte v).wr = s.wr := rfl
@[simp] theorem State.putByte_hold (s : State) (v : Byte) : (s.putByte v).hold = s.command.holdNext s := rfl
@[simp] theorem State.putByte_turns (s : State) (v : Byte) : (s.putByte v).turns = s.turns := rfl
@[simp] theorem State.putByte_script (s : State) (v : Byte) : (s.putByte v).script = s.script := rfl
@[simp] theorem State.putByte_trace (s : State) (v : Byte) : (s.putByte v).trace = s.trace := rfl

/-! ### `State.stop` -/

@[simp] theorem State.stop_params (s : State) : s.stop.params = s.params := rfl
@[simp] theorem State.stop_status (s : State) : s.stop.status = s.status := rfl
@[simp] theorem State.stop_cfg (s : State) : s.stop.cfg = s.cfg := rfl
@[simp] theorem State.stop_srcport (s : State) : s.stop.srcport = s.srcport := rfl
@[simp] theorem State.stop_arg0 (s : State) : s.stop.arg0 = s.arg0 := rfl
@[simp] theorem State.stop_arg1 (s : State) : s.stop.arg1 = s.arg1 := rfl
@[simp] theorem State.stop_result (s : State) : s.stop.result = s.result := rfl
@[simp] theorem State.stop_inCount (s : State) : s.stop.inCount = s.inCount := rfl
@[simp] theorem State.stop_outCount (s : State) : s.stop.outCount = s.outCount := rfl
@[simp] theorem State.stop_inQ (s : State) : s.stop.inQ = s.inQ := rfl
@[simp] theorem State.stop_outQ (s : State) : s.stop.outQ = s.outQ := rfl
@[simp] theorem State.stop_buf (s : State) : s.stop.buf = s.buf := rfl
@[simp] theorem State.stop_phase (s : State) : s.stop.phase = s.phase := rfl
@[simp] theorem State.stop_op (s : State) : s.stop.op = s.op := rfl
@[simp] theorem State.stop_a0 (s : State) : s.stop.a0 = s.a0 := rfl
@[simp] theorem State.stop_a1 (s : State) : s.stop.a1 = s.a1 := rfl
@[simp] theorem State.stop_be (s : State) : s.stop.be = s.be := rfl
@[simp] theorem State.stop_sp (s : State) : s.stop.sp = s.sp := rfl
@[simp] theorem State.stop_eos (s : State) : s.stop.eos = s.eos := rfl
@[simp] theorem State.stop_stage (s : State) : s.stop.stage = .result := rfl
@[simp] theorem State.stop_round (s : State) : s.stop.round = s.round := rfl
@[simp] theorem State.stop_rd (s : State) : s.stop.rd = s.rd := rfl
@[simp] theorem State.stop_wr (s : State) : s.stop.wr = s.wr := rfl
@[simp] theorem State.stop_hold (s : State) : s.stop.hold = s.hold := rfl
@[simp] theorem State.stop_turns (s : State) : s.stop.turns = s.turns := rfl
@[simp] theorem State.stop_script (s : State) : s.stop.script = s.script := rfl
@[simp] theorem State.stop_trace (s : State) : s.stop.trace = s.trace := rfl

/-! ### `State.endRound` -/

@[simp] theorem State.endRound_params (s : State) : s.endRound.params = s.params := rfl
@[simp] theorem State.endRound_status (s : State) : s.endRound.status = s.status := rfl
@[simp] theorem State.endRound_cfg (s : State) : s.endRound.cfg = s.cfg := rfl
@[simp] theorem State.endRound_srcport (s : State) : s.endRound.srcport = s.srcport := rfl
@[simp] theorem State.endRound_arg0 (s : State) : s.endRound.arg0 = s.arg0 := rfl
@[simp] theorem State.endRound_arg1 (s : State) : s.endRound.arg1 = s.arg1 := rfl
@[simp] theorem State.endRound_result (s : State) : s.endRound.result = s.result := rfl
@[simp] theorem State.endRound_inCount (s : State) : s.endRound.inCount = s.inCount := rfl
@[simp] theorem State.endRound_outCount (s : State) : s.endRound.outCount = s.outCount := rfl
@[simp] theorem State.endRound_inQ (s : State) : s.endRound.inQ = s.inQ := rfl
@[simp] theorem State.endRound_outQ (s : State) : s.endRound.outQ = s.outQ := rfl
@[simp] theorem State.endRound_buf (s : State) : s.endRound.buf = s.buf := rfl
@[simp] theorem State.endRound_phase (s : State) : s.endRound.phase = s.phase := rfl
@[simp] theorem State.endRound_op (s : State) : s.endRound.op = s.op := rfl
@[simp] theorem State.endRound_a0 (s : State) : s.endRound.a0 = s.a0 := rfl
@[simp] theorem State.endRound_a1 (s : State) : s.endRound.a1 = s.a1 := rfl
@[simp] theorem State.endRound_be (s : State) : s.endRound.be = s.be := rfl
@[simp] theorem State.endRound_sp (s : State) : s.endRound.sp = s.sp := rfl
@[simp] theorem State.endRound_eos (s : State) : s.endRound.eos = s.eos := rfl
@[simp] theorem State.endRound_stage (s : State) : s.endRound.stage = if s.uncounted && s.eos then .result else .rounds := rfl
@[simp] theorem State.endRound_round (s : State) : s.endRound.round = s.round + 1 := rfl
@[simp] theorem State.endRound_rd (s : State) : s.endRound.rd = 0 := rfl
@[simp] theorem State.endRound_wr (s : State) : s.endRound.wr = 0 := rfl
@[simp] theorem State.endRound_hold (s : State) : s.endRound.hold = s.hold := rfl
@[simp] theorem State.endRound_turns (s : State) : s.endRound.turns = s.turns := rfl
@[simp] theorem State.endRound_script (s : State) : s.endRound.script = s.script := rfl
@[simp] theorem State.endRound_trace (s : State) : s.endRound.trace = s.trace := rfl

/-! ### `State.writeResult` -/

@[simp] theorem State.writeResult_params (s : State) : s.writeResult.params = s.params := rfl
@[simp] theorem State.writeResult_status (s : State) : s.writeResult.status = s.status := rfl
@[simp] theorem State.writeResult_cfg (s : State) : s.writeResult.cfg = s.cfg := rfl
@[simp] theorem State.writeResult_srcport (s : State) : s.writeResult.srcport = s.srcport := rfl
@[simp] theorem State.writeResult_arg0 (s : State) : s.writeResult.arg0 = s.arg0 := rfl
@[simp] theorem State.writeResult_arg1 (s : State) : s.writeResult.arg1 = s.arg1 := rfl
@[simp] theorem State.writeResult_result (s : State) : s.writeResult.result = (s.command.result s).getD s.result := rfl
@[simp] theorem State.writeResult_inCount (s : State) : s.writeResult.inCount = s.inCount := rfl
@[simp] theorem State.writeResult_outCount (s : State) : s.writeResult.outCount = s.outCount := rfl
@[simp] theorem State.writeResult_inQ (s : State) : s.writeResult.inQ = s.inQ := rfl
@[simp] theorem State.writeResult_outQ (s : State) : s.writeResult.outQ = s.outQ := rfl
@[simp] theorem State.writeResult_buf (s : State) : s.writeResult.buf = s.buf := rfl
@[simp] theorem State.writeResult_phase (s : State) : s.writeResult.phase = s.phase := rfl
@[simp] theorem State.writeResult_op (s : State) : s.writeResult.op = s.op := rfl
@[simp] theorem State.writeResult_a0 (s : State) : s.writeResult.a0 = s.a0 := rfl
@[simp] theorem State.writeResult_a1 (s : State) : s.writeResult.a1 = s.a1 := rfl
@[simp] theorem State.writeResult_be (s : State) : s.writeResult.be = s.be := rfl
@[simp] theorem State.writeResult_sp (s : State) : s.writeResult.sp = s.sp := rfl
@[simp] theorem State.writeResult_eos (s : State) : s.writeResult.eos = s.eos := rfl
@[simp] theorem State.writeResult_stage (s : State) : s.writeResult.stage = .finish := rfl
@[simp] theorem State.writeResult_round (s : State) : s.writeResult.round = s.round := rfl
@[simp] theorem State.writeResult_rd (s : State) : s.writeResult.rd = s.rd := rfl
@[simp] theorem State.writeResult_wr (s : State) : s.writeResult.wr = s.wr := rfl
@[simp] theorem State.writeResult_hold (s : State) : s.writeResult.hold = s.hold := rfl
@[simp] theorem State.writeResult_turns (s : State) : s.writeResult.turns = s.turns := rfl
@[simp] theorem State.writeResult_script (s : State) : s.writeResult.script = s.script := rfl
@[simp] theorem State.writeResult_trace (s : State) : s.writeResult.trace = s.trace := rfl

/-! ### `State.powerUp` and `State.resetBlock` (10_state R38, 70_reset R220) -/

@[simp] theorem State.powerUp_params (p : Params) : (State.powerUp p).params = p := rfl
@[simp] theorem State.powerUp_status (p : Params) : (State.powerUp p).status = 0#32 := rfl
@[simp] theorem State.powerUp_cfg (p : Params) : (State.powerUp p).cfg = 1#32 := rfl
@[simp] theorem State.powerUp_srcport (p : Params) : (State.powerUp p).srcport = p.srcPortReset.setWidth 32 := rfl
@[simp] theorem State.powerUp_phase (p : Params) : (State.powerUp p).phase = .idle := rfl
@[simp] theorem State.powerUp_inQ (p : Params) : (State.powerUp p).inQ = [] := rfl
@[simp] theorem State.powerUp_outQ (p : Params) : (State.powerUp p).outQ = [] := rfl
@[simp] theorem State.powerUp_eos (p : Params) : (State.powerUp p).eos = false := rfl
@[simp] theorem State.powerUp_arg0 (p : Params) : (State.powerUp p).arg0 = 0#32 := rfl
@[simp] theorem State.powerUp_arg1 (p : Params) : (State.powerUp p).arg1 = 0#32 := rfl
@[simp] theorem State.powerUp_result (p : Params) : (State.powerUp p).result = 0#32 := rfl
@[simp] theorem State.powerUp_inCount (p : Params) : (State.powerUp p).inCount = 0#32 := rfl
@[simp] theorem State.powerUp_outCount (p : Params) : (State.powerUp p).outCount = 0#32 := rfl
@[simp] theorem State.powerUp_buf (p : Params) : (State.powerUp p).buf = [] := rfl

@[simp] theorem State.resetBlock_params (s : State) : s.resetBlock.params = s.params := rfl
@[simp] theorem State.resetBlock_status (s : State) : s.resetBlock.status = 0#32 := rfl
@[simp] theorem State.resetBlock_cfg (s : State) : s.resetBlock.cfg = 1#32 := rfl
@[simp] theorem State.resetBlock_srcport (s : State) : s.resetBlock.srcport = s.params.srcPortReset.setWidth 32 := rfl
@[simp] theorem State.resetBlock_phase (s : State) : s.resetBlock.phase = .idle := rfl
@[simp] theorem State.resetBlock_inQ (s : State) : s.resetBlock.inQ = [] := rfl
@[simp] theorem State.resetBlock_outQ (s : State) : s.resetBlock.outQ = [] := rfl
@[simp] theorem State.resetBlock_eos (s : State) : s.resetBlock.eos = false := rfl
@[simp] theorem State.resetBlock_arg0 (s : State) : s.resetBlock.arg0 = 0#32 := rfl
@[simp] theorem State.resetBlock_arg1 (s : State) : s.resetBlock.arg1 = 0#32 := rfl
@[simp] theorem State.resetBlock_result (s : State) : s.resetBlock.result = 0#32 := rfl
@[simp] theorem State.resetBlock_inCount (s : State) : s.resetBlock.inCount = 0#32 := rfl
@[simp] theorem State.resetBlock_outCount (s : State) : s.resetBlock.outCount = 0#32 := rfl
@[simp] theorem State.resetBlock_buf (s : State) : s.resetBlock.buf = [] := rfl
@[simp] theorem State.resetBlock_turns (s : State) : s.resetBlock.turns = s.turns := rfl
@[simp] theorem State.resetBlock_script (s : State) : s.resetBlock.script = s.script := rfl
@[simp] theorem State.resetBlock_trace (s : State) : s.resetBlock.trace = s.trace := rfl

end Sys2Proof.Machine
end

