-- ==== Sys2Proof/Laws/Sequencer.lean ====
section
/-! SUPPORT. What one turn of the sequencer can do, and what `runTurns` and `advance` make of it. -/

namespace Sys2Proof.Machine

/-! ### The stream primitives -/

/-- All InRead can do (20_memory R53). -/
theorem State.inRead_cases (s : State) :
    (s.eos = true ∧ s.inRead = some (.eos, s)) ∨
    (s.eos = false ∧ s.inQ = [] ∧ s.inRead = none) ∨
    (∃ v q, s.eos = false ∧ s.inQ = .byte v :: q ∧
      s.inRead = some (.byte v, { s with inQ := q, inCount := s.inCount + 1#32 })) ∨
    (∃ q, s.eos = false ∧ s.inQ = .eos :: q ∧ s.inRead = some (.eos, { s with inQ := q, eos := true })) := by
  unfold State.inRead
  cases he : s.eos
  · cases hq : s.inQ with
    | nil => simp
    | cons t q => cases t <;> simp
  · simp

/-- All OutWrite can do (20_memory R56). -/
theorem State.outWrite_cases (s : State) (v : Byte) :
    (s.outQ.length < s.params.outDepth ∧
      s.outWrite v = some { s with outQ := s.outQ ++ [v], outCount := s.outCount + 1#32 }) ∨
    (s.params.outDepth ≤ s.outQ.length ∧ s.outWrite v = none) := by
  unfold State.outWrite
  split
  · exact .inl ⟨‹_›, rfl⟩
  · exact .inr ⟨by omega, rfl⟩

/-! ### One turn -/

theorem State.turn_idle {s : State} (h : s.phase = .idle) (t : Turn) : s.turn t = s := by
  simp [State.turn, h]

theorem State.turn_rounds {s : State} (h : s.phase = .running) (hs : s.stage = .rounds) (t : Turn) :
    s.turn t = s.roundTurn t := by
  simp [State.turn, h, hs]

theorem State.turn_result {s : State} (h : s.phase = .running) (hs : s.stage = .result) (t : Turn) :
    s.turn t = s.writeResult := by
  simp [State.turn, h, hs]

theorem State.turn_finish {s : State} (h : s.phase = .running) (hs : s.stage = .finish) (t : Turn) :
    s.turn t = s.complete := by
  simp [State.turn, h, hs]

/-- What a turn within the rounds does, by what the round allows. -/
theorem State.roundTurn_cases (s : State) (t : Turn) :
    (s.countReached = true ∧ s.roundTurn t = s.stop) ∨
    (s.countReached = false ∧ s.roundDone = true ∧ s.roundTurn t = s.endRound) ∨
    (s.countReached = false ∧ s.roundDone = false ∧ s.canRead = true ∧ s.roundTurn t = s.readTurn) ∨
    (s.countReached = false ∧ s.roundDone = false ∧ s.canWrite = true ∧ s.roundTurn t = s.writeTurn) ∨
    (s.countReached = false ∧ s.roundDone = false ∧ s.canRead = false ∧ s.canWrite = false ∧
      s.roundTurn t = s) := by
  unfold State.roundTurn
  cases hc : s.countReached <;> cases hd : s.roundDone <;> cases hr : s.canRead <;> cases hw : s.canWrite <;>
    cases t <;> simp

/-- The effect of one turn: everything the sequencer can do. -/
inductive TurnEffect (s : State) : State → Prop
  /-- IDLE, or a command that waits -/
  | still : TurnEffect s s
  | stop (hp : s.phase = .running) (hs : s.stage = .rounds) (hc : s.countReached = true) : TurnEffect s s.stop
  | endRound (hp : s.phase = .running) (hs : s.stage = .rounds) (hc : s.countReached = false)
      (hd : s.roundDone = true) : TurnEffect s s.endRound
  /-- end-of-stream where a round of an uncounted command would start -/
  | readStop (hp : s.phase = .running) (hs : s.stage = .rounds) (hc : s.countReached = false)
      (hd : s.roundDone = false) (hr : s.canRead = true) (s' : State) (hi : s.inRead = some (.eos, s'))
      (hu : s.uncounted = true) (h0 : s.rd = 0) : TurnEffect s s'.stop
  | read (hp : s.phase = .running) (hs : s.stage = .rounds) (hc : s.countReached = false)
      (hd : s.roundDone = false) (hr : s.canRead = true) (t : Token) (s' : State) (hi : s.inRead = some (t, s'))
      (hn : ¬(t = .eos ∧ s.uncounted = true ∧ s.rd = 0)) : TurnEffect s (s'.putByte (tokenByte t))
  | write (hp : s.phase = .running) (hs : s.stage = .rounds) (hc : s.countReached = false)
      (hd : s.roundDone = false) (hw : s.canWrite = true) (hroom : s.outQ.length < s.params.outDepth) :
      TurnEffect s { s with
        outQ := s.outQ ++ [s.command.outByte s s.wr]
        outCount := s.outCount + 1#32
        wr := s.wr + 1 }
  | writeResult (hp : s.phase = .running) (hs : s.stage = .result) : TurnEffect s s.writeResult
  | complete (hp : s.phase = .running) (hs : s.stage = .finish) : TurnEffect s s.complete

/-- A turn does one of these. -/
theorem State.turn_effect (s : State) (t : Turn) : TurnEffect s (s.turn t) := by
  cases hp : s.phase with
  | idle => rw [State.turn_idle hp]; exact .still
  | running =>
    cases hs : s.stage with
    | result => rw [State.turn_result hp hs]; exact .writeResult hp hs
    | finish => rw [State.turn_finish hp hs]; exact .complete hp hs
    | rounds =>
      rw [State.turn_rounds hp hs]
      rcases s.roundTurn_cases t with ⟨hc, h⟩ | ⟨hc, hd, h⟩ | ⟨hc, hd, hr, h⟩ | ⟨hc, hd, hw, h⟩ | ⟨-, -, -, -, h⟩ <;>
        rw [h]
      · exact .stop hp hs hc
      · exact .endRound hp hs hc hd
      · unfold State.readTurn
        split
        · exact .still
        · rename_i t' s' hi
          split
          · rename_i hn
            obtain ⟨rfl, hu, h0⟩ := hn
            exact .readStop hp hs hc hd hr s' hi hu h0
          · exact .read hp hs hc hd hr t' s' hi ‹_›
      · unfold State.writeTurn
        rcases s.outWrite_cases (s.command.outByte s s.wr) with ⟨hroom, hi⟩ | ⟨-, hi⟩ <;> rw [hi]
        · exact .write hp hs hc hd hw hroom
        · exact .still
      · exact .still

/-- What InRead leaves alone. -/
theorem State.inRead_eq {s s' : State} {t : Token} (h : s.inRead = some (t, s')) :
    ∃ q n e, s' = { s with inQ := q, inCount := n, eos := e } := by
  rcases s.inRead_cases with ⟨-, hi⟩ | ⟨-, -, hi⟩ | ⟨v, q, -, -, hi⟩ | ⟨q, -, -, hi⟩ <;> rw [hi] at h <;> cases h
  · exact ⟨s.inQ, s.inCount, s.eos, rfl⟩
  · exact ⟨_, _, _, rfl⟩
  · exact ⟨_, _, _, rfl⟩

/-! ### Fields no turn changes -/

/-- The fields the sequencer never writes: the parameters, the registers the host writes, the latched command
(10_state R36) and the host's side. -/
def State.fixed (s : State) := (s.params, s.cfg, s.srcport, s.arg0, s.arg1, s.op, s.a0, s.a1, s.be, s.sp, s.turns, s.script, s.trace)

/-- What the rule of a running command is a function of, beside the round in BUF (20_memory R62 item 4): the
parameters and the latched command (10_state R36). No host operation but reset changes them while RUNNING. -/
def State.operands (s : State) := (s.params, s.op, s.a0, s.a1, s.be, s.sp)

theorem State.operands_of_fixed {u k : State} (h : u.fixed = k.fixed) : u.operands = k.operands :=
  congrArg (fun x => (x.1, x.2.2.2.2.2.1, x.2.2.2.2.2.2.1, x.2.2.2.2.2.2.2.1, x.2.2.2.2.2.2.2.2.1,
    x.2.2.2.2.2.2.2.2.2.1)) h

/-- A turn keeps the fixed fields. -/
theorem State.turn_fixed (s : State) (t : Turn) : (s.turn t).fixed = s.fixed := by
  have h := s.turn_effect t
  generalize s.turn t = u at h ⊢
  cases h with
  | readStop _ _ _ _ _ s' hi _ _ => obtain ⟨q, n, e, rfl⟩ := State.inRead_eq hi; rfl
  | read _ _ _ _ _ t s' hi _ => obtain ⟨q, n, e, rfl⟩ := State.inRead_eq hi; rfl
  | _ => rfl

/-- A turn keeps the operands. -/
theorem State.turn_operands (s : State) (t : Turn) : (s.turn t).operands = s.operands :=
  State.operands_of_fixed (s.turn_fixed t)

/-! ### Many turns -/

@[simp] theorem State.runTurns_nil (s : State) : State.runTurns [] s = s := rfl

theorem State.runTurns_idle {s : State} (h : s.phase = .idle) (ts : List Turn) : State.runTurns ts s = s := by
  cases ts <;> simp [State.runTurns, h]

/-- A turn and then the others; an IDLE block takes none. -/
theorem State.runTurns_cons (t : Turn) (ts : List Turn) (s : State) :
    State.runTurns (t :: ts) s = State.runTurns ts (s.turn t) := by
  cases h : s.phase with
  | idle => rw [State.turn_idle h, State.runTurns_idle h, State.runTurns_idle h]
  | running => simp [State.runTurns, h]

theorem State.runTurns_append (ts us : List Turn) (s : State) :
    State.runTurns (ts ++ us) s = State.runTurns us (State.runTurns ts s) := by
  induction ts generalizing s with
  | nil => rfl
  | cons t ts ih => simp only [List.cons_append, State.runTurns_cons, ih]

/-- What every turn keeps, any number of turns keeps. -/
theorem State.runTurns_keeps {P : State → Prop} (hP : ∀ s t, P s → P (s.turn t)) (ts : List Turn) {s : State}
    (h : P s) : P (State.runTurns ts s) := by
  induction ts generalizing s with
  | nil => exact h
  | cons t ts ih => rw [State.runTurns_cons]; exact ih (hP s t h)

/-- A goal that every turn brings nearer, and that turns keep, is reached in as many turns as its distance. -/
theorem State.runTurns_reaches {P Q : State → Prop} (dist : State → Nat)
    (hstep : ∀ s t, P s → ¬Q s → P (s.turn t) ∧ dist (s.turn t) < dist s)
    (hQ : ∀ s t, Q s → Q (s.turn t)) (ts : List Turn) {s : State} (h : P s) (hd : dist s ≤ ts.length)
    (hend : ∀ s, P s → dist s = 0 → Q s) : Q (State.runTurns ts s) := by
  induction ts generalizing s with
  | nil => exact hend s h (Nat.le_zero.mp hd)
  | cons t ts ih =>
    rw [State.runTurns_cons]
    by_cases hq : Q s
    · exact State.runTurns_keeps hQ ts (hQ s t hq)
    · obtain ⟨h', hlt⟩ := hstep s t h hq
      exact ih h' (by simp only [List.length_cons] at hd; omega)

theorem State.runTurns_fixed (ts : List Turn) (s : State) : (State.runTurns ts s).fixed = s.fixed :=
  State.runTurns_keeps (P := fun u => u.fixed = s.fixed) (fun u t h => (u.turn_fixed t).trans h) ts rfl

@[simp] theorem State.turn_params (s : State) (t : Turn) : (s.turn t).params = s.params := congrArg (fun x => x.1) (s.turn_fixed t)
@[simp] theorem State.turn_cfg (s : State) (t : Turn) : (s.turn t).cfg = s.cfg := congrArg (fun x => x.2.1) (s.turn_fixed t)
@[simp] theorem State.turn_srcport (s : State) (t : Turn) : (s.turn t).srcport = s.srcport := congrArg (fun x => x.2.2.1) (s.turn_fixed t)
@[simp] theorem State.turn_arg0 (s : State) (t : Turn) : (s.turn t).arg0 = s.arg0 := congrArg (fun x => x.2.2.2.1) (s.turn_fixed t)
@[simp] theorem State.turn_arg1 (s : State) (t : Turn) : (s.turn t).arg1 = s.arg1 := congrArg (fun x => x.2.2.2.2.1) (s.turn_fixed t)
@[simp] theorem State.turn_op (s : State) (t : Turn) : (s.turn t).op = s.op := congrArg (fun x => x.2.2.2.2.2.1) (s.turn_fixed t)
@[simp] theorem State.turn_a0 (s : State) (t : Turn) : (s.turn t).a0 = s.a0 := congrArg (fun x => x.2.2.2.2.2.2.1) (s.turn_fixed t)
@[simp] theorem State.turn_a1 (s : State) (t : Turn) : (s.turn t).a1 = s.a1 := congrArg (fun x => x.2.2.2.2.2.2.2.1) (s.turn_fixed t)
@[simp] theorem State.turn_be (s : State) (t : Turn) : (s.turn t).be = s.be := congrArg (fun x => x.2.2.2.2.2.2.2.2.1) (s.turn_fixed t)
@[simp] theorem State.turn_sp (s : State) (t : Turn) : (s.turn t).sp = s.sp := congrArg (fun x => x.2.2.2.2.2.2.2.2.2.1) (s.turn_fixed t)
@[simp] theorem State.turn_turns (s : State) (t : Turn) : (s.turn t).turns = s.turns := congrArg (fun x => x.2.2.2.2.2.2.2.2.2.2.1) (s.turn_fixed t)
@[simp] theorem State.turn_script (s : State) (t : Turn) : (s.turn t).script = s.script := congrArg (fun x => x.2.2.2.2.2.2.2.2.2.2.2.1) (s.turn_fixed t)
@[simp] theorem State.turn_trace (s : State) (t : Turn) : (s.turn t).trace = s.trace := congrArg (fun x => x.2.2.2.2.2.2.2.2.2.2.2.2) (s.turn_fixed t)

@[simp] theorem State.runTurns_params (ts : List Turn) (s : State) : (State.runTurns ts s).params = s.params := congrArg (fun x => x.1) (State.runTurns_fixed ts s)
@[simp] theorem State.runTurns_cfg (ts : List Turn) (s : State) : (State.runTurns ts s).cfg = s.cfg := congrArg (fun x => x.2.1) (State.runTurns_fixed ts s)
@[simp] theorem State.runTurns_srcport (ts : List Turn) (s : State) : (State.runTurns ts s).srcport = s.srcport := congrArg (fun x => x.2.2.1) (State.runTurns_fixed ts s)
@[simp] theorem State.runTurns_arg0 (ts : List Turn) (s : State) : (State.runTurns ts s).arg0 = s.arg0 := congrArg (fun x => x.2.2.2.1) (State.runTurns_fixed ts s)
@[simp] theorem State.runTurns_arg1 (ts : List Turn) (s : State) : (State.runTurns ts s).arg1 = s.arg1 := congrArg (fun x => x.2.2.2.2.1) (State.runTurns_fixed ts s)
@[simp] theorem State.runTurns_op (ts : List Turn) (s : State) : (State.runTurns ts s).op = s.op := congrArg (fun x => x.2.2.2.2.2.1) (State.runTurns_fixed ts s)
@[simp] theorem State.runTurns_a0 (ts : List Turn) (s : State) : (State.runTurns ts s).a0 = s.a0 := congrArg (fun x => x.2.2.2.2.2.2.1) (State.runTurns_fixed ts s)
@[simp] theorem State.runTurns_a1 (ts : List Turn) (s : State) : (State.runTurns ts s).a1 = s.a1 := congrArg (fun x => x.2.2.2.2.2.2.2.1) (State.runTurns_fixed ts s)
@[simp] theorem State.runTurns_be (ts : List Turn) (s : State) : (State.runTurns ts s).be = s.be := congrArg (fun x => x.2.2.2.2.2.2.2.2.1) (State.runTurns_fixed ts s)
@[simp] theorem State.runTurns_sp (ts : List Turn) (s : State) : (State.runTurns ts s).sp = s.sp := congrArg (fun x => x.2.2.2.2.2.2.2.2.2.1) (State.runTurns_fixed ts s)
@[simp] theorem State.runTurns_turns (ts : List Turn) (s : State) : (State.runTurns ts s).turns = s.turns := congrArg (fun x => x.2.2.2.2.2.2.2.2.2.2.1) (State.runTurns_fixed ts s)
@[simp] theorem State.runTurns_script (ts : List Turn) (s : State) : (State.runTurns ts s).script = s.script := congrArg (fun x => x.2.2.2.2.2.2.2.2.2.2.2.1) (State.runTurns_fixed ts s)
@[simp] theorem State.runTurns_trace (ts : List Turn) (s : State) : (State.runTurns ts s).trace = s.trace := congrArg (fun x => x.2.2.2.2.2.2.2.2.2.2.2.2) (State.runTurns_fixed ts s)

/-! ### `advance` -/

/-- All `advance` can answer. -/
theorem State.advance_eq (s : State) :
    (s.bufFits = true ∧ s.advance = .next { State.runTurns s.turns s with turns := [] }) ∨
    (s.bufFits = false ∧ s.advance = .fault .bufRange) := by
  unfold State.advance
  cases s.bufFits <;> simp

theorem State.advance_of_fits {s : State} (h : s.bufFits = true) :
    s.advance = .next { State.runTurns s.turns s with turns := [] } := by
  simp [State.advance, h]

theorem State.advance_next {s u : State} (h : s.advance = .next u) :
    s.bufFits = true ∧ u = { State.runTurns s.turns s with turns := [] } := by
  rcases s.advance_eq with ⟨hf, ha⟩ | ⟨-, ha⟩ <;> rw [ha] at h <;> cases h
  exact ⟨hf, rfl⟩

theorem State.bufFits_idle {s : State} (h : s.phase = .idle) : s.bufFits = true := by
  simp [State.bufFits, h]

theorem State.bufFits_running {s : State} (h : s.phase = .running) :
    s.bufFits = true ↔ s.command.bufUse s ≤ s.params.bufBytes := by
  simp [State.bufFits, h]

/-- An IDLE block goes nowhere. -/
theorem State.advance_idle {s : State} (h : s.phase = .idle) : s.advance = .next { s with turns := [] } := by
  rw [State.advance_of_fits (State.bufFits_idle h), State.runTurns_idle h]

/-! ### Issue and acceptance -/

theorem State.issue_running {s : State} (h : s.phase = .running) (i : Instr) : s.issue i = s.advance := by
  simp [State.issue, h]

theorem State.issue_idle {s : State} (h : s.phase = .idle) (i : Instr) : s.issue i = (s.accept i).advance := by
  simp [State.issue, h]

/-- All acceptance can do (30_encoding R72). -/
theorem State.accept_eq (s : State) (i : Instr) :
    ((commandOf i).argOk (s.latchOp i) = true ∧ s.accept i = s.latchOp i) ∨
    ((commandOf i).argOk (s.latchOp i) = false ∧ s.accept i = (s.latchOp i).raiseErrArg) := by
  unfold State.accept
  cases (commandOf i).argOk (s.latchOp i) <;> simp

/-- Every arm of `exec` issues its command. -/
theorem exec_eq_issue (i : Instr) (s : State) : exec i s = s.issue i := by cases i <;> rfl

end Sys2Proof.Machine
end

