-- ==== Sys2Proof/Laws/Stream.lean ====
section
/-! SUPPORT. A running command whose reads find tokens and whose writes find room completes, in whatever order
its turns come (20_memory R63, 70_reset R229). The theorem is `RoundRule.finishes`; the rule of each command
supplies a `RoundRule`. -/

namespace Sys2Proof.Machine

@[simp] theorem roundBytes_length (n : Nat) (ds : List Byte) (g : Nat) : (roundBytes n ds g).length = n := by
  simp [roundBytes]

theorem roundBytes_getD {n : Nat} (ds : List Byte) (g : Nat) {i : Nat} (h : i < n) :
    (roundBytes n ds g).getD i 0x00#8 = ds.getD (g * n + i) 0x00#8 := by
  simp [roundBytes, byteAt, List.getD_eq_getElem?_getD, h]

/-- The tokens left in IN once `q` bytes have been read from `ds` followed by `tail`: the read past the end of
`ds` takes the EOS at the head of `tail`, later ones take nothing (20_memory R53, R54). -/
def inAt (ds : List Byte) (tail : List Token) (q : Nat) : List Token :=
  if q ≤ ds.length then (ds.drop q).map .byte ++ tail else tail.drop 1

/-- What the rule of the command running in `k` says of one round, `k` being the state at its acceptance. -/
structure RoundRule (k : State) where
  nIn : Nat
  nOut : Nat
  rounds : Rounds
  /-- the bytes of BUF a round uses, from address 0 on -/
  used : Nat
  /-- the bytes a round writes, from those it reads -/
  outs : List Byte → List Byte
  /-- what BUF and `hold` hold of the round's bytes at a position -/
  Holds : List Byte → Memory → Hold → Nat → Nat → Prop
  resultAt : Nat → Option Word
  outs_length : ∀ bs, bs.length = nIn → (outs bs).length = nOut
  roundIn_eq : ∀ u : State, u.operands = k.operands → u.command.roundIn u = nIn
  roundOut_eq : ∀ u : State, u.operands = k.operands → u.command.roundOut u = nOut
  rounds_eq : ∀ u : State, u.operands = k.operands → u.command.rounds u = rounds
  result_eq : ∀ u : State, u.operands = k.operands → u.command.result u = resultAt u.round
  store_wf : ∀ (u : State) (v : Byte), u.operands = k.operands → u.buf.wf = true → (u.command.store u v).wf = true
  store_frame : ∀ (u : State) (v : Byte) (a : Nat), u.operands = k.operands → u.rd < nIn → used ≤ a →
    (u.command.store u v).read a = u.buf.read a
  holds_start : ∀ bs m h, m.wf = true → Holds bs m h 0 0
  holds_read : ∀ (u : State) (bs : List Byte) (q : List Token) (n : Word) (e : Bool), u.operands = k.operands →
    u.buf.wf = true → bs.length = nIn → Holds bs u.buf u.hold u.rd u.wr → u.rd < nIn → u.wr ≤ nOut →
    u.command.mayRead u = true →
    Holds bs (u.command.store { u with inQ := q, inCount := n, eos := e } (bs.getD u.rd 0x00#8))
      (u.command.holdNext { u with inQ := q, inCount := n, eos := e }) (u.rd + 1) u.wr
  holds_write : ∀ bs m h rd wr, Holds bs m h rd wr → wr < nOut → Holds bs m h rd (wr + 1)
  out_eq : ∀ (u : State) (bs : List Byte), u.operands = k.operands → bs.length = nIn →
    Holds bs u.buf u.hold u.rd u.wr → u.rd ≤ nIn → u.wr < nOut → u.command.need u u.wr ≤ u.rd →
    u.command.outByte u u.wr = (outs bs).getD u.wr 0x00#8
  /-- an uncounted command writes nothing of a round before its first byte is read -/
  first : rounds = .untilEos → 1 ≤ nIn → ∀ u : State, u.operands = k.operands → 1 ≤ u.command.need u 0
  live : ∀ u : State, u.operands = k.operands → u.rd ≤ nIn → u.wr ≤ nOut → ¬(nIn ≤ u.rd ∧ nOut ≤ u.wr) →
    (u.rd < nIn ∧ u.command.mayRead u = true) ∨ (u.wr < nOut ∧ u.command.need u u.wr ≤ u.rd)

/-- The input `ds` then `tail` lets the command run `total` rounds and no more. -/
structure RoundRule.Supplied {k : State} (r : RoundRule k) (ds : List Byte) (tail : List Token) (total : Nat) : Prop where
  eos : (∃ n, r.rounds = .count n ∧ n * r.nIn ≤ ds.length) ∨ ∃ rest, tail = .eos :: rest
  counted : ∀ n, r.rounds = .count n → total = n
  uncounted : r.rounds = .untilEos → 1 ≤ r.nIn ∧ ∀ g, g < total ↔ g * r.nIn < ds.length

variable {k : State} (r : RoundRule k) (ds : List Byte) (tail : List Token) (total : Nat)

/-- What rounds `0 .. g-1` write. -/
def RoundRule.written (g : Nat) : List Byte := streamOut r.nIn r.outs ds g

theorem RoundRule.written_succ (g : Nat) :
    r.written ds (g + 1) = r.written ds g ++ r.outs (roundBytes r.nIn ds g) := by
  simp [RoundRule.written, streamOut, List.range_succ]

theorem RoundRule.written_length (g : Nat) : (r.written ds g).length = g * r.nOut := by
  induction g with
  | zero => simp [RoundRule.written, streamOut]
  | succ g ih => rw [r.written_succ, List.length_append, ih, r.outs_length _ (by simp)]; ring

/-- What fewer rounds write is the start of what more rounds write. -/
theorem RoundRule.written_prefix {a b : Nat} (h : a ≤ b) : r.written ds a <+: r.written ds b := by
  obtain ⟨c, rfl⟩ := Nat.exists_eq_add_of_le h
  clear h
  induction c with
  | zero => exact List.prefix_refl _
  | succ c ih =>
    rw [← Nat.add_assoc, r.written_succ]
    exact ih.trans (List.prefix_append _ _)

/-- Within the rounds of the command. -/
structure RoundRule.Midway (u : State) : Prop where
  fixed : u.fixed = k.fixed
  phase : u.phase = .running
  stage : u.stage = .rounds
  status : u.status = statusAccepted
  result : u.result = k.result
  wf : u.buf.wf = true
  rd_le : u.rd ≤ r.nIn
  wr_le : u.wr ≤ r.nOut
  round_le : u.round ≤ total
  inside : (u.rd = 0 ∧ u.wr = 0) ∨ u.round < total
  begun : r.rounds = .untilEos → u.round * r.nIn ≤ ds.length
  eos : u.eos = decide (ds.length < u.round * r.nIn + u.rd)
  inQ : u.inQ = inAt ds tail (u.round * r.nIn + u.rd)
  inCount : u.inCount = BitVec.ofNat 32 (min (u.round * r.nIn + u.rd) ds.length)
  outQ : u.outQ = k.outQ ++ r.written ds u.round ++ (r.outs (roundBytes r.nIn ds u.round)).take u.wr
  outCount : u.outCount = BitVec.ofNat 32 (u.round * r.nOut + u.wr)
  holds : r.Holds (roundBytes r.nIn ds u.round) u.buf u.hold u.rd u.wr
  frame : ∀ a, total = 0 ∨ r.used ≤ a → u.buf.read a = k.buf.read a

/-- What is left in IN by the whole command. -/
def RoundRule.leftIn : List Token :=
  match r.rounds with
  | .untilEos => tail.drop 1
  | .count n => inAt ds tail (n * r.nIn)

/-- How many bytes the whole command removes from IN. -/
def RoundRule.readCount : Nat :=
  match r.rounds with
  | .untilEos => ds.length
  | .count n => min (n * r.nIn) ds.length

/-- The rounds are over. -/
structure RoundRule.Ended (u : State) : Prop where
  fixed : u.fixed = k.fixed
  wf : u.buf.wf = true
  round : u.round = total
  inQ : u.inQ = r.leftIn ds tail
  inCount : u.inCount = BitVec.ofNat 32 (r.readCount ds)
  outQ : u.outQ = k.outQ ++ r.written ds total
  outCount : u.outCount = BitVec.ofNat 32 (total * r.nOut)
  frame : ∀ a, total = 0 ∨ r.used ≤ a → u.buf.read a = k.buf.read a

/-- The rounds are over, RESULT is not yet written. -/
structure RoundRule.AtResult (u : State) : Prop where
  ended : r.Ended ds tail total u
  phase : u.phase = .running
  stage : u.stage = .result
  status : u.status = statusAccepted
  result : u.result = k.result

/-- RESULT is written, DONE is not yet set. -/
structure RoundRule.AtFinish (u : State) : Prop where
  ended : r.Ended ds tail total u
  phase : u.phase = .running
  stage : u.stage = .finish
  status : u.status = statusAccepted
  result : u.result = (r.resultAt total).getD k.result

/-- The command has completed. -/
structure RoundRule.Finished (u : State) : Prop where
  ended : r.Ended ds tail total u
  phase : u.phase = .idle
  status : u.status = 0x2#32
  result : u.result = (r.resultAt total).getD k.result

/-- How many turns are left, at most. -/
def RoundRule.distance (u : State) : Nat :=
  match u.phase with
  | .idle => 0
  | .running =>
    match u.stage with
    | .rounds => (total - u.round) * (r.nIn + r.nOut + 1) + 3 - (u.rd + u.wr)
    | .result => 2
    | .finish => 1

variable {r ds tail total}

theorem RoundRule.Midway.operands {u : State} (h : r.Midway ds tail total u) : u.operands = k.operands :=
  State.operands_of_fixed h.fixed

theorem RoundRule.Ended.operands {u : State} (h : r.Ended ds tail total u) : u.operands = k.operands :=
  State.operands_of_fixed h.fixed

theorem RoundRule.Midway.distance_eq {u : State} (h : r.Midway ds tail total u) :
    r.distance total u = (total - u.round) * (r.nIn + r.nOut + 1) + 3 - (u.rd + u.wr) := by
  simp [RoundRule.distance, h.phase, h.stage]

/-- An open round is not the last turn. -/
theorem RoundRule.slack {g : Nat} (h : g < total) :
    r.nIn + r.nOut + 1 ≤ (total - g) * (r.nIn + r.nOut + 1) :=
  Nat.le_mul_of_pos_left _ (by omega)

theorem RoundRule.Midway.three_le {u : State} (h : r.Midway ds tail total u) : 3 ≤ r.distance total u := by
  have := h.distance_eq
  have := h.rd_le
  have := h.wr_le
  rcases h.inside with ⟨h0, h1⟩ | hlt
  · omega
  · have := RoundRule.slack (r := r) hlt; omega

theorem RoundRule.Midway.uncounted_eq {u : State} (h : r.Midway ds tail total u) :
    u.uncounted = (r.rounds == .untilEos) := by
  rw [State.uncounted, r.rounds_eq u h.operands]

/-- While the count is not reached, a counted command has a round to run. -/
theorem RoundRule.Midway.open_of_counted {u : State} (h : r.Midway ds tail total u)
    (hs : r.Supplied ds tail total) (hc : u.countReached = false) {n : Nat} (hn : r.rounds = .count n) :
    u.round < total := by
  rcases h.inside with ⟨h0, h1⟩ | hlt
  · have ht := hs.counted n hn
    have hr := (r.rounds_eq u h.operands).trans hn
    simp only [State.countReached, h0, h1, hr, beq_self_eq_true, Bool.true_and, decide_eq_false_iff_not,
      not_le] at hc
    omega
  · exact hlt

/-- The turn that stops a counted command. -/
theorem RoundRule.Midway.stop {u : State} (h : r.Midway ds tail total u) (hs : r.Supplied ds tail total)
    (hc : u.countReached = true) : r.AtResult ds tail total u.stop := by
  have hr := r.rounds_eq u h.operands
  cases hn : r.rounds with
  | untilEos => simp [State.countReached, hr, hn] at hc
  | count n =>
    rw [hn] at hr
    simp only [State.countReached, hr, Bool.and_eq_true, beq_iff_eq, decide_eq_true_eq] at hc
    obtain ⟨⟨h0, h1⟩, hle⟩ := hc
    have ht := hs.counted n hn
    have hround : u.round = total := le_antisymm h.round_le (by omega)
    refine ⟨⟨h.fixed, h.wf, hround, ?_, ?_, ?_, ?_, h.frame⟩, h.phase, rfl, h.status, h.result⟩
    · have := h.inQ
      simpa [RoundRule.leftIn, hn, h0, hround, ht] using this
    · have := h.inCount
      simpa [RoundRule.readCount, hn, h0, hround, ht] using this
    · have := h.outQ
      simpa [h1, hround] using this
    · have := h.outCount
      simpa [h1, hround] using this

/-- The turn that ends a round. -/
theorem RoundRule.Midway.endRound {u : State} (h : r.Midway ds tail total u) (hs : r.Supplied ds tail total)
    (hc : u.countReached = false) (hd : u.roundDone = true) :
    (r.Midway ds tail total u.endRound ∨ r.AtResult ds tail total u.endRound) ∧
      r.distance total u.endRound < r.distance total u := by
  have hRounds := r.rounds_eq u h.operands
  have hmul : ∀ a b : Nat, (a + 1) * b = a * b + b := fun a b => by ring
  simp only [State.roundDone, r.roundIn_eq u h.operands, r.roundOut_eq u h.operands, Bool.and_eq_true,
    decide_eq_true_eq] at hd
  have hrd : u.rd = r.nIn := le_antisymm h.rd_le hd.1
  have hwr : u.wr = r.nOut := le_antisymm h.wr_le hd.2
  have hq : (u.round + 1) * r.nIn + 0 = u.round * r.nIn + u.rd := by rw [hmul, hrd]; omega
  have hlen : (r.outs (roundBytes r.nIn ds u.round)).length = r.nOut := r.outs_length _ (by simp)
  have hout : u.outQ = k.outQ ++ r.written ds (u.round + 1) := by
    rw [h.outQ, hwr, ← hlen, List.take_length, r.written_succ, List.append_assoc]
  have hoc : u.outCount = BitVec.ofNat 32 ((u.round + 1) * r.nOut + 0) := by
    rw [h.outCount, hwr, hmul]; rfl
  have hround : u.round < total := by
    cases hn : r.rounds with
    | count n => exact h.open_of_counted hs hc hn
    | untilEos =>
      have := (hs.uncounted hn).1
      rcases h.inside with ⟨h0, h1⟩ | hlt
      · omega
      · exact hlt
  have hdist := h.distance_eq
  have hslack := RoundRule.slack (r := r) hround
  have hstep : (total - u.round) * (r.nIn + r.nOut + 1)
      = (total - (u.round + 1)) * (r.nIn + r.nOut + 1) + (r.nIn + r.nOut + 1) := by
    rw [← hmul]; congr 1; omega
  by_cases hstop : (u.uncounted && u.eos) = true
  · have hst : u.endRound.stage = .result := by simp [hstop]
    refine ⟨.inr ⟨⟨h.fixed, h.wf, ?_, ?_, ?_, ?_, ?_, h.frame⟩, h.phase, hst, h.status, h.result⟩, ?_⟩
    all_goals
      rw [Bool.and_eq_true, h.uncounted_eq, beq_iff_eq, h.eos, decide_eq_true_eq] at hstop
      obtain ⟨hn, hpast⟩ := hstop
      have hover : total = u.round + 1 := by
        have := (hs.uncounted hn).2 (u.round + 1)
        omega
    · exact hover.symm
    · show u.inQ = _
      rw [h.inQ, inAt, if_neg (by omega), RoundRule.leftIn, hn]
    · show u.inCount = _
      rw [h.inCount, RoundRule.readCount, hn, Nat.min_eq_right (by omega)]
    · show u.outQ = _
      rw [hout, hover]
    · show u.outCount = _
      rw [hoc, hover]; rfl
    · have : r.distance total u.endRound = 2 := by
        unfold RoundRule.distance
        rw [State.endRound_phase, h.phase, hst]
      have := h.three_le
      omega
  · have hst : u.endRound.stage = .rounds := by simp [hstop]
    have hmid : r.Midway ds tail total u.endRound := by
      refine ⟨h.fixed, h.phase, hst, h.status, h.result, h.wf, Nat.zero_le _, Nat.zero_le _, hround,
        .inl ⟨rfl, rfl⟩, ?_, ?_, ?_, ?_, ?_, hoc, r.holds_start _ _ _ h.wf, h.frame⟩
      · intro hn
        show (u.round + 1) * r.nIn ≤ _
        rw [Bool.and_eq_true, h.uncounted_eq, beq_iff_eq, h.eos, decide_eq_true_eq] at hstop
        have : ¬ds.length < u.round * r.nIn + u.rd := fun hlt => hstop ⟨hn, hlt⟩
        omega
      · show u.eos = decide (_ < (u.round + 1) * r.nIn + 0)
        rw [hq, h.eos]
      · show u.inQ = inAt ds tail ((u.round + 1) * r.nIn + 0)
        rw [hq, h.inQ]
      · show u.inCount = BitVec.ofNat 32 (min ((u.round + 1) * r.nIn + 0) ds.length)
        rw [hq, h.inCount]
      · show u.outQ = _ ++ List.take 0 _
        rw [hout]; simp
    refine ⟨.inl hmid, ?_⟩
    rw [hmid.distance_eq, hdist]
    simp only [State.endRound_round, State.endRound_rd, State.endRound_wr]
    omega

/-- The turn that writes a byte. -/
theorem RoundRule.Midway.write {u : State} (h : r.Midway ds tail total u) (hs : r.Supplied ds tail total)
    (hroom : 0 < total * r.nOut → k.outQ.length + total * r.nOut ≤ k.params.outDepth) (hc : u.countReached = false)
    (hw : u.canWrite = true) :
    r.Midway ds tail total u.writeTurn ∧ r.distance total u.writeTurn < r.distance total u := by
  simp only [State.canWrite, r.roundOut_eq u h.operands, Bool.and_eq_true, decide_eq_true_eq] at hw
  obtain ⟨hlt, hneed⟩ := hw
  have hlen : (r.outs (roundBytes r.nIn ds u.round)).length = r.nOut := r.outs_length _ (by simp)
  have hround : u.round < total := by
    cases hn : r.rounds with
    | count n => exact h.open_of_counted hs hc hn
    | untilEos =>
      rcases h.inside with ⟨h0, h1⟩ | hlt'
      · have := r.first hn (hs.uncounted hn).1 u h.operands
        rw [h1] at hneed
        omega
      · exact hlt'
  have hbyte := r.out_eq u _ h.operands (by simp) h.holds h.rd_le hlt hneed
  have hparams : u.params = k.params := congrArg (fun x => x.1) h.fixed
  have hfree : u.outQ.length < u.params.outDepth := by
    rw [h.outQ, hparams, List.length_append, List.length_append, r.written_length, List.length_take, hlen]
    have : (u.round + 1) * r.nOut ≤ total * r.nOut := Nat.mul_le_mul_right _ hround
    have : (u.round + 1) * r.nOut = u.round * r.nOut + r.nOut := by ring
    have := hroom (by omega)
    omega
  have hturn : u.writeTurn = { u with
      outQ := u.outQ ++ [u.command.outByte u u.wr], outCount := u.outCount + 1#32, wr := u.wr + 1 } := by
    simp [State.writeTurn, State.outWrite, hfree]
  have hmid : r.Midway ds tail total u.writeTurn := by
    rw [hturn]
    refine ⟨h.fixed, h.phase, h.stage, h.status, h.result, h.wf, h.rd_le, hlt, h.round_le, .inr hround, h.begun,
      h.eos, h.inQ, h.inCount, ?_, ?_, r.holds_write _ _ _ _ _ h.holds hlt, h.frame⟩
    · show u.outQ ++ [u.command.outByte u u.wr] = _ ++ List.take (u.wr + 1) _
      rw [hbyte, h.outQ, List.append_assoc, List.take_add_one]
      congr 1
      simp [List.getD_eq_getElem?_getD, List.getElem?_eq_getElem (hlen ▸ hlt)]
    · show u.outCount + 1#32 = BitVec.ofNat 32 (u.round * r.nOut + (u.wr + 1))
      rw [h.outCount, ← Nat.add_assoc]
      exact (BitVec.ofNat_add _ _).symm
  refine ⟨hmid, ?_⟩
  rw [hmid.distance_eq, h.distance_eq, hturn]
  have := RoundRule.slack (r := r) hround
  have := h.rd_le
  show (total - u.round) * _ + 3 - (u.rd + (u.wr + 1)) < _
  omega

/-- The turn that reads a byte, given what InRead makes of IN. -/
theorem RoundRule.Midway.readByte {u : State} (h : r.Midway ds tail total u) (hround : u.round < total)
    (hr : u.canRead = true) {t : Token} {n : Word}
    (hi : u.inRead = some (t, { u with
      inQ := inAt ds tail (u.round * r.nIn + (u.rd + 1))
      inCount := n
      eos := decide (ds.length < u.round * r.nIn + (u.rd + 1)) }))
    (ht : tokenByte t = ds.getD (u.round * r.nIn + u.rd) 0x00#8) (hnot : ¬(t = .eos ∧ u.uncounted = true ∧ u.rd = 0))
    (hn : n = BitVec.ofNat 32 (min (u.round * r.nIn + (u.rd + 1)) ds.length)) :
    r.Midway ds tail total u.readTurn ∧ r.distance total u.readTurn < r.distance total u := by
  simp only [State.canRead, r.roundIn_eq u h.operands, Bool.and_eq_true, decide_eq_true_eq] at hr
  obtain ⟨hlt, hmay⟩ := hr
  have hturn : u.readTurn = State.putByte { u with
      inQ := inAt ds tail (u.round * r.nIn + (u.rd + 1))
      inCount := n
      eos := decide (ds.length < u.round * r.nIn + (u.rd + 1)) } (ds.getD (u.round * r.nIn + u.rd) 0x00#8) := by
    simp only [State.readTurn, hi, if_neg hnot, ht]
  have hb := roundBytes_getD (n := r.nIn) ds u.round hlt
  have hmid : r.Midway ds tail total u.readTurn := by
    rw [hturn]
    refine ⟨h.fixed, h.phase, h.stage, h.status, h.result, ?_, hlt, h.wr_le, h.round_le, .inr hround, h.begun, rfl,
      rfl, hn, h.outQ, h.outCount, ?_, ?_⟩
    · exact r.store_wf { u with
        inQ := inAt ds tail (u.round * r.nIn + (u.rd + 1))
        inCount := n
        eos := decide (ds.length < u.round * r.nIn + (u.rd + 1)) } _ h.operands h.wf
    · rw [← hb]
      exact r.holds_read u _ _ _ _ h.operands h.wf (by simp) h.holds hlt h.wr_le hmay
    · intro a ha
      rw [← h.frame a ha]
      refine r.store_frame { u with
        inQ := inAt ds tail (u.round * r.nIn + (u.rd + 1))
        inCount := n
        eos := decide (ds.length < u.round * r.nIn + (u.rd + 1)) } _ a h.operands hlt (ha.resolve_left ?_)
      omega
  refine ⟨hmid, ?_⟩
  rw [hmid.distance_eq, h.distance_eq, hturn]
  have := RoundRule.slack (r := r) hround
  have := h.wr_le
  show (total - u.round) * _ + 3 - (u.rd + 1 + u.wr) < _
  omega

/-- The turn that reads. -/
theorem RoundRule.Midway.read {u : State} (h : r.Midway ds tail total u) (hs : r.Supplied ds tail total)
    (hc : u.countReached = false) (hr : u.canRead = true) :
    (r.Midway ds tail total u.readTurn ∨ r.AtResult ds tail total u.readTurn) ∧
      r.distance total u.readTurn < r.distance total u := by
  have hrd : u.rd < r.nIn := by
    simp only [State.canRead, r.roundIn_eq u h.operands, Bool.and_eq_true, decide_eq_true_eq] at hr
    exact hr.1
  have hopen : r.rounds = .untilEos → u.round * r.nIn < ds.length → u.round < total := fun hn hlt =>
    ((hs.uncounted hn).2 _).mpr hlt
  by_cases hnext : u.round * r.nIn + u.rd < ds.length
  · -- a byte of the input
    have hround : u.round < total := by
      cases hn : r.rounds with
      | untilEos => exact hopen hn (by omega)
      | count n => exact h.open_of_counted hs hc hn
    have heos : u.eos = false := by rw [h.eos, decide_eq_false_iff_not]; omega
    have hq : u.inQ = .byte (ds.getD (u.round * r.nIn + u.rd) 0x00#8) ::
        inAt ds tail (u.round * r.nIn + (u.rd + 1)) := by
      rw [h.inQ, inAt, inAt, if_pos hnext.le, if_pos (by omega), List.drop_eq_getElem_cons hnext]
      simp [List.getD_eq_getElem?_getD, hnext, Nat.add_assoc]
    have hi : u.inRead = some (.byte (ds.getD (u.round * r.nIn + u.rd) 0x00#8), { u with
        inQ := inAt ds tail (u.round * r.nIn + (u.rd + 1))
        inCount := u.inCount + 1#32
        eos := decide (ds.length < u.round * r.nIn + (u.rd + 1)) }) := by
      have : decide (ds.length < u.round * r.nIn + (u.rd + 1)) = u.eos := by
        rw [heos, decide_eq_false_iff_not]; omega
      rw [this]
      simp [State.inRead, heos, hq]
    have hm := h.readByte hround hr hi rfl (by simp) (by
      rw [h.inCount, Nat.min_eq_left (by omega), Nat.min_eq_left (by omega), ← Nat.add_assoc]
      exact (BitVec.ofNat_add _ _).symm)
    exact ⟨.inl hm.1, hm.2⟩
  · by_cases hpast : ds.length < u.round * r.nIn + u.rd
    · -- EOS again
      have heos : u.eos = true := by rw [h.eos, decide_eq_true_eq]; exact hpast
      have hi : u.inRead = some (.eos, { u with
          inQ := inAt ds tail (u.round * r.nIn + (u.rd + 1))
          inCount := u.inCount
          eos := decide (ds.length < u.round * r.nIn + (u.rd + 1)) }) := by
        have h1 : decide (ds.length < u.round * r.nIn + (u.rd + 1)) = u.eos := by
          rw [heos, decide_eq_true_eq]; omega
        have h2 : inAt ds tail (u.round * r.nIn + (u.rd + 1)) = u.inQ := by
          rw [h.inQ, inAt, inAt, if_neg (by omega), if_neg (by omega)]
        rw [h1, h2, State.inRead, if_pos heos]
      have hrd0 : r.rounds = .untilEos → 0 < u.rd := fun hn => by have := h.begun hn; omega
      have hround : u.round < total := by
        cases hn : r.rounds with
        | count n => exact h.open_of_counted hs hc hn
        | untilEos =>
          rcases h.inside with ⟨h0, -⟩ | hlt
          · have := hrd0 hn; omega
          · exact hlt
      have hm := h.readByte hround hr hi (by
          rw [List.getD_eq_getElem?_getD, List.getElem?_eq_none (by omega)]; rfl) (by
          rintro ⟨-, hu, h0⟩
          rw [h.uncounted_eq, beq_iff_eq] at hu
          have := hrd0 hu
          omega) (by rw [h.inCount, Nat.min_eq_right (by omega), Nat.min_eq_right (by omega)])
      exact ⟨.inl hm.1, hm.2⟩
    · -- the EOS token
      have hlen : u.round * r.nIn + u.rd = ds.length := by omega
      have heos : u.eos = false := by rw [h.eos, decide_eq_false_iff_not]; exact hpast
      have hq : u.inQ = tail := by rw [h.inQ, inAt, if_pos (by omega), hlen]; simp
      by_cases hfirst : u.uncounted = true ∧ u.rd = 0
      · -- no further round
        have hn : r.rounds = .untilEos := by simpa [h.uncounted_eq] using hfirst.1
        obtain ⟨rest, hrest⟩ : ∃ rest, tail = .eos :: rest := by
          rcases hs.eos with ⟨n, hn', -⟩ | he
          · rw [hn] at hn'; cases hn'
          · exact he
        have hi : u.inRead = some (.eos, { u with inQ := tail.drop 1, eos := true }) := by
          simp [State.inRead, heos, hq, hrest]
        have hturn : u.readTurn = State.stop { u with inQ := tail.drop 1, eos := true } := by
          rw [State.readTurn, hi]
          exact if_pos ⟨rfl, hfirst⟩
        have hround : u.round = total := by
          have := (hs.uncounted hn).2 u.round
          have := h.round_le
          omega
        have hwr : u.wr = 0 := by
          rcases h.inside with ⟨-, h1⟩ | hlt
          · exact h1
          · omega
        rw [hturn]
        refine ⟨.inr ⟨⟨h.fixed, h.wf, hround, ?_, ?_, ?_, ?_, h.frame⟩, h.phase, rfl, h.status, h.result⟩, ?_⟩
        · show tail.drop 1 = _
          simp [RoundRule.leftIn, hn]
        · show u.inCount = _
          rw [h.inCount, hlen, RoundRule.readCount, hn, Nat.min_self]
        · show u.outQ = _
          rw [h.outQ, hwr, hround]; simp
        · show u.outCount = _
          rw [h.outCount, hwr, hround]; rfl
        · have := h.three_le
          have : r.distance total (State.stop { u with inQ := tail.drop 1, eos := true }) = 2 := by
            simp [RoundRule.distance, h.phase]
          omega
      · -- it reads as 0x00
        have hround : u.round < total := by
          cases hn : r.rounds with
          | count n => exact h.open_of_counted hs hc hn
          | untilEos =>
            rcases h.inside with ⟨h0, -⟩ | hlt
            · exact absurd ⟨by rw [h.uncounted_eq, hn]; rfl, h0⟩ hfirst
            · exact hlt
        obtain ⟨rest, hrest⟩ : ∃ rest, tail = .eos :: rest := by
          rcases hs.eos with ⟨n, hn', hle⟩ | he
          · have ht := hs.counted n hn'
            have : (u.round + 1) * r.nIn ≤ n * r.nIn := Nat.mul_le_mul_right _ (by omega)
            have : (u.round + 1) * r.nIn = u.round * r.nIn + r.nIn := by ring
            omega
          · exact he
        have hi : u.inRead = some (.eos, { u with
            inQ := inAt ds tail (u.round * r.nIn + (u.rd + 1))
            inCount := u.inCount
            eos := decide (ds.length < u.round * r.nIn + (u.rd + 1)) }) := by
          have h1 : decide (ds.length < u.round * r.nIn + (u.rd + 1)) = true := by
            rw [decide_eq_true_eq]; omega
          have h2 : inAt ds tail (u.round * r.nIn + (u.rd + 1)) = rest := by
            rw [inAt, if_neg (by omega), hrest]; rfl
          rw [h1, h2]
          simp [State.inRead, heos, hq, hrest]
        have hm := h.readByte hround hr hi (by
            rw [List.getD_eq_getElem?_getD, List.getElem?_eq_none (by omega)]; rfl)
          (fun hx => hfirst hx.2)
          (by rw [h.inCount, Nat.min_eq_right (by omega), Nat.min_eq_right (by omega)])
        exact ⟨.inl hm.1, hm.2⟩

/-- A turn within the rounds. -/
theorem RoundRule.Midway.turn {u : State} (h : r.Midway ds tail total u) (hs : r.Supplied ds tail total)
    (hroom : 0 < total * r.nOut → k.outQ.length + total * r.nOut ≤ k.params.outDepth) (t : Turn) :
    (r.Midway ds tail total (u.turn t) ∨ r.AtResult ds tail total (u.turn t)) ∧
      r.distance total (u.turn t) < r.distance total u := by
  rw [State.turn_rounds h.phase h.stage]
  rcases u.roundTurn_cases t with ⟨hc, he⟩ | ⟨hc, hd, he⟩ | ⟨hc, hd, hr, he⟩ | ⟨hc, hd, hw, he⟩ |
    ⟨hc, hd, hr, hw, he⟩ <;> rw [he]
  · have hm := h.stop hs hc
    refine ⟨.inr hm, ?_⟩
    have := h.three_le
    have : r.distance total u.stop = 2 := by simp [RoundRule.distance, h.phase]
    omega
  · exact h.endRound hs hc hd
  · exact h.read hs hc hr
  · have hm := h.write hs hroom hc hw
    exact ⟨.inl hm.1, hm.2⟩
  · exfalso
    rw [State.roundDone, r.roundIn_eq u h.operands, r.roundOut_eq u h.operands, Bool.and_eq_false_iff,
      decide_eq_false_iff_not, decide_eq_false_iff_not] at hd
    rw [State.canRead, r.roundIn_eq u h.operands, Bool.and_eq_false_iff, decide_eq_false_iff_not] at hr
    rw [State.canWrite, r.roundOut_eq u h.operands, Bool.and_eq_false_iff, decide_eq_false_iff_not,
      decide_eq_false_iff_not] at hw
    rcases r.live u h.operands h.rd_le h.wr_le (by tauto) with ⟨h1, h2⟩ | ⟨h1, h2⟩
    · rcases hr with hr | hr
      · exact hr h1
      · rw [h2] at hr; cases hr
    · rcases hw with hw | hw
      · exact hw h1
      · exact hw h2

/-- The RESULT write. -/
theorem RoundRule.AtResult.turn {u : State} (h : r.AtResult ds tail total u) (t : Turn) :
    r.AtFinish ds tail total (u.turn t) := by
  rw [State.turn_result h.phase h.stage]
  refine ⟨⟨h.ended.fixed, h.ended.wf, h.ended.round, h.ended.inQ, h.ended.inCount, h.ended.outQ,
    h.ended.outCount, h.ended.frame⟩, h.phase, rfl, h.status, ?_⟩
  show (u.command.result u).getD u.result = _
  rw [r.result_eq u h.ended.operands, h.ended.round, h.result]

/-- Completion. -/
theorem RoundRule.AtFinish.turn {u : State} (h : r.AtFinish ds tail total u) (t : Turn) :
    r.Finished ds tail total (u.turn t) := by
  rw [State.turn_finish h.phase h.stage]
  refine ⟨⟨h.ended.fixed, h.ended.wf, h.ended.round, h.ended.inQ, h.ended.inCount, h.ended.outQ,
    h.ended.outCount, h.ended.frame⟩, rfl, ?_, h.result⟩
  rw [State.complete_status, h.status]
  rfl

/-- A supplied command with room for its output completes within `total * (nIn + nOut + 1) + 3` turns, in
whatever order they come. -/
theorem RoundRule.finishes (hs : r.Supplied ds tail total)
    (hroom : 0 < total * r.nOut → k.outQ.length + total * r.nOut ≤ k.params.outDepth) {u : State}
    (h : r.Midway ds tail total u) (ts : List Turn) (hts : r.distance total u ≤ ts.length) :
    r.Finished ds tail total (State.runTurns ts u) := by
  refine State.runTurns_reaches (P := fun v => r.Midway ds tail total v ∨ r.AtResult ds tail total v ∨
      r.AtFinish ds tail total v ∨ r.Finished ds tail total v) (r.distance total) ?_ ?_ ts (.inl h) hts ?_
  · intro v t hv hnot
    rcases hv with hv | hv | hv | hv
    · obtain ⟨h1, h2⟩ := hv.turn hs hroom t
      exact ⟨h1.elim .inl (fun x => .inr (.inl x)), h2⟩
    · have hf := hv.turn t
      exact ⟨.inr (.inr (.inl hf)), by simp [RoundRule.distance, hv.phase, hv.stage, hf.phase, hf.stage]⟩
    · have hf := hv.turn t
      exact ⟨.inr (.inr (.inr hf)), by simp [RoundRule.distance, hv.phase, hv.stage, hf.phase]⟩
    · exact absurd hv hnot
  · intro v t hv
    rw [State.turn_idle hv.phase]
    exact hv
  · intro v hv h0
    rcases hv with hv | hv | hv | hv
    · have := hv.three_le; omega
    · simp [RoundRule.distance, hv.phase, hv.stage] at h0
    · simp [RoundRule.distance, hv.phase, hv.stage] at h0
    · exact hv

/-- The state right after acceptance is at the start of the rounds. -/
theorem RoundRule.start (hq : k.inQ = ds.map .byte ++ tail) (hp : k.phase = .running) (hst : k.stage = .rounds)
    (hstat : k.status = statusAccepted) (hwf : k.buf.wf = true) (he : k.eos = false) (hg : k.round = 0)
    (hrd : k.rd = 0) (hwr : k.wr = 0) (hic : k.inCount = 0#32) (hoc : k.outCount = 0#32) :
    r.Midway ds tail total k where
  fixed := rfl
  phase := hp
  stage := hst
  status := hstat
  result := rfl
  wf := hwf
  rd_le := by omega
  wr_le := by omega
  round_le := by omega
  inside := .inl ⟨hrd, hwr⟩
  begun := by rw [hg]; simp
  eos := by rw [he, hg, hrd]; simp
  inQ := by rw [hq, hg, hrd]; simp [inAt]
  inCount := by rw [hic, hg, hrd]; simp
  outQ := by rw [hg, hwr]; simp [RoundRule.written, streamOut]
  outCount := by rw [hoc, hg, hwr]; simp
  holds := by rw [hrd, hwr]; exact r.holds_start _ _ _ hwf
  frame := fun _ _ => rfl

end Sys2Proof.Machine
end

