-- ==== Sys2Proof/Laws/Rules.lean ====
section
/-! SUPPORT. The rule of each command, as a `RoundRule`: what its rounds read and write (40_galois to
43_reed_solomon). -/

namespace Sys2Proof.Machine

/-! ### The latched command -/

theorem State.operands_params {u k : State} (h : u.operands = k.operands) : u.params = k.params := congrArg (fun x => x.1) h

theorem State.operands_op {u k : State} (h : u.operands = k.operands) : u.op = k.op := congrArg (fun x => x.2.1) h

theorem State.operands_a0 {u k : State} (h : u.operands = k.operands) : u.a0 = k.a0 := congrArg (fun x => x.2.2.1) h

theorem State.operands_a1 {u k : State} (h : u.operands = k.operands) : u.a1 = k.a1 :=
  congrArg (fun x => x.2.2.2.1) h

theorem State.operands_be {u k : State} (h : u.operands = k.operands) : u.be = k.be :=
  congrArg (fun x => x.2.2.2.2.1) h

theorem State.operands_sp {u k : State} (h : u.operands = k.operands) : u.sp = k.sp :=
  congrArg (fun x => x.2.2.2.2.2) h

theorem State.operands_len {u k : State} (h : u.operands = k.operands) : u.len = k.len :=
  congrArg BitVec.toNat (State.operands_a0 h)

theorem State.operands_count {u k : State} (h : u.operands = k.operands) : u.count = k.count :=
  congrArg BitVec.toNat (State.operands_a1 h)

theorem State.operands_header {u k : State} (h : u.operands = k.operands) : u.header = k.header := by
  funext l; simp only [State.header, State.operands_be h, State.operands_sp h]

theorem State.command_of_operands {u k : State} (h : u.operands = k.operands) {i : Instr} (hi : k.op = i) :
    u.command = commandOf i := by
  rw [State.command, State.operands_op h, hi]

/-! ### Lists -/

/-- The bytes of BUF from an address on, where each is known. -/
theorem State.bytes_eq {s : State} {a : Nat} {bs : List Byte}
    (h : ∀ i < bs.length, s.buf.read (a + i) = bs.getD i 0x00#8) : s.bytes a bs.length = bs := by
  apply List.ext_getElem
  · simp [State.bytes]
  · intro i hi hi'
    simp [State.bytes, h i hi', List.getD_eq_getElem?_getD, hi']

@[simp] theorem State.bytes_length (s : State) (a n : Nat) : (s.bytes a n).length = n := by simp [State.bytes]

@[simp] theorem blocks_length (n l : Nat) (f : Nat → Nat → Byte) : (blocks n l f).length = n * l := by
  induction n with
  | zero => simp [blocks]
  | succ n ih =>
    rw [blocks] at ih ⊢
    rw [List.range_succ, List.flatMap_append, List.length_append, ih]
    simp
    ring

/-- Byte `m` lies in block `m / l`, at position `m % l`. -/
theorem blocks_getD (n l : Nat) (f : Nat → Nat → Byte) {m : Nat} (h : m < n * l) :
    (blocks n l f).getD m 0x00#8 = f (m / l) (m % l) := by
  induction n with
  | zero => omega
  | succ n ih =>
    have hmul : (n + 1) * l = n * l + l := by ring
    have hl : 0 < l := by
      rcases Nat.eq_zero_or_pos l with h0 | h0
      · subst h0; omega
      · exact h0
    have hsplit : blocks (n + 1) l f = blocks n l f ++ (List.range l).map (f n) := by
      simp [blocks, List.range_succ]
    rw [hsplit, List.getD_eq_getElem?_getD]
    by_cases hm : m < n * l
    · rw [List.getElem?_append_left (by simpa using hm), ← List.getD_eq_getElem?_getD, ih hm]
    · have h1 : m / l = n := by
        rw [Nat.div_eq_iff hl]
        constructor <;> omega
      have h2 : m % l = m - n * l := by
        have := Nat.div_add_mod m l
        rw [h1, Nat.mul_comm] at this
        omega
      rw [List.getElem?_append_right (by simpa using hm), blocks_length, h1, h2]
      have : m - n * l < l := by omega
      simp [this]

/-- The byte at a position of two lists joined. -/
theorem getD_append_byte (xs ys : List Byte) (k : Nat) :
    (xs ++ ys).getD k 0x00#8 = if k < xs.length then xs.getD k 0x00#8 else ys.getD (k - xs.length) 0x00#8 := by
  simp only [List.getD_eq_getElem?_getD]
  split
  · rw [List.getElem?_append_left ‹_›]
  · rw [List.getElem?_append_right (by omega)]

theorem getD_take_byte (xs : List Byte) {n k : Nat} (h : k < n) : (xs.take n).getD k 0x00#8 = xs.getD k 0x00#8 := by
  simp [List.getD_eq_getElem?_getD, h]

theorem getD_drop_byte (xs : List Byte) (n k : Nat) : (xs.drop n).getD k 0x00#8 = xs.getD (n + k) 0x00#8 := by
  simp [List.getD_eq_getElem?_getD]

theorem getD_zipWith_byte (f : Byte → Byte → Byte) {xs ys : List Byte} {k : Nat} (hx : k < xs.length)
    (hy : k < ys.length) : (List.zipWith f xs ys).getD k 0x00#8 = f (xs.getD k 0x00#8) (ys.getD k 0x00#8) := by
  simp [List.getD_eq_getElem?_getD, hx, hy]

/-! ### A round that BUF holds from address 0 on -/

/-- BUF holds the bytes read so far, from address 0 on. -/
def HoldsAll (bs : List Byte) (m : Memory) (_ : Hold) (rd _ : Nat) : Prop := ∀ i < rd, m.read i = bs.getD i 0x00#8

theorem HoldsAll.start (bs : List Byte) (m : Memory) (h : Hold) : HoldsAll bs m h 0 0 := by
  intro i hi; omega

theorem HoldsAll.read {bs : List Byte} {m : Memory} {h h' : Hold} {rd wr : Nat} (hm : m.wf = true)
    (hh : HoldsAll bs m h rd wr) : HoldsAll bs (m.write rd (bs.getD rd 0x00#8)) h' (rd + 1) wr := by
  intro i hi
  by_cases he : i = rd
  · subst he; exact Memory.read_write_same _ _ hm
  · rw [Memory.read_write_ne _ he]; exact hh i (by omega)

/-- The whole round, once it is read. -/
theorem HoldsAll.bytes {bs : List Byte} {s : State} {h : Hold} {wr : Nat} (hh : HoldsAll bs s.buf h bs.length wr) :
    s.bytes 0 bs.length = bs :=
  State.bytes_eq fun i hi => by rw [Nat.zero_add]; exact hh i hi

/-! ### GF_MUL and GF_RED -/

/-- A command that only returns a value runs no round (40_galois R104, R105). -/
def resultOnlyRule (k : State) (i : Instr) (hk : k.op = i) (f : State → Word) (hc : commandOf i = resultOnly f)
    (hf : ∀ u : State, u.operands = k.operands → f u = f k) : RoundRule k where
  nIn := 0
  nOut := 0
  rounds := .count 0
  used := 0
  outs _ := []
  Holds _ _ _ _ _ := True
  resultAt _ := some (f k)
  outs_length _ _ := rfl
  roundIn_eq u h := by rw [State.command_of_operands h hk, hc]; rfl
  roundOut_eq u h := by rw [State.command_of_operands h hk, hc]; rfl
  rounds_eq u h := by rw [State.command_of_operands h hk, hc]; rfl
  result_eq u h := by rw [State.command_of_operands h hk, hc]; exact congrArg some (hf u h)
  store_wf u v h hw := by rw [State.command_of_operands h hk, hc]; exact hw
  store_frame u v a h hr ha := by rw [State.command_of_operands h hk, hc]; rfl
  holds_start _ _ _ _ := trivial
  holds_read _ _ _ _ _ _ _ _ _ _ _ _ := trivial
  holds_write _ _ _ _ _ _ _ := trivial
  out_eq _ _ _ _ _ _ h _ := absurd h (Nat.not_lt_zero _)
  first h := by cases h
  live u _ h1 h2 h3 := absurd ⟨by omega, by omega⟩ h3

/-! ### HAM_ENC and HAM_DEC -/

/-- HAM_ENC (41_hamming R127). -/
def hamEncRule (k : State) (hk : k.op = .hamEnc) : RoundRule k where
  nIn := 4
  nOut := 7
  rounds := .untilEos
  used := 4
  outs bs := hamEncRound (bs.getD 0 0x00#8) (bs.getD 1 0x00#8) (bs.getD 2 0x00#8) (bs.getD 3 0x00#8)
  Holds := HoldsAll
  resultAt _ := none
  outs_length _ _ := rfl
  roundIn_eq u h := by rw [State.command_of_operands h hk]; rfl
  roundOut_eq u h := by rw [State.command_of_operands h hk]; rfl
  rounds_eq u h := by rw [State.command_of_operands h hk]; rfl
  result_eq u h := by rw [State.command_of_operands h hk]; rfl
  store_wf u v h hw := by rw [State.command_of_operands h hk]; exact Memory.wf_write _ _ hw
  store_frame u v a h hr ha := by
    rw [State.command_of_operands h hk]
    exact Memory.read_write_ne (m := u.buf) (a := u.rd) v (by omega)
  holds_start bs m h _ := HoldsAll.start bs m h
  holds_read u bs q n e h hw _ hh _ _ _ := by rw [State.command_of_operands h hk]; exact HoldsAll.read hw hh
  holds_write _ _ _ _ _ hh _ := hh
  out_eq u bs h _ hh hrd hwr hneed := by
    rw [State.command_of_operands h hk] at hneed ⊢
    show (hamEncRound _ _ _ _).getD u.wr _ = _
    have hneed' : (if u.wr < 4 then u.wr + 1 else 4) ≤ u.rd := hneed
    by_cases h4 : u.wr < 4
    · rw [if_pos h4] at hneed'
      have hb := hh u.wr (by omega)
      have : u.wr = 0 ∨ u.wr = 1 ∨ u.wr = 2 ∨ u.wr = 3 := by omega
      rcases this with hx | hx | hx | hx <;> rw [hx] at hb ⊢ <;> simpa [hamEncRound] using hb
    · rw [if_neg h4] at hneed'
      rw [hh 0 (by omega), hh 1 (by omega), hh 2 (by omega), hh 3 (by omega)]
  first _ _ u h := by
    rw [State.command_of_operands h hk]
    show 1 ≤ if 0 < 4 then 0 + 1 else 4
    simp
  live u h hrd hwr hd := by
    rw [State.command_of_operands h hk]
    by_cases h4 : u.rd < 4
    · exact .inl ⟨h4, rfl⟩
    · refine .inr ⟨by omega, ?_⟩
      show (if u.wr < 4 then u.wr + 1 else 4) ≤ u.rd
      split <;> omega

theorem fixLane_length (s0 s1 s2 : Byte) (bs : List Byte) (b : Nat) : (fixLane s0 s1 s2 bs b).length = bs.length := by
  unfold fixLane
  split
  · rfl
  · split <;> simp

theorem foldl_fixLane_length (s0 s1 s2 : Byte) (bs : List Byte) (lanes : List Nat) :
    (lanes.foldl (fixLane s0 s1 s2) bs).length = bs.length := by
  induction lanes generalizing bs with
  | nil => rfl
  | cons b lanes ih => rw [List.foldl_cons, ih, fixLane_length]

theorem hamDecRound_length {bs : List Byte} (h : bs.length = 7) : (hamDecRound bs).length = 4 := by
  unfold hamDecRound
  split
  · simp [h]
  · rw [List.length_take, foldl_fixLane_length, h]; rfl

/-- HAM_DEC (41_hamming R128). -/
def hamDecRule (k : State) (hk : k.op = .hamDec) : RoundRule k where
  nIn := 7
  nOut := 4
  rounds := .untilEos
  used := 7
  outs := hamDecRound
  Holds := HoldsAll
  resultAt _ := none
  outs_length _ h := hamDecRound_length h
  roundIn_eq u h := by rw [State.command_of_operands h hk]; rfl
  roundOut_eq u h := by rw [State.command_of_operands h hk]; rfl
  rounds_eq u h := by rw [State.command_of_operands h hk]; rfl
  result_eq u h := by rw [State.command_of_operands h hk]; rfl
  store_wf u v h hw := by rw [State.command_of_operands h hk]; exact Memory.wf_write _ _ hw
  store_frame u v a h hr ha := by
    rw [State.command_of_operands h hk]
    exact Memory.read_write_ne (m := u.buf) (a := u.rd) v (by omega)
  holds_start bs m h _ := HoldsAll.start bs m h
  holds_read u bs q n e h hw _ hh _ _ _ := by rw [State.command_of_operands h hk]; exact HoldsAll.read hw hh
  holds_write _ _ _ _ _ hh _ := hh
  out_eq u bs h hlen hh hrd hwr hneed := by
    rw [State.command_of_operands h hk] at hneed ⊢
    have h7 : 7 ≤ u.rd := hneed
    have hrd' : u.rd = bs.length := by omega
    rw [hrd'] at hh
    have := hh.bytes
    rw [hlen] at this
    show (hamDecRound (u.bytes 0 7)).getD u.wr _ = _
    rw [this]
  first _ _ u h := by
    rw [State.command_of_operands h hk]
    show 1 ≤ 7
    omega
  live u h hrd hwr hd := by
    rw [State.command_of_operands h hk]
    by_cases h7 : u.rd < 7
    · exact .inl ⟨h7, rfl⟩
    · exact .inr ⟨by omega, by show 7 ≤ u.rd; omega⟩

/-! ### The framer -/

@[simp] theorem field16_length (v : Half) (be : Bool) : (field16 v be).length = 2 := by cases be <;> rfl

@[simp] theorem headerBytes_length (l : Half) (be : Bool) (sp : Half) : (headerBytes l be sp).length = 8 := by
  simp [headerBytes]

@[simp] theorem State.header_length (s : State) (l : Half) : (s.header l).length = 8 := headerBytes_length _ _ _

/-- ADD_HDR (42_framer R143). -/
def addHdrRule (k : State) (hk : k.op = .addHdr) : RoundRule k where
  nIn := 0
  nOut := 8
  rounds := .count 1
  used := 0
  outs _ := k.header (lowHalf k.a0)
  Holds _ _ _ _ _ := True
  resultAt _ := none
  outs_length _ _ := State.header_length _ _
  roundIn_eq u h := by rw [State.command_of_operands h hk]; rfl
  roundOut_eq u h := by rw [State.command_of_operands h hk]; rfl
  rounds_eq u h := by rw [State.command_of_operands h hk]; rfl
  result_eq u h := by rw [State.command_of_operands h hk]; rfl
  store_wf u v h hw := by rw [State.command_of_operands h hk]; exact hw
  store_frame u v a h hr ha := by rw [State.command_of_operands h hk]; rfl
  holds_start _ _ _ _ := trivial
  holds_read _ _ _ _ _ _ _ _ _ _ _ _ := trivial
  holds_write _ _ _ _ _ _ _ := trivial
  out_eq u bs h _ _ _ _ _ := by
    rw [State.command_of_operands h hk]
    show (u.header (lowHalf u.a0)).getD u.wr _ = _
    rw [State.operands_header h, State.operands_a0 h]
  first h := by cases h
  live u h hrd hwr hd := by
    rw [State.command_of_operands h hk]
    exact .inr ⟨by omega, Nat.zero_le _⟩

/-- Two positions of a ring that are nearer than its size lie apart. -/
theorem ring_ne {i j n : Nat} (h : i < j) (hn : j - i < n) : i % n ≠ j % n := by
  intro he
  have h1 : (j - i) % n = 0 := Nat.sub_mod_eq_zero_of_mod_eq he.symm
  rw [Nat.mod_eq_of_lt hn] at h1
  omega

/-- FRAME (42_framer R144). -/
def frameRule (k : State) (hk : k.op = .frame) (hb : 1 ≤ k.params.bufBytes) : RoundRule k where
  nIn := k.len
  nOut := 8 + k.len
  rounds := .untilEos
  used := min k.len k.params.bufBytes
  outs bs := k.header (lowHalf k.a0) ++ bs
  Holds bs m _ rd wr := ∀ j, wr - 8 ≤ j → j < rd → m.read (j % k.params.bufBytes) = bs.getD j 0x00#8
  resultAt g := some (BitVec.ofNat 32 g)
  outs_length bs h := by simp [h]
  roundIn_eq u h := by rw [State.command_of_operands h hk, ← State.operands_len h]; rfl
  roundOut_eq u h := by rw [State.command_of_operands h hk, ← State.operands_len h]; rfl
  rounds_eq u h := by rw [State.command_of_operands h hk]; rfl
  result_eq u h := by rw [State.command_of_operands h hk]; rfl
  store_wf u v h hw := by rw [State.command_of_operands h hk]; exact Memory.wf_write _ _ hw
  store_frame u v a h hr ha := by
    rw [State.command_of_operands h hk]
    show (u.buf.write (u.rd % u.params.bufBytes) v).read a = _
    rw [State.operands_params h]
    have h1 := Nat.mod_lt u.rd hb
    have h2 := Nat.mod_le u.rd k.params.bufBytes
    exact Memory.read_write_ne _ (by omega)
  holds_start bs m h _ := by intro j _ hj; omega
  holds_read u bs q n e h hw _ hh hrd hwr hmay := by
    rw [State.command_of_operands h hk] at hmay ⊢
    have hroom : u.rd - (u.wr - 8) < u.params.bufBytes := of_decide_eq_true hmay
    rw [State.operands_params h] at hroom
    intro j h1 h2
    show (u.buf.write (u.rd % u.params.bufBytes) _).read _ = _
    rw [State.operands_params h]
    by_cases he : j = u.rd
    · subst he; exact Memory.read_write_same _ _ hw
    · rw [Memory.read_write_ne _ (ring_ne (by omega) (by omega))]
      exact hh j h1 (by omega)
  holds_write bs m h rd wr hh hlt j h1 h2 := hh j (by omega) h2
  out_eq u bs h hlen hh hrd hwr hneed := by
    rw [State.command_of_operands h hk] at hneed ⊢
    have hneed' : (if u.wr < 8 then min 1 u.len else u.wr - 8 + 1) ≤ u.rd := hneed
    show (if u.wr < 8 then (u.header (lowHalf u.a0)).getD u.wr _
      else u.buf.read ((u.wr - 8) % u.params.bufBytes)) = _
    rw [getD_append_byte, State.header_length, State.operands_header h, State.operands_a0 h, State.operands_params h]
    split
    · rfl
    · rw [if_neg ‹_›] at hneed'
      exact hh _ le_rfl (by omega)
  first _ hl u h := by
    rw [State.command_of_operands h hk]
    show 1 ≤ min 1 u.len
    rw [State.operands_len h]; omega
  live u h hrd hwr hd := by
    rw [State.command_of_operands h hk]
    by_cases hr : u.rd < k.len ∧ u.rd - (u.wr - 8) < k.params.bufBytes
    · refine .inl ⟨hr.1, ?_⟩
      show decide (u.rd - (u.wr - 8) < u.params.bufBytes) = true
      rw [State.operands_params h]; exact decide_eq_true hr.2
    · refine .inr ?_
      show u.wr < 8 + k.len ∧ (if u.wr < 8 then min 1 u.len else u.wr - 8 + 1) ≤ u.rd
      rw [State.operands_len h]
      split <;> omega

/-- DEFRAME (42_framer R146). -/
def deframeRule (k : State) (hk : k.op = .deframe) (hb : 9 ≤ k.params.bufBytes) : RoundRule k where
  nIn := 8 + k.len
  nOut := k.len
  rounds := .count k.count
  used := 8 + min k.len (k.params.bufBytes - 8)
  outs bs := if headerMatch (bs.take 8) k.len k.be k.sp then bs.drop 8 else List.replicate k.len 0x00#8
  Holds bs m _ rd wr := (∀ i < 8, i < rd → m.read i = bs.getD i 0x00#8) ∧
    ∀ j, wr ≤ j → 8 + j < rd → m.read (8 + j % (k.params.bufBytes - 8)) = bs.getD (8 + j) 0x00#8
  resultAt _ := none
  outs_length bs h := by
    split
    · simp [h]
    · simp
  roundIn_eq u h := by rw [State.command_of_operands h hk, ← State.operands_len h]; rfl
  roundOut_eq u h := by rw [State.command_of_operands h hk, ← State.operands_len h]; rfl
  rounds_eq u h := by rw [State.command_of_operands h hk, ← State.operands_count h]; rfl
  result_eq u h := by rw [State.command_of_operands h hk]; rfl
  store_wf u v h hw := by
    rw [State.command_of_operands h hk]
    show (if u.rd < 8 then u.buf.write u.rd v else u.buf.write _ v).wf = true
    split <;> exact Memory.wf_write _ _ hw
  store_frame u v a h hr ha := by
    rw [State.command_of_operands h hk]
    show (if u.rd < 8 then u.buf.write u.rd v
      else u.buf.write (8 + (u.rd - 8) % (u.params.bufBytes - 8)) v).read a = _
    rw [State.operands_params h]
    have h1 := Nat.mod_lt (u.rd - 8) (by omega : 0 < k.params.bufBytes - 8)
    have h2 := Nat.mod_le (u.rd - 8) (k.params.bufBytes - 8)
    split <;> exact Memory.read_write_ne _ (by omega)
  holds_start bs m h _ := ⟨fun i _ hi => by omega, fun j _ hj => by omega⟩
  holds_read u bs q n e h hw _ hh hrd hwr hmay := by
    rw [State.command_of_operands h hk] at hmay ⊢
    have hmay' : (decide (u.rd < 8) || decide (u.rd - 8 - u.wr < u.params.bufBytes - 8)) = true := hmay
    have hst : ∀ w, deframeCommand.store { u with inQ := q, inCount := n, eos := e } w =
        if u.rd < 8 then u.buf.write u.rd w
        else u.buf.write (8 + (u.rd - 8) % (k.params.bufBytes - 8)) w := by
      intro w; rw [← State.operands_params h]; rfl
    rw [State.operands_params h] at hmay'
    show (∀ i < 8, i < u.rd + 1 → (deframeCommand.store _ _).read i = _) ∧
      ∀ j, u.wr ≤ j → 8 + j < u.rd + 1 → (deframeCommand.store _ _).read _ = _
    rw [hst]
    by_cases h8 : u.rd < 8
    · rw [if_pos h8]
      refine ⟨fun i hi hi' => ?_, fun j _ hj => by omega⟩
      by_cases he : i = u.rd
      · subst he; exact Memory.read_write_same _ _ hw
      · rw [Memory.read_write_ne _ he]; exact hh.1 i hi (by omega)
    · rw [if_neg h8]
      simp only [h8, decide_false, Bool.false_or, decide_eq_true_eq] at hmay'
      refine ⟨fun i hi hi' => ?_, fun j h1 h2 => ?_⟩
      · rw [Memory.read_write_ne _ (by omega)]; exact hh.1 i hi (by omega)
      · by_cases he : 8 + j = u.rd
        · have : u.rd - 8 = j := by omega
          rw [this, Memory.read_write_same _ _ hw, he]
        · have := ring_ne (i := j) (j := u.rd - 8) (n := k.params.bufBytes - 8) (by omega) (by omega)
          rw [Memory.read_write_ne _ (by omega)]
          exact hh.2 j h1 (by omega)
  holds_write bs m h rd wr hh hlt := ⟨hh.1, fun j h1 h2 => hh.2 j (by omega) h2⟩
  out_eq u bs h hlen hh hrd hwr hneed := by
    rw [State.command_of_operands h hk] at hneed ⊢
    have hneed' : (if u.frameOk then 8 + u.wr + 1 else 8) ≤ u.rd := hneed
    have h8 : 8 ≤ u.rd := by split at hneed' <;> omega
    have hhead : u.bytes 0 8 = bs.take 8 := by
      have h1 : (bs.take 8).length = 8 := by simp; omega
      have := State.bytes_eq (s := u) (a := 0) (bs := bs.take 8) (fun i hi => by
        rw [h1] at hi
        rw [Nat.zero_add, getD_take_byte _ hi]; exact hh.1 i hi (by omega))
      rwa [h1] at this
    have hok : u.frameOk = headerMatch (bs.take 8) k.len k.be k.sp := by
      rw [State.frameOk, hhead, State.operands_len h, State.operands_be h, State.operands_sp h]
    show (if u.frameOk then u.buf.read (8 + u.wr % (u.params.bufBytes - 8)) else 0x00#8) = _
    rw [hok] at hneed' ⊢
    split
    · rw [if_pos ‹_›] at hneed'
      rw [getD_drop_byte, State.operands_params h]
      exact hh.2 u.wr le_rfl (by omega)
    · simp [List.getD_eq_getElem?_getD]
  first h := by cases h
  live u h hrd hwr hd := by
    rw [State.command_of_operands h hk]
    by_cases hr : u.rd < 8 + k.len ∧ (u.rd < 8 ∨ u.rd - 8 - u.wr < k.params.bufBytes - 8)
    · refine .inl ⟨hr.1, ?_⟩
      show (decide (u.rd < 8) || decide (u.rd - 8 - u.wr < u.params.bufBytes - 8)) = true
      rw [State.operands_params h]
      simpa using hr.2
    · refine .inr ?_
      show u.wr < k.len ∧ (if u.frameOk then 8 + u.wr + 1 else 8) ≤ u.rd
      split <;> omega

@[simp] theorem interleave_length (l : Nat) (q : List Byte) : (interleave l q).length = 7 * l := blocks_length ..

@[simp] theorem deinterleave_length (l : Nat) (w : List Byte) : (deinterleave l w).length = 7 * l := by
  rw [deinterleave, blocks_length, Nat.mul_comm]

theorem interleave_getD {l m : Nat} (q : List Byte) (h : m < 7 * l) :
    (interleave l q).getD m 0x00#8 = q.getD (ilvSource l m) 0x00#8 := blocks_getD _ _ _ h

theorem deinterleave_getD {l m : Nat} (w : List Byte) (h : m < 7 * l) :
    (deinterleave l w).getD m 0x00#8 = w.getD (dilvSource l m) 0x00#8 := by
  rw [deinterleave, blocks_getD _ _ _ (by omega)]; rfl

theorem ilvSource_lt {l m : Nat} (h : m < 7 * l) : ilvSource l m < 7 * l := by
  have hl : 0 < l := by omega
  have h1 := Nat.mod_lt m hl
  have h2 : m / l < 7 := by rw [Nat.div_lt_iff_lt_mul hl]; exact h
  rw [ilvSource]; omega

theorem dilvSource_lt {l m : Nat} (h : m < 7 * l) : dilvSource l m < 7 * l := by
  have h1 : m / 7 < l := by omega
  have h2 : (m % 7) * l ≤ 6 * l := Nat.mul_le_mul_right _ (by omega)
  rw [dilvSource]; omega

/-- ILV (42_framer R149). -/
def ilvRule (k : State) (hk : k.op = .ilv) (hl : 1 ≤ k.len) : RoundRule k where
  nIn := 7 * k.len
  nOut := 8 + 7 * k.len
  rounds := .untilEos
  used := 7 * k.len
  outs bs := k.header (BitVec.ofNat 16 (7 * k.len)) ++ interleave k.len bs
  Holds := HoldsAll
  resultAt g := some (BitVec.ofNat 32 (7 * k.len * g))
  outs_length bs h := by simp
  roundIn_eq u h := by rw [State.command_of_operands h hk, ← State.operands_len h]; rfl
  roundOut_eq u h := by rw [State.command_of_operands h hk, ← State.operands_len h]; rfl
  rounds_eq u h := by rw [State.command_of_operands h hk]; rfl
  result_eq u h := by rw [State.command_of_operands h hk, ← State.operands_len h]; rfl
  store_wf u v h hw := by rw [State.command_of_operands h hk]; exact Memory.wf_write _ _ hw
  store_frame u v a h hr ha := by
    rw [State.command_of_operands h hk]
    exact Memory.read_write_ne (m := u.buf) (a := u.rd) v (by omega)
  holds_start bs m h _ := HoldsAll.start bs m h
  holds_read u bs q n e h hw _ hh _ _ _ := by rw [State.command_of_operands h hk]; exact HoldsAll.read hw hh
  holds_write _ _ _ _ _ hh _ := hh
  out_eq u bs h hlen hh hrd hwr hneed := by
    rw [State.command_of_operands h hk] at hneed ⊢
    have hneed' : (if u.wr < 8 then 1 else ilvSource u.len (u.wr - 8) + 1) ≤ u.rd := hneed
    show (if u.wr < 8 then (u.header (BitVec.ofNat 16 (7 * u.len))).getD u.wr _
      else u.buf.read (ilvSource u.len (u.wr - 8))) = _
    rw [getD_append_byte, State.header_length, State.operands_header h, State.operands_len h]
    rw [State.operands_len h] at hneed'
    split
    · rfl
    · rw [if_neg ‹_›] at hneed'
      rw [interleave_getD _ (by omega)]
      exact hh _ (by omega)
  first _ _ u h := by rw [State.command_of_operands h hk]; exact le_rfl
  live u h hrd hwr hd := by
    rw [State.command_of_operands h hk]
    by_cases hr : u.rd < 7 * k.len
    · exact .inl ⟨hr, rfl⟩
    · refine .inr ?_
      show u.wr < 8 + 7 * k.len ∧ (if u.wr < 8 then 1 else ilvSource u.len (u.wr - 8) + 1) ≤ u.rd
      refine ⟨by omega, ?_⟩
      rw [State.operands_len h]
      split
      · omega
      · have := ilvSource_lt (l := k.len) (m := u.wr - 8) (by omega)
        omega

/-- DILV (42_framer R150). -/
def dilvRule (k : State) (hk : k.op = .dilv) : RoundRule k where
  nIn := 8 + 7 * k.len
  nOut := 7 * k.len
  rounds := .untilEos
  used := 7 * k.len
  outs bs := deinterleave k.len (bs.drop 8)
  Holds bs m _ rd _ := ∀ i, 8 + i < rd → m.read i = bs.getD (8 + i) 0x00#8
  resultAt _ := none
  outs_length bs h := by simp
  roundIn_eq u h := by rw [State.command_of_operands h hk, ← State.operands_len h]; rfl
  roundOut_eq u h := by rw [State.command_of_operands h hk, ← State.operands_len h]; rfl
  rounds_eq u h := by rw [State.command_of_operands h hk]; rfl
  result_eq u h := by rw [State.command_of_operands h hk]; rfl
  store_wf u v h hw := by
    rw [State.command_of_operands h hk]
    show (if u.rd < 8 then u.buf else u.buf.write (u.rd - 8) v).wf = true
    split
    · exact hw
    · exact Memory.wf_write _ _ hw
  store_frame u v a h hr ha := by
    rw [State.command_of_operands h hk]
    show (if u.rd < 8 then u.buf else u.buf.write (u.rd - 8) v).read a = _
    split
    · rfl
    · exact Memory.read_write_ne _ (by omega)
  holds_start bs m h _ := by intro i hi; omega
  holds_read u bs q n e h hw _ hh hrd hwr _ := by
    rw [State.command_of_operands h hk]
    intro i hi
    show (if u.rd < 8 then u.buf else u.buf.write (u.rd - 8) _).read i = _
    split
    · omega
    · by_cases he : 8 + i = u.rd
      · have : u.rd - 8 = i := by omega
        rw [this, Memory.read_write_same _ _ hw, he]
      · rw [Memory.read_write_ne _ (by omega)]; exact hh i (by omega)
  holds_write _ _ _ _ _ hh _ := hh
  out_eq u bs h hlen hh hrd hwr hneed := by
    rw [State.command_of_operands h hk] at hneed ⊢
    have hneed' : 8 + dilvSource u.len u.wr + 1 ≤ u.rd := hneed
    show u.buf.read (dilvSource u.len u.wr) = _
    rw [State.operands_len h] at hneed' ⊢
    rw [deinterleave_getD _ hwr, getD_drop_byte]
    exact hh _ (by omega)
  first _ _ u h := by
    rw [State.command_of_operands h hk]
    show 1 ≤ 8 + dilvSource u.len 0 + 1
    omega
  live u h hrd hwr hd := by
    rw [State.command_of_operands h hk]
    by_cases hr : u.rd < 8 + 7 * k.len
    · exact .inl ⟨hr, rfl⟩
    · refine .inr ?_
      show u.wr < 7 * k.len ∧ 8 + dilvSource u.len u.wr + 1 ≤ u.rd
      have hw : u.wr < 7 * k.len := by omega
      have := dilvSource_lt hw
      rw [State.operands_len h]
      omega

/-! ### Reed-Solomon -/

/-- RS_ENC (43_reed_solomon R182). -/
def rsEncRule (k : State) (hk : k.op = .rsEnc) : RoundRule k where
  nIn := 2 * k.len
  nOut := 3 * k.len
  rounds := .untilEos
  used := 2 * k.len
  outs bs := bs ++ rsParity (bs.take k.len) (bs.drop k.len)
  Holds := HoldsAll
  resultAt g := some (BitVec.ofNat 32 (3 * g))
  outs_length bs h := by
    simp only [List.length_append, rsParity, List.length_zipWith, List.length_take, List.length_drop, h]
    omega
  roundIn_eq u h := by rw [State.command_of_operands h hk, ← State.operands_len h]; rfl
  roundOut_eq u h := by rw [State.command_of_operands h hk, ← State.operands_len h]; rfl
  rounds_eq u h := by rw [State.command_of_operands h hk]; rfl
  result_eq u h := by rw [State.command_of_operands h hk]; rfl
  store_wf u v h hw := by rw [State.command_of_operands h hk]; exact Memory.wf_write _ _ hw
  store_frame u v a h hr ha := by
    rw [State.command_of_operands h hk]
    exact Memory.read_write_ne (m := u.buf) (a := u.rd) v (by omega)
  holds_start bs m h _ := HoldsAll.start bs m h
  holds_read u bs q n e h hw _ hh _ _ _ := by rw [State.command_of_operands h hk]; exact HoldsAll.read hw hh
  holds_write _ _ _ _ _ hh _ := hh
  out_eq u bs h hlen hh hrd hwr hneed := by
    rw [State.command_of_operands h hk] at hneed ⊢
    have hneed' : (if u.wr < 2 * u.len then u.wr + 1 else u.wr - u.len + 1) ≤ u.rd := hneed
    show (if u.wr < 2 * u.len then u.buf.read u.wr
      else gfMul (u.buf.read (u.wr - 2 * u.len)) (u.buf.read (u.wr - u.len))) = _
    rw [State.operands_len h] at hneed' ⊢
    rw [getD_append_byte, hlen]
    split
    · rw [if_pos ‹_›] at hneed'
      exact hh _ (by omega)
    · rw [if_neg ‹_›] at hneed'
      rw [rsParity, getD_zipWith_byte _ (by simp; omega) (by simp; omega), getD_take_byte _ (by omega),
        getD_drop_byte, hh _ (by omega), hh _ (by omega)]
      congr 2
      omega
  first _ hl u h := by
    rw [State.command_of_operands h hk]
    show 1 ≤ if 0 < 2 * u.len then 0 + 1 else 0 - u.len + 1
    split <;> omega
  live u h hrd hwr hd := by
    rw [State.command_of_operands h hk]
    by_cases hr : u.rd < 2 * k.len
    · exact .inl ⟨hr, rfl⟩
    · refine .inr ?_
      show u.wr < 3 * k.len ∧ (if u.wr < 2 * u.len then u.wr + 1 else u.wr - u.len + 1) ≤ u.rd
      rw [State.operands_len h]
      split <;> omega

/-- Where the third payload of a group is kept (entry 10), from the group's bytes. -/
def holdOf (p : Nat) (bs : List Byte) : Hold :=
  if erased (bs.take p) then .over0 else if erased ((bs.drop p).take p) then .over1 else .dropped

/-- The address of byte `j` of the third payload. -/
def thirdAt (p : Nat) (h : Hold) (j : Nat) : Nat :=
  match h with
  | .over0 => j
  | .over1 => p + j
  | .dropped => 2 * p + j

/-- BUF holds the group's first two payloads, the third in the place of an erased one. -/
def HoldsGroup (p : Nat) (bs : List Byte) (m : Memory) (h : Hold) (rd _ : Nat) : Prop :=
  (rd ≤ 2 * p ∧ ∀ i < rd, m.read i = bs.getD i 0x00#8) ∨
  (2 * p < rd ∧ h = holdOf p bs ∧
    (∀ i < p, h ≠ .over0 → m.read i = bs.getD i 0x00#8) ∧
    (∀ i < p, h ≠ .over1 → m.read (p + i) = bs.getD (p + i) 0x00#8) ∧
    ∀ j, 2 * p + j < rd → h ≠ .dropped → m.read (thirdAt p h j) = bs.getD (2 * p + j) 0x00#8)

theorem HoldsGroup.low {p : Nat} {bs : List Byte} {m : Memory} {h : Hold} {rd wr i : Nat}
    (hh : HoldsGroup p bs m h rd wr) (h2 : rd ≤ 2 * p) (hi : i < rd) : m.read i = bs.getD i 0x00#8 := by
  rcases hh with ⟨-, hl⟩ | ⟨hlt, -⟩
  · exact hl i hi
  · omega

/-- A stretch of a list, byte by byte. -/
theorem getD_drop_take_byte (bs : List Byte) {a n k : Nat} (h : k < n) :
    ((bs.drop a).take n).getD k 0x00#8 = bs.getD (a + k) 0x00#8 := by
  rw [getD_take_byte _ h, getD_drop_byte]

/-- A stretch of BUF that holds a stretch of the round's bytes. -/
theorem State.bytes_stretch {s : State} {a b n : Nat} {bs : List Byte} (hlen : b + n ≤ bs.length)
    (h : ∀ i < n, s.buf.read (a + i) = bs.getD (b + i) 0x00#8) : s.bytes a n = (bs.drop b).take n := by
  have h1 : ((bs.drop b).take n).length = n := by simp; omega
  have := State.bytes_eq (s := s) (a := a) (bs := (bs.drop b).take n) (fun i hi => by
    rw [h1] at hi
    rw [getD_drop_take_byte _ hi]; exact h i hi)
  rwa [h1] at this

theorem erased_replicate (n : Nat) : erased (List.replicate n 0x00#8) = true := by
  simp [erased]

theorem eq_replicate_of_erased {bs : List Byte} (h : erased bs = true) : bs = List.replicate bs.length 0x00#8 := by
  apply List.eq_replicate_of_mem
  intro b hb
  simpa using List.all_eq_true.mp h b hb

/-- Where the third payload goes, once the first two are read. -/
theorem State.holdNext_eq {u : State} {bs : List Byte} (hlen : bs.length = 3 * u.len)
    (hh : HoldsGroup u.len bs u.buf u.hold u.rd u.wr) (h2 : 2 * u.len ≤ u.rd) :
    u.holdNext = holdOf u.len bs := by
  unfold State.holdNext
  split
  · rename_i he
    have h0 : u.bytes 0 u.len = (bs.drop 0).take u.len := State.bytes_stretch (by omega) fun i hi =>
      hh.low (by omega) (by omega)
    have h1 : u.bytes u.len u.len = (bs.drop u.len).take u.len := State.bytes_stretch (by omega) fun i hi =>
      hh.low (by omega) (by omega)
    rw [h0, h1, List.drop_zero, holdOf]
  · rcases hh with ⟨hle, -⟩ | ⟨-, hh, -⟩
    · omega
    · exact hh

/-- The group's output, from BUF once the group is read (43_reed_solomon R183). -/
theorem State.rsGroup_eq {u : State} {bs : List Byte} (hlen : bs.length = 3 * u.len) (hl : 1 ≤ u.len)
    (hh : HoldsGroup u.len bs u.buf u.hold (3 * u.len) u.wr) :
    u.rsGroup = rsDecGroup (bs.take u.len) ((bs.drop u.len).take u.len) (bs.drop (2 * u.len)) := by
  rcases hh with ⟨hle, -⟩ | ⟨-, hhold, h0, h1, h2⟩
  · omega
  have hthird : bs.drop (2 * u.len) = (bs.drop (2 * u.len)).take u.len := by
    rw [List.take_of_length_le]; simp; omega
  have hp0 : (bs.take u.len).length = u.len := by simp; omega
  have hp1 : ((bs.drop u.len).take u.len).length = u.len := by simp; omega
  unfold State.rsGroup
  cases hc : u.hold with
  | over0 =>
    rw [hc] at hhold h0 h1 h2
    have her : erased (bs.take u.len) = true := by
      by_contra hn
      rw [holdOf, if_neg hn] at hhold
      split at hhold <;> cases hhold
    have hz := eq_replicate_of_erased her
    rw [hp0] at hz
    have hhigh : u.bytes u.len u.len = (bs.drop u.len).take u.len := State.bytes_stretch (by omega) fun i hi =>
      h1 i hi (by simp)
    have hlow : u.bytes 0 u.len = (bs.drop (2 * u.len)).take u.len := State.bytes_stretch (by omega) fun i hi => by
      have := h2 i (by omega) (by simp)
      simpa [thirdAt] using this
    show rsDecGroup (List.replicate u.len 0x00#8) (u.bytes u.len u.len) (u.bytes 0 u.len) = _
    rw [hhigh, hlow, ← hthird, ← hz]
  | over1 =>
    rw [hc] at hhold h0 h1 h2
    have her : erased ((bs.drop u.len).take u.len) = true := by
      by_contra hn
      rw [holdOf, if_neg hn] at hhold
      split at hhold <;> cases hhold
    have hz := eq_replicate_of_erased her
    rw [hp1] at hz
    have hlow : u.bytes 0 u.len = (bs.drop 0).take u.len := State.bytes_stretch (by omega) fun i hi => by
      simpa using h0 i hi (by simp)
    have hhigh : u.bytes u.len u.len = (bs.drop (2 * u.len)).take u.len :=
      State.bytes_stretch (by omega) fun i hi => by
        have := h2 i (by omega) (by simp)
        simpa [thirdAt] using this
    show rsDecGroup (u.bytes 0 u.len) (List.replicate u.len 0x00#8) (u.bytes u.len u.len) = _
    rw [hhigh, hlow, ← hthird, ← hz, List.drop_zero]
  | dropped =>
    rw [hc] at hhold h0 h1 h2
    have hlow : u.bytes 0 u.len = (bs.drop 0).take u.len := State.bytes_stretch (by omega) fun i hi => by
      simpa using h0 i hi (by simp)
    have hhigh : u.bytes u.len u.len = (bs.drop u.len).take u.len := State.bytes_stretch (by omega) fun i hi =>
      h1 i hi (by simp)
    have hn0 : erased (bs.take u.len) = false := by
      cases he : erased (bs.take u.len)
      · rfl
      · rw [holdOf, if_pos he] at hhold; cases hhold
    have hn1 : erased ((bs.drop u.len).take u.len) = false := by
      cases he : erased ((bs.drop u.len).take u.len)
      · rfl
      · rw [holdOf, hn0, if_pos he] at hhold; cases hhold
    show u.bytes 0 u.len ++ u.bytes u.len u.len = _
    rw [hhigh, hlow, List.drop_zero, rsDecGroup, hn0, hn1]
    simp

theorem rsDecGroup_length {p0 p1 p2 : List Byte} {p : Nat} (h0 : p0.length = p) (h1 : p1.length = p)
    (h2 : p2.length = p) : (rsDecGroup p0 p1 p2).length = 2 * p := by
  unfold rsDecGroup payloadAdd
  split
  · simp [h1, h2]; omega
  · split <;> simp [h0, h1, h2] <;> omega

/-- RS_DEC (43_reed_solomon R184). -/
def rsDecRule (k : State) (hk : k.op = .rsDec) (hl : 1 ≤ k.len) : RoundRule k where
  nIn := 3 * k.len
  nOut := 2 * k.len
  rounds := .count (k.count / 3)
  used := 2 * k.len
  outs bs := rsDecGroup (bs.take k.len) ((bs.drop k.len).take k.len) (bs.drop (2 * k.len))
  Holds := HoldsGroup k.len
  resultAt _ := none
  outs_length bs h := rsDecGroup_length (by simp; omega) (by simp; omega) (by simp; omega)
  roundIn_eq u h := by rw [State.command_of_operands h hk, ← State.operands_len h]; rfl
  roundOut_eq u h := by rw [State.command_of_operands h hk, ← State.operands_len h]; rfl
  rounds_eq u h := by rw [State.command_of_operands h hk, ← State.operands_count h]; rfl
  result_eq u h := by rw [State.command_of_operands h hk]; rfl
  store_wf u v h hw := by
    rw [State.command_of_operands h hk]
    show (u.storeRs v).wf = true
    unfold State.storeRs
    split
    · exact Memory.wf_write _ _ hw
    · split
      · exact Memory.wf_write _ _ hw
      · exact Memory.wf_write _ _ hw
      · exact hw
  store_frame u v a h hr ha := by
    rw [State.command_of_operands h hk]
    show (u.storeRs v).read a = _
    have hlen := State.operands_len h
    unfold State.storeRs
    split
    · exact Memory.read_write_ne _ (by omega)
    · split
      · exact Memory.read_write_ne _ (by omega)
      · exact Memory.read_write_ne _ (by omega)
      · rfl
  holds_start bs m h _ := .inl ⟨by omega, fun i hi => by omega⟩
  holds_read u bs q n e h hw hlen hh hrd hwr _ := by
    rw [State.command_of_operands h hk]
    rw [← State.operands_len h] at hh hlen hrd ⊢
    show HoldsGroup u.len bs (u.storeRs (bs.getD u.rd 0x00#8)) u.holdNext (u.rd + 1) u.wr
    by_cases h2 : u.rd < 2 * u.len
    · refine .inl ⟨h2, fun i hi => ?_⟩
      rw [State.storeRs, if_pos h2]
      by_cases he : i = u.rd
      · subst he; exact Memory.read_write_same _ _ hw
      · rw [Memory.read_write_ne _ he]; exact hh.low (by omega) (by omega)
    · have hnext := State.holdNext_eq hlen hh (by omega)
      have hold0 : ∀ i < u.len, holdOf u.len bs ≠ .over0 → u.buf.read i = bs.getD i 0x00#8 := by
        intro i hi hne
        rcases hh with ⟨hle, hall⟩ | ⟨-, hhold, ha, -⟩
        · exact hall i (by omega)
        · exact ha i hi (hhold ▸ hne)
      have hold1 : ∀ i < u.len, holdOf u.len bs ≠ .over1 → u.buf.read (u.len + i) = bs.getD (u.len + i) 0x00#8 := by
        intro i hi hne
        rcases hh with ⟨hle, hall⟩ | ⟨-, hhold, -, hb, -⟩
        · exact hall _ (by omega)
        · exact hb i hi (hhold ▸ hne)
      have hold2 : ∀ j, 2 * u.len + j < u.rd → holdOf u.len bs ≠ .dropped →
          u.buf.read (thirdAt u.len (holdOf u.len bs) j) = bs.getD (2 * u.len + j) 0x00#8 := by
        intro j hj hne
        rcases hh with ⟨hle, -⟩ | ⟨-, hhold, -, -, hc⟩
        · omega
        · rw [← hhold]; exact hc j hj (hhold ▸ hne)
      refine .inr ⟨by omega, hnext, ?_, ?_, ?_⟩ <;> rw [State.storeRs, if_neg h2, hnext] <;>
        cases hc : holdOf u.len bs <;> rw [hc] at hold0 hold1 hold2
      · intro i hi hne; exact hold0 i hi hne
      · intro i hi hne; exact absurd rfl hne
      · intro i hi hne
        show (u.buf.write _ _).read i = _
        rw [Memory.read_write_ne _ (by omega)]; exact hold0 i hi hne
      · intro i hi hne; exact hold1 i hi hne
      · intro i hi hne
        show (u.buf.write _ _).read _ = _
        rw [Memory.read_write_ne _ (by omega)]; exact hold1 i hi hne
      · intro i hi hne; exact absurd rfl hne
      · intro j hj hne; exact absurd rfl hne
      · intro j hj hne
        show (u.buf.write (u.rd - 2 * u.len) _).read j = _
        by_cases he : 2 * u.len + j = u.rd
        · have : u.rd - 2 * u.len = j := by omega
          rw [this, Memory.read_write_same _ _ hw, he]
        · rw [Memory.read_write_ne _ (by omega)]; exact hold2 j (by omega) hne
      · intro j hj hne
        show (u.buf.write (u.rd - u.len) _).read (u.len + j) = _
        by_cases he : 2 * u.len + j = u.rd
        · have : u.rd - u.len = u.len + j := by omega
          rw [this, Memory.read_write_same _ _ hw, he]
        · rw [Memory.read_write_ne _ (by omega)]; exact hold2 j (by omega) hne
  holds_write _ _ _ _ _ hh _ := hh
  out_eq u bs h hlen hh hrd hwr hneed := by
    rw [State.command_of_operands h hk] at hneed ⊢
    have hneed' : 3 * u.len ≤ u.rd := hneed
    rw [← State.operands_len h] at hh hlen hrd hl ⊢
    have he : u.rd = 3 * u.len := by omega
    rw [he] at hh
    show u.rsGroup.getD u.wr _ = _
    rw [State.rsGroup_eq hlen hl hh]
  first h := by cases h
  live u h hrd hwr hd := by
    rw [State.command_of_operands h hk]
    by_cases hr : u.rd < 3 * k.len
    · exact .inl ⟨hr, rfl⟩
    · refine .inr ⟨by omega, ?_⟩
      show 3 * u.len ≤ u.rd
      rw [State.operands_len h]; omega

end Sys2Proof.Machine
end

