-- ==== Sys2Proof/Laws/Completion.lean ====
section
/-! SUPPORT. From the rule of a command to what `exec` answers; and the list facts that round trips need. -/

namespace Sys2Proof.Machine

/-! ### Rounds of an input -/

/-- Round `g` is one of the input's rounds when it starts inside the input. -/
theorem lt_roundCount {n len g : Nat} (hn : 1 ≤ n) : g < roundCount n len ↔ g * n < len := by
  rw [roundCount, Nat.lt_div_iff_mul_lt (by omega)]
  rw [Nat.mul_comm]
  omega

/-- The number of rounds, from which rounds start inside the input. -/
theorem eq_roundCount {n len g : Nat} (hn : 1 ≤ n) (h : ∀ x, x < g ↔ x * n < len) : g = roundCount n len := by
  apply le_antisymm <;> apply Nat.not_lt.mp <;> intro hc
  · exact Nat.lt_irrefl _ ((lt_roundCount hn).mpr ((h _).mp hc))
  · exact Nat.lt_irrefl _ ((h _).mpr ((lt_roundCount hn).mp hc))

theorem roundCount_zero {n : Nat} : roundCount n 0 = 0 := by
  rcases Nat.eq_zero_or_pos n with rfl | h
  · rfl
  · rw [roundCount]; exact Nat.div_eq_of_lt (by omega)

/-- A whole number of rounds. -/
theorem roundCount_mul {n g : Nat} (hn : 1 ≤ n) : roundCount n (g * n) = g := by
  have h1 := lt_roundCount (n := n) (len := g * n) (g := g) hn
  rcases Nat.eq_zero_or_pos g with rfl | hg
  · rw [Nat.zero_mul]; exact roundCount_zero
  · have h2 := lt_roundCount (n := n) (len := g * n) (g := g - 1) hn
    have : (g - 1) * n < g * n := Nat.mul_lt_mul_of_pos_right (by omega) hn
    omega

/-- Rounds joined and cut again. -/
theorem roundBytes_flatMap {n g : Nat} {f : Nat → List Byte} (hf : ∀ i < g, (f i).length = n) {i : Nat} (hi : i < g)
    (tail : List Byte) : roundBytes n ((List.range g).flatMap f ++ tail) i = f i := by
  induction g with
  | zero => omega
  | succ g ih =>
    have hlen : ((List.range g).flatMap f).length = g * n := by
      clear ih hi
      induction g with
      | zero => simp
      | succ g ih =>
        rw [List.range_succ, List.flatMap_append, List.length_append, ih fun i hi => hf i (by omega)]
        simp [hf g (by omega)]
        ring
    have hsplit : (List.range (g + 1)).flatMap f ++ tail = (List.range g).flatMap f ++ (f g ++ tail) := by
      simp [List.range_succ]
    rw [hsplit]
    rcases Nat.lt_or_ge i g with hlt | hge
    · have h1 := ih (fun i hi => hf i (by omega)) hlt
      rw [← h1]
      apply List.map_congr_left
      intro j hj
      have hj' := List.mem_range.mp hj
      have hpos : i * n + j < ((List.range g).flatMap f).length := by
        rw [hlen]
        have : (i + 1) * n ≤ g * n := Nat.mul_le_mul_right _ hlt
        have : (i + 1) * n = i * n + n := by ring
        omega
      simp only [byteAt, List.getD_eq_getElem?_getD]
      rw [List.getElem?_append_left hpos, List.getElem?_append_left hpos]
    · have : i = g := by omega
      subst this
      apply List.ext_getElem
      · simp [hf i hi]
      · intro j h1 h2
        rw [roundBytes_length] at h1
        simp only [roundBytes, List.getElem_map, List.getElem_range, byteAt, List.getD_eq_getElem?_getD]
        rw [List.getElem?_append_right (by omega), hlen, Nat.add_sub_cancel_left,
          List.getElem?_append_left (by rw [hf i hi]; exact h1)]
        simp [h2]

/-- The rounds of an input, joined: the input and the padding of its last round. -/
theorem flatMap_roundBytes {n g : Nat} {ds : List Byte} (hle : ds.length ≤ g * n) :
    (List.range g).flatMap (roundBytes n ds) = ds ++ List.replicate (g * n - ds.length) 0x00#8 := by
  have h := blocks_length g n fun i j => byteAt ds (i * n + j)
  have hb : (List.range g).flatMap (roundBytes n ds) = blocks g n fun i j => byteAt ds (i * n + j) := rfl
  rw [hb]
  apply List.ext_getElem
  · simp; omega
  · intro m h1 h2
    rw [h] at h1
    have hl : 0 < n := by
      rcases Nat.eq_zero_or_pos n with h0 | h0
      · subst h0; omega
      · exact h0
    have hg := blocks_getD g n (fun i j => byteAt ds (i * n + j)) h1
    rw [List.getD_eq_getElem?_getD, List.getElem?_eq_getElem (by omega)] at hg
    rw [Option.getD_some] at hg
    rw [hg, Nat.mul_comm, Nat.div_add_mod, byteAt]
    by_cases hm : m < ds.length
    · rw [List.getElem_append_left hm]; simp [List.getD_eq_getElem?_getD, hm]
    · rw [List.getElem_append_right (by omega)]; simp [List.getD_eq_getElem?_getD, hm]

/-! ### What `exec` answers -/

theorem Ready.mono {m n : Nat} {s : State} (h : Ready n s) (hle : m ≤ n) : Ready m s :=
  ⟨h.idle, h.params, h.buf, hle.trans h.turns⟩

theorem Ready.bufBytes {n : Nat} {s : State} (h : Ready n s) : 14 ≤ s.params.bufBytes := by
  have := h.params
  simp only [Params.wellFormed, Bool.and_eq_true, decide_eq_true_eq] at this
  exact this.1.1

theorem Ready.outDepth {n : Nat} {s : State} (h : Ready n s) : 1 ≤ s.params.outDepth := by
  have := h.params
  simp only [Params.wellFormed, Bool.and_eq_true, decide_eq_true_eq] at this
  exact this.2

/-- An accepted command runs its turns. -/
theorem exec_accepted {i : Instr} {s : State} (hp : s.phase = .idle)
    (hok : (commandOf i).argOk (s.latchOp i) = true)
    (hfit : (commandOf i).bufUse (s.latchOp i) ≤ s.params.bufBytes) :
    exec i s = .next { State.runTurns s.turns (s.latchOp i) with turns := [] } := by
  rw [exec_eq_issue, State.issue_idle hp]
  rcases s.accept_eq i with ⟨-, ha⟩ | ⟨hn, -⟩
  · rw [ha, State.advance_of_fits]
    · rfl
    · rw [State.bufFits_running rfl]; exact hfit
  · rw [hok] at hn; cases hn

/-- A command with a bad argument ends at once (60_exceptions R201). -/
theorem exec_refused {i : Instr} {s : State} (hp : s.phase = .idle)
    (hok : (commandOf i).argOk (s.latchOp i) = false) :
    exec i s = .next { (s.latchOp i).raiseErrArg with turns := [] } := by
  rw [exec_eq_issue, State.issue_idle hp]
  rcases s.accept_eq i with ⟨hn, -⟩ | ⟨-, ha⟩
  · rw [hok] at hn; cases hn
  · rw [ha, State.advance_idle rfl]

/-- A command whose rule is known, supplied with input, with room for its output, and with enough turns, has
completed when `exec` answers. -/
theorem exec_completes {i : Instr} {s : State} (r : RoundRule (s.latchOp i)) {ds : List Byte} {tail : List Token}
    {total n : Nat} (hr : Ready n s) (hn : total * (r.nIn + r.nOut + 1) + 3 ≤ n)
    (hok : (commandOf i).argOk (s.latchOp i) = true)
    (hfit : (commandOf i).bufUse (s.latchOp i) ≤ s.params.bufBytes) (hq : s.inQ = ds.map .byte ++ tail)
    (hs : r.Supplied ds tail total)
    (hroom : 0 < total * r.nOut → s.outQ.length + total * r.nOut ≤ s.params.outDepth) :
    ∃ t, exec i s = .next t ∧ Completes i s t ∧ t.result = (r.resultAt total).getD s.result ∧
      t.inQ = r.leftIn ds tail ∧ t.inCount = BitVec.ofNat 32 (r.readCount ds) ∧
      t.outQ = s.outQ ++ r.written ds total ∧ t.outCount = BitVec.ofNat 32 (total * r.nOut) ∧
      (∀ a, total = 0 ∨ r.used ≤ a → t.buf.read a = s.buf.read a) ∧ t.buf.wf = true := by
  refine ⟨_, exec_accepted hr.idle hok hfit, ?_⟩
  have hmid : r.Midway ds tail total (s.latchOp i) := RoundRule.start hq rfl rfl rfl hr.buf rfl rfl rfl rfl rfl rfl
  have hdist : r.distance total (s.latchOp i) ≤ s.turns.length := by
    rw [hmid.distance_eq]
    have := hr.turns
    simp only [State.latchOp_round, State.latchOp_rd, State.latchOp_wr, Nat.sub_zero, Nat.add_zero]
    omega
  have hf := RoundRule.finishes hs hroom hmid s.turns hdist
  refine ⟨⟨⟨?_, ?_, ?_, ?_, ?_, ?_, ?_, ?_, ?_, ?_, ?_, ?_⟩, hf.phase, hf.status⟩, hf.result, hf.ended.inQ,
    hf.ended.inCount, hf.ended.outQ, hf.ended.outCount, hf.ended.frame, hf.ended.wf⟩ <;>
    simp [hdrBe, lowHalf]

/-- What supplies an uncounted command: its input, then end-of-stream. -/
theorem RoundRule.supplied_untilEos {k : State} {r : RoundRule k} {ds : List Byte} {rest : List Token}
    (hr : r.rounds = .untilEos) (hn : 1 ≤ r.nIn) :
    r.Supplied ds (.eos :: rest) (roundCount r.nIn ds.length) where
  eos := .inr ⟨rest, rfl⟩
  counted n h := by rw [hr] at h; cases h
  uncounted _ := ⟨hn, fun _ => lt_roundCount hn⟩

/-- What supplies a counted command: enough bytes, or end-of-stream. -/
theorem RoundRule.supplied_count {k : State} {r : RoundRule k} {ds : List Byte} {tail : List Token} {n : Nat}
    (hr : r.rounds = .count n) (h : n * r.nIn ≤ ds.length ∨ ∃ rest, tail = .eos :: rest) :
    r.Supplied ds tail n where
  eos := h.imp (fun h => ⟨n, hr, h⟩) id
  counted m hm := by rw [hr] at hm; cases hm; rfl
  uncounted h := by rw [hr] at h; cases h

end Sys2Proof.Machine
end

