-- ==== Sys2Proof/Laws/Step.lean ====
section
/-! SUPPORT. What one step can do: the host's move, then the sequencer's turns. -/

namespace Sys2Proof.Machine

/-- The host's move at the start of a step, and the state it leaves to the sequencer. -/
inductive HostMove (s : State) : State → Prop
  /-- no event is left -/
  | quiet (h : s.script = []) : HostMove s { s with turns := waitTurns [] }
  /-- the event waits -/
  | waits (e : HostEvent) (rest : List HostEvent) (h : s.script = e :: rest)
      (hw : (∃ t, e.act = .push t ∧ s.params.inDepth ≤ s.inQ.length) ∨ e.act = .pop ∧ s.outQ = []) :
      HostMove s (s.here e)
  /-- nothing happens to the block: no host operation, or a CMD write while RUNNING -/
  | passes (e : HostEvent) (rest : List HostEvent) (h : s.script = e :: rest)
      (hn : e.act = .pause ∨ ∃ w, e.act = .write 32 0 w ∧ s.phase = .running) : HostMove s (s.past e rest)
  /-- a legal CMD word is accepted -/
  | issues (e : HostEvent) (rest : List HostEvent) (h : s.script = e :: rest) (w : Word) (i : Instr)
      (ha : e.act = .write 32 0 w) (hp : s.phase = .idle) (hd : decode w = .ok i) :
      HostMove s ((s.past e rest).accept i)
  /-- an illegal CMD word is accepted -/
  | illegal (e : HostEvent) (rest : List HostEvent) (h : s.script = e :: rest) (w : Word) (x : DecodeError)
      (ha : e.act = .write 32 0 w) (hp : s.phase = .idle) (hd : decode w = .error x) :
      HostMove s (s.past e rest).latch.raiseErrOpc
  | writes (e : HostEvent) (rest : List HostEvent) (h : s.script = e :: rest) (width off : Nat) (v : Word) (r : Reg)
      (ha : e.act = .write width off v) (hr : accessReg width off = .ok r) (hc : r ≠ .cmd) :
      HostMove s ((s.past e rest).writeReg v r)
  | reads (e : HostEvent) (rest : List HostEvent) (h : s.script = e :: rest) (width off : Nat) (r : Reg)
      (ha : e.act = .read width off) (hr : accessReg width off = .ok r) :
      HostMove s ((s.past e rest).record (.value ((s.past e rest).readReg r)))
  | pushes (e : HostEvent) (rest : List HostEvent) (h : s.script = e :: rest) (t : Token) (ha : e.act = .push t)
      (hroom : s.inQ.length < s.params.inDepth) : HostMove s ((s.past e rest).append t)
  | pops (e : HostEvent) (rest : List HostEvent) (h : s.script = e :: rest) (v : Byte) (q : List Byte)
      (ha : e.act = .pop) (hq : s.outQ = v :: q) : HostMove s ((s.past e rest).remove v q)
  | drains (e : HostEvent) (rest : List HostEvent) (h : s.script = e :: rest) (ha : e.act = .drain) :
      HostMove s (s.past e rest).drain
  | polls (e : HostEvent) (rest : List HostEvent) (h : s.script = e :: rest) (ha : e.act = .wait)
      (hd : statusDone s.status = false) : HostMove s (s.here e).poll
  | pollsDone (e : HostEvent) (rest : List HostEvent) (h : s.script = e :: rest) (ha : e.act = .wait)
      (hd : statusDone s.status = true) : HostMove s (s.past e rest).poll.drain
  | resets (e : HostEvent) (rest : List HostEvent) (h : s.script = e :: rest) (ha : e.act = .reset) :
      HostMove s (s.past e rest).resetBlock

/-- The accesses that have a meaning (20_memory R51). -/
theorem accessReg_ok {width off : Nat} {r : Reg} :
    accessReg width off = .ok r ↔ width = 32 ∧ off = offsetOf r := by
  constructor
  · intro h
    unfold accessReg at h
    split at h
    · cases h
    · split at h
      · cases h
      · rename_i hw ha
        simp only [Access.widthOk, Bool.not_eq_true, Bool.not_eq_false', beq_iff_eq] at hw
        unfold regOfOffset at h
        split at h
        · rename_i hr
          split at hr <;> cases hr <;> cases h <;> exact ⟨by simpa using hw, rfl⟩
        · cases h
  · rintro ⟨rfl, rfl⟩
    cases r <;> rfl

theorem accessReg_cmd {width off : Nat} : accessReg width off = .ok .cmd ↔ width = 32 ∧ off = 0 := accessReg_ok

/-- A step is refused, or it is a move of the host and then the sequencer's turns. -/
theorem step_cases (s : State) : (∃ r, step s = .refused r) ∨ ∃ m, HostMove s m ∧ step s = m.advance := by
  unfold step
  cases h : s.script with
  | nil => exact .inr ⟨_, .quiet h, rfl⟩
  | cons e rest =>
    cases ha : e.act with
    | write width off v =>
      cases hr : accessReg width off with
      | error x => exact .inl ⟨x, by simp [State.hostEvent, ha, State.hostWrite, hr]⟩
      | ok r =>
        by_cases hc : r = .cmd
        · subst hc
          obtain ⟨rfl, rfl⟩ := accessReg_cmd.mp hr
          cases hp : s.phase with
          | running =>
            refine .inr ⟨_, .passes e rest h (.inr ⟨v, ha, hp⟩), ?_⟩
            have hp' : (s.past e rest).phase = .running := hp
            simp only [State.hostEvent, ha, State.hostWrite, hr, State.writeCmd]
            split
            · rw [exec_eq_issue, State.issue_running hp']
            · simp only [hp']
          | idle =>
            have hp' : (s.past e rest).phase = .idle := hp
            cases hd : decode v with
            | ok i =>
              refine .inr ⟨_, .issues e rest h v i ha hp hd, ?_⟩
              simp only [State.hostEvent, ha, State.hostWrite, hr, State.writeCmd, hd]
              rw [exec_eq_issue, State.issue_idle hp']
            | error x =>
              refine .inr ⟨_, .illegal e rest h v x ha hp hd, ?_⟩
              simp only [State.hostEvent, ha, State.hostWrite, hr, State.writeCmd, hd, hp']
        · refine .inr ⟨_, .writes e rest h width off v r ha hr hc, ?_⟩
          simp only [State.hostEvent, ha, State.hostWrite, hr]
    | read width off =>
      cases hr : accessReg width off with
      | error x => exact .inl ⟨x, by simp [State.hostEvent, ha, State.hostRead, hr]⟩
      | ok r =>
        exact .inr ⟨_, .reads e rest h width off r ha hr, by simp only [State.hostEvent, ha, State.hostRead, hr]⟩
    | push t =>
      by_cases hroom : s.inQ.length < s.params.inDepth
      · exact .inr ⟨_, .pushes e rest h t ha hroom, by simp only [State.hostEvent, ha, hroom, if_true]⟩
      · exact .inr ⟨_, .waits e rest h (.inl ⟨t, ha, by omega⟩),
          by simp only [State.hostEvent, ha, hroom, if_false]⟩
    | pop =>
      cases hq : s.outQ with
      | nil => exact .inr ⟨_, .waits e rest h (.inr ⟨ha, hq⟩), by simp only [State.hostEvent, ha, hq]⟩
      | cons v q => exact .inr ⟨_, .pops e rest h v q ha hq, by simp only [State.hostEvent, ha, hq]⟩
    | drain => exact .inr ⟨_, .drains e rest h ha, by simp only [State.hostEvent, ha]⟩
    | wait =>
      cases hd : statusDone s.status with
      | false => exact .inr ⟨_, .polls e rest h ha hd, by simp [State.hostEvent, ha, hd]⟩
      | true => exact .inr ⟨_, .pollsDone e rest h ha hd, by simp [State.hostEvent, ha, hd]⟩
    | reset => exact .inr ⟨_, .resets e rest h ha, by simp only [State.hostEvent, ha]⟩
    | pause => exact .inr ⟨_, .passes e rest h (.inl ha), by simp only [State.hostEvent, ha]⟩

/-- A next state comes from a move of the host and the sequencer's turns after it. -/
theorem step_next {s u : State} (h : step s = .next u) :
    ∃ m, HostMove s m ∧ m.bufFits = true ∧ u = { State.runTurns m.turns m with turns := [] } := by
  rcases step_cases s with ⟨r, hr⟩ | ⟨m, hm, hs⟩
  · rw [hr] at h; cases h
  · exact ⟨m, hm, State.advance_next (hs ▸ h)⟩

end Sys2Proof.Machine
end

