-- ==== Sys2Proof/Laws/History.lean ====
section
/-! SUPPORT. What a running command has read and written, in whatever order its turns come and whatever the host does
between them (20_memory R62, R63): `RoundRule.Sofar.runTurns` for the turns, `HostMove.outside` for the host. -/

namespace Sys2Proof.Machine

/-! ### Tokens and the input they are the start of -/

@[simp] theorem tokenBytes_nil : tokenBytes [] = [] := rfl

@[simp] theorem tokenBytes_append (ts us : List Token) : tokenBytes (ts ++ us) = tokenBytes ts ++ tokenBytes us :=
  List.filterMap_append

@[simp] theorem tokenBytes_byte (v : Byte) : tokenBytes [.byte v] = [v] := rfl

@[simp] theorem tokenBytes_eos : tokenBytes [.eos] = [] := rfl

theorem tokenBytes_length (ts : List Token) : (tokenBytes ts).length = ts.countP tokenIsByte := by
  induction ts with
  | nil => rfl
  | cons t ts ih => cases t <;> simp_all [tokenBytes, tokenIsByte, List.countP_cons]

/-- The tokens taken are themselves an input. -/
theorem InputGoesOn.self (taken : List Token) : InputGoesOn taken (tokenBytes taken) :=
  ⟨List.prefix_refl _, fun _ => rfl⟩

/-- An input that goes on after more tokens goes on after fewer, where no end-of-stream was among the fewer. -/
theorem InputGoesOn.of_append {taken more : List Token} {ds : List Byte} (he : .eos ∉ taken)
    (h : InputGoesOn (taken ++ more) ds) : InputGoesOn taken ds :=
  ⟨(List.prefix_append _ _).trans (tokenBytes_append _ _ ▸ h.1), fun hx => absurd hx he⟩

/-- The byte that comes next in the input is the one taken next. -/
theorem InputGoesOn.byte {taken : List Token} {v : Byte} {ds : List Byte} (h : InputGoesOn (taken ++ [.byte v]) ds) :
    (tokenBytes taken).length < ds.length ∧ ds.getD (tokenBytes taken).length 0x00#8 = v := by
  obtain ⟨rest, hr⟩ := h.1
  rw [tokenBytes_append, tokenBytes_byte] at hr
  subst hr
  simp [List.getD_eq_getElem?_getD]

/-! ### The host's moves -/

/-- A move of the host in a step in which a command is running, other than reset, changes nothing of the block but the
ports' contents, the registers the host writes and the host's side. -/
theorem HostMove.outside {s m : State} (h : HostMove s m) (hp : s.phase = .running) (hr : ¬s.resetNext) :
    ∃ cfg srcport arg0 arg1 turns script trace, m = { s with
      inQ := s.offered, outQ := s.undrained, cfg := cfg, srcport := srcport, arg0 := arg0, arg1 := arg1,
      turns := turns, script := script, trace := trace } := by
  have key : ∀ (inQ : List Token) (outQ : List Byte), s.offered = inQ → s.undrained = outQ →
      ∀ (cfg srcport arg0 arg1 : Word) (turns : List Turn) (script : List HostEvent) (trace : List TraceItem),
      m = { s with
        inQ := inQ, outQ := outQ, cfg := cfg, srcport := srcport, arg0 := arg0, arg1 := arg1,
        turns := turns, script := script, trace := trace } → ∃ cfg srcport arg0 arg1 turns script trace, m = { s with
        inQ := s.offered, outQ := s.undrained, cfg := cfg, srcport := srcport, arg0 := arg0, arg1 := arg1,
        turns := turns, script := script, trace := trace } := by
    rintro _ _ rfl rfl cfg srcport arg0 arg1 turns script trace hm
    exact ⟨cfg, srcport, arg0, arg1, turns, script, trace, hm⟩
  cases h with
  | quiet h => refine key _ _ ?_ ?_ _ _ _ _ _ _ _ rfl <;> simp only [State.offered, State.undrained, h]
  | waits e rest h hw =>
    rcases hw with ⟨t, ha, hfull⟩ | ⟨ha, hq⟩ <;> refine key _ _ ?_ ?_ _ _ _ _ _ _ _ rfl <;>
      simp only [State.offered, State.undrained, h, ha]
    · exact if_neg (Nat.not_lt.mpr hfull)
    · rw [hq, List.drop_nil]
  | passes e rest h hn =>
    rcases hn with ha | ⟨w, ha, -⟩ <;> refine key _ _ ?_ ?_ _ _ _ _ _ _ _ rfl <;>
      simp only [State.offered, State.undrained, h, ha]
  | issues e rest h w i ha hp' => rw [hp] at hp'; cases hp'
  | illegal e rest h w x ha hp' => rw [hp] at hp'; cases hp'
  | writes e rest h width off v r ha hacc hc =>
    cases r <;> refine key _ _ ?_ ?_ _ _ _ _ _ _ _ rfl <;> simp only [State.offered, State.undrained, h, ha] <;> rfl
  | pushes e rest h t ha hroom =>
    refine key _ _ ?_ ?_ _ _ _ _ _ _ _ rfl <;> simp only [State.offered, State.undrained, h, ha, if_pos hroom] <;> rfl
  | pops e rest h v q ha hq =>
    refine key _ _ ?_ ?_ _ _ _ _ _ _ _ rfl <;> simp only [State.offered, State.undrained, h, ha, hq] <;> rfl
  | reads e rest h width off r ha hacc =>
    refine key _ _ ?_ ?_ _ _ _ _ _ _ _ rfl <;> simp only [State.offered, State.undrained, h, ha] <;> rfl
  | drains e rest h ha | polls e rest h ha hd | pollsDone e rest h ha hd =>
    refine key _ _ ?_ ?_ _ _ _ _ _ _ _ rfl <;> simp only [State.offered, State.undrained, h, ha] <;> rfl
  | resets e rest h ha => exact absurd ⟨e.turns, rest, by rw [h, ← ha]⟩ hr

/-! ### The invariant of a running command -/

variable {k : State} (r : RoundRule k) (taken : List Token) (written : List Byte)

/-- Within the rounds, `taken` read and `written` written since acceptance. -/
structure RoundRule.Within (u : State) : Prop where
  operands : u.operands = k.operands
  phase : u.phase = .running
  stage : u.stage = .rounds
  status : u.status = statusAccepted
  result : u.result = k.result
  wf : u.buf.wf = true
  rd_le : u.rd ≤ r.nIn
  wr_le : u.wr ≤ r.nOut
  eos : u.eos = decide (.eos ∈ taken)
  unread : .eos ∉ taken → (tokenBytes taken).length = u.round * r.nIn + u.rd
  past : .eos ∈ taken → (tokenBytes taken).length < u.round * r.nIn + u.rd
  begun : r.rounds = .untilEos → 0 < u.rd → u.round * r.nIn < (tokenBytes taken).length
  last : r.rounds = .untilEos → .eos ∈ taken → 0 < u.rd
  readFirst : r.rounds = .untilEos → 1 ≤ r.nIn → 0 < u.wr → 0 < u.rd
  counted : ∀ n, r.rounds = .count n → u.round ≤ n ∧ (0 < u.rd ∨ 0 < u.wr → u.round < n)
  inCount : u.inCount = BitVec.ofNat 32 (tokenBytes taken).length
  outCount : u.outCount = BitVec.ofNat 32 written.length
  output : ∀ ds, InputGoesOn taken ds →
    written = r.written ds u.round ++ (r.outs (roundBytes r.nIn ds u.round)).take u.wr
  holds : ∀ ds, InputGoesOn taken ds → r.Holds (roundBytes r.nIn ds u.round) u.buf u.hold u.rd u.wr

/-- The rounds are over: what has been read and written. -/
structure RoundRule.Over (u : State) : Prop where
  operands : u.operands = k.operands
  inCount : u.inCount = BitVec.ofNat 32 (tokenBytes taken).length
  outCount : u.outCount = BitVec.ofNat 32 written.length
  output : ∀ ds, InputGoesOn taken ds → written = r.written ds u.round
  uncounted : r.rounds = .untilEos → .eos ∈ taken ∧ 1 ≤ r.nIn ∧
    ∀ g, g < u.round ↔ g * r.nIn < (tokenBytes taken).length
  counted : ∀ n, r.rounds = .count n → u.round = n ∧ (.eos ∉ taken → (tokenBytes taken).length = n * r.nIn)

/-- A command that has read `taken` and written `written` since acceptance: within its rounds, before the RESULT write,
before DONE, or completed (20_memory R64). -/
def RoundRule.Sofar (u : State) : Prop :=
  r.Within taken written u ∨ (r.Over taken written u ∧
    (u.phase = .running ∧ u.stage = .result ∧ u.status = statusAccepted ∧ u.result = k.result ∨
      u.phase = .running ∧ u.stage = .finish ∧ u.status = statusAccepted ∧
        u.result = (r.resultAt u.round).getD k.result ∨
      u.phase = .idle ∧ u.status = 0x2#32 ∧ u.result = (r.resultAt u.round).getD k.result))

variable {r taken written}

/-- What the host does leaves the command's history as it is. -/
theorem RoundRule.Sofar.host {u : State} (h : r.Sofar taken written u) (inQ : List Token) (outQ : List Byte)
    (cfg srcport arg0 arg1 : Word) (turns : List Turn) (script : List HostEvent) (trace : List TraceItem) :
    r.Sofar taken written { u with
      inQ := inQ, outQ := outQ, cfg := cfg, srcport := srcport, arg0 := arg0, arg1 := arg1,
      turns := turns, script := script, trace := trace } := by
  rcases h with h | ⟨h, hs⟩
  · exact .inl ⟨h.operands, h.phase, h.stage, h.status, h.result, h.wf, h.rd_le, h.wr_le, h.eos, h.unread, h.past,
      h.begun, h.last, h.readFirst, h.counted, h.inCount, h.outCount, h.output, h.holds⟩
  · exact .inr ⟨⟨h.operands, h.inCount, h.outCount, h.output, h.uncounted, h.counted⟩, hs⟩

theorem RoundRule.Within.uncounted_eq {u : State} (h : r.Within taken written u) :
    u.uncounted = (r.rounds == .untilEos) := by
  rw [State.uncounted, r.rounds_eq u h.operands]

/-- A counted command whose count is not reached has a round to run. -/
theorem RoundRule.Within.open_of_counted {u : State} (h : r.Within taken written u) (hc : u.countReached = false)
    {n : Nat} (hn : r.rounds = .count n) : u.round < n := by
  obtain ⟨h1, h2⟩ := h.counted n hn
  by_cases hz : 0 < u.rd ∨ 0 < u.wr
  · exact h2 hz
  · have h0 : u.rd = 0 ∧ u.wr = 0 := by omega
    simp only [State.countReached, h0.1, h0.2, (r.rounds_eq u h.operands).trans hn, beq_self_eq_true,
      Bool.true_and, decide_eq_false_iff_not, not_le] at hc
    exact hc

/-- The turn that stops a counted command. -/
theorem RoundRule.Within.stop {u : State} (h : r.Within taken written u) (hc : u.countReached = true) :
    r.Sofar taken written u.stop := by
  refine .inr ⟨?_, .inl ⟨h.phase, rfl, h.status, h.result⟩⟩
  have hr := r.rounds_eq u h.operands
  cases hn : r.rounds with
  | untilEos => simp [State.countReached, hr, hn] at hc
  | count n =>
    simp only [State.countReached, hr, hn, Bool.and_eq_true, beq_iff_eq, decide_eq_true_eq] at hc
    obtain ⟨⟨h0, h1⟩, hle⟩ := hc
    have hround : u.round = n := le_antisymm (h.counted n hn).1 hle
    refine ⟨h.operands, h.inCount, h.outCount, ?_, ?_, ?_⟩
    · intro ds hd
      have := h.output ds hd
      simpa [h1] using this
    · intro hx; rw [hn] at hx; cases hx
    · intro m hm
      rw [hn] at hm; cases hm
      refine ⟨hround, fun he => ?_⟩
      rw [h.unread he, h0, hround, Nat.add_zero]

/-- The turn that ends a round. -/
theorem RoundRule.Within.endRound {u : State} (h : r.Within taken written u) (hc : u.countReached = false)
    (hd : u.roundDone = true) : r.Sofar taken written u.endRound := by
  have hmul : ∀ a b : Nat, (a + 1) * b = a * b + b := fun a b => by ring
  simp only [State.roundDone, r.roundIn_eq u h.operands, r.roundOut_eq u h.operands, Bool.and_eq_true,
    decide_eq_true_eq] at hd
  have hrd : u.rd = r.nIn := le_antisymm h.rd_le hd.1
  have hwr : u.wr = r.nOut := le_antisymm h.wr_le hd.2
  have hout : ∀ ds, InputGoesOn taken ds → written = r.written ds (u.round + 1) := by
    intro ds hds
    have hlen : (r.outs (roundBytes r.nIn ds u.round)).length = r.nOut := r.outs_length _ (by simp)
    rw [h.output ds hds, hwr, ← hlen, List.take_length, r.written_succ]
  by_cases hstop : (u.uncounted && u.eos) = true
  · have hst : u.endRound.stage = .result := by simp [hstop]
    refine .inr ⟨?_, .inl ⟨h.phase, hst, h.status, h.result⟩⟩
    rw [Bool.and_eq_true, h.uncounted_eq, beq_iff_eq, h.eos, decide_eq_true_eq] at hstop
    obtain ⟨hn, he⟩ := hstop
    refine ⟨h.operands, h.inCount, h.outCount, hout, fun _ => ?_, fun n hx => by rw [hn] at hx; cases hx⟩
    have h0 := h.last hn he
    have h1 := h.begun hn h0
    have h2 := h.past he
    refine ⟨he, by omega, fun g => ?_⟩
    show g < u.round + 1 ↔ _
    constructor
    · intro hg
      have : g * r.nIn ≤ u.round * r.nIn := Nat.mul_le_mul_right _ (by omega)
      omega
    · intro hg
      by_contra hge
      have : (u.round + 1) * r.nIn ≤ g * r.nIn := Nat.mul_le_mul_right _ (by omega)
      rw [hmul] at this
      omega
  · have hst : u.endRound.stage = .rounds := by simp [hstop]
    have hne : r.rounds = .untilEos → .eos ∉ taken := by
      intro hn he
      rw [Bool.and_eq_true, h.uncounted_eq, beq_iff_eq, h.eos, decide_eq_true_eq] at hstop
      exact hstop ⟨hn, he⟩
    refine .inl ⟨h.operands, h.phase, hst, h.status, h.result, h.wf, Nat.zero_le _, Nat.zero_le _, h.eos, ?_, ?_, ?_,
      ?_, ?_, ?_, h.inCount, h.outCount, ?_, fun ds _ => r.holds_start _ _ _ h.wf⟩
    · intro he
      show _ = (u.round + 1) * r.nIn + 0
      rw [h.unread he, hmul]; omega
    · intro he
      show _ < (u.round + 1) * r.nIn + 0
      have := h.past he
      rw [hmul]; omega
    · intro _ h0; exact absurd h0 (Nat.lt_irrefl 0)
    · intro hn he; exact absurd he (hne hn)
    · intro _ _ h0; exact absurd h0 (Nat.lt_irrefl 0)
    · intro n hn
      exact ⟨h.open_of_counted hc hn, fun h0 => by simp at h0⟩
    · intro ds hds
      show _ = r.written ds (u.round + 1) ++ List.take 0 _
      rw [← hout ds hds]; simp

/-- The turn that writes a byte. -/
theorem RoundRule.Within.write {u : State} (h : r.Within taken written u) (hc : u.countReached = false)
    (hw : u.canWrite = true) :
    r.Sofar taken (written ++ [u.command.outByte u u.wr]) { u with
      outQ := u.outQ ++ [u.command.outByte u u.wr], outCount := u.outCount + 1#32, wr := u.wr + 1 } := by
  simp only [State.canWrite, r.roundOut_eq u h.operands, Bool.and_eq_true, decide_eq_true_eq] at hw
  obtain ⟨hlt, hneed⟩ := hw
  refine .inl ⟨h.operands, h.phase, h.stage, h.status, h.result, h.wf, h.rd_le, hlt, h.eos, h.unread, h.past, h.begun,
    h.last, ?_, ?_, h.inCount, ?_, ?_, fun ds hds => r.holds_write _ _ _ _ _ (h.holds ds hds) hlt⟩
  · intro hn h1 _
    show 0 < u.rd
    rcases Nat.eq_zero_or_pos u.wr with h0 | h0
    · have := r.first hn h1 u h.operands
      rw [h0] at hneed
      omega
    · exact h.readFirst hn h1 h0
  · exact fun n hn => ⟨(h.counted n hn).1, fun _ => h.open_of_counted hc hn⟩
  · show u.outCount + 1#32 = _
    rw [h.outCount, List.length_append]
    exact (BitVec.ofNat_add _ _).symm
  · intro ds hds
    have hlen : (r.outs (roundBytes r.nIn ds u.round)).length = r.nOut := r.outs_length _ (by simp)
    show written ++ [_] = _ ++ List.take (u.wr + 1) _
    rw [r.out_eq u _ h.operands (by simp) (h.holds ds hds) h.rd_le hlt hneed, List.take_add_one, ← List.append_assoc,
      ← h.output ds hds]
    simp [List.getD_eq_getElem?_getD, List.getElem?_eq_getElem (hlen ▸ hlt)]

/-- The turn that reads a byte or end-of-stream and stores it, given what it has taken from IN. -/
theorem RoundRule.Within.store {u : State} (h : r.Within taken written u) (hc : u.countReached = false)
    (hr : u.canRead = true) (more : List Token) (v : Byte) (q : List Token) (n : Word) (e : Bool)
    (hv : ∀ ds, InputGoesOn (taken ++ more) ds → InputGoesOn taken ds ∧
      ds.getD (u.round * r.nIn + u.rd) 0x00#8 = v)
    (hn : n = BitVec.ofNat 32 (tokenBytes (taken ++ more)).length) (he : e = decide (.eos ∈ taken ++ more))
    (hunread : .eos ∉ taken ++ more → (tokenBytes (taken ++ more)).length = u.round * r.nIn + (u.rd + 1))
    (hpast : .eos ∈ taken ++ more → (tokenBytes (taken ++ more)).length < u.round * r.nIn + (u.rd + 1))
    (hbegun : r.rounds = .untilEos → u.round * r.nIn < (tokenBytes (taken ++ more)).length) :
    r.Sofar (taken ++ more) written (State.putByte { u with inQ := q, inCount := n, eos := e } v) := by
  simp only [State.canRead, r.roundIn_eq u h.operands, Bool.and_eq_true, decide_eq_true_eq] at hr
  obtain ⟨hlt, hmay⟩ := hr
  refine .inl ⟨h.operands, h.phase, h.stage, h.status, h.result, ?_, hlt, h.wr_le, he, hunread, hpast,
    fun hx _ => hbegun hx, fun _ _ => Nat.succ_pos _, fun _ _ _ => Nat.succ_pos _, ?_, hn, h.outCount,
    fun ds hds => h.output ds (hv ds hds).1, ?_⟩
  · exact r.store_wf { u with inQ := q, inCount := n, eos := e } _ h.operands h.wf
  · exact fun m hm => ⟨(h.counted m hm).1, fun _ => h.open_of_counted hc hm⟩
  · intro ds hds
    obtain ⟨h1, h2⟩ := hv ds hds
    have hb := (roundBytes_getD (n := r.nIn) ds u.round hlt).trans h2
    rw [← hb]
    exact r.holds_read u _ _ _ _ h.operands h.wf (by simp) (h.holds ds h1) hlt h.wr_le hmay

/-- The turn that reads end-of-stream where a round would start. -/
theorem RoundRule.Within.readStop {u : State} (h : r.Within taken written u) (hr : u.canRead = true)
    (hu : u.uncounted = true) (h0 : u.rd = 0) (q : List Token) :
    .eos ∉ taken ∧ r.Sofar (taken ++ [.eos]) written (State.stop { u with inQ := q, eos := true }) := by
  rw [h.uncounted_eq, beq_iff_eq] at hu
  simp only [State.canRead, r.roundIn_eq u h.operands, Bool.and_eq_true, decide_eq_true_eq] at hr
  have hn1 : 1 ≤ r.nIn := by omega
  have he : .eos ∉ taken := fun he => by have := h.last hu he; omega
  have hlen := h.unread he
  rw [h0, Nat.add_zero] at hlen
  have hwr : u.wr = 0 := by
    by_contra hne
    have := h.readFirst hu hn1 (by omega)
    omega
  refine ⟨he, .inr ⟨⟨h.operands, ?_, h.outCount, ?_, ?_, ?_⟩, .inl ⟨h.phase, rfl, h.status, h.result⟩⟩⟩
  · show u.inCount = _
    rw [h.inCount]; simp
  · intro ds hds
    have := h.output ds (hds.of_append he)
    simpa [hwr] using this
  · intro _
    refine ⟨by simp, hn1, fun g => ?_⟩
    show g < u.round ↔ _
    rw [tokenBytes_append, tokenBytes_eos, List.append_nil, hlen]
    exact (Nat.mul_lt_mul_right (by omega)).symm
  · intro n hx; rw [hu] at hx; cases hx

/-- A read turn. -/
theorem RoundRule.Within.read {u : State} (h : r.Within taken written u) (hc : u.countReached = false)
    (hr : u.canRead = true) (t : Token) (s' : State) (hi : u.inRead = some (t, s'))
    (hnot : ¬(t = .eos ∧ u.uncounted = true ∧ u.rd = 0)) :
    ∃ more, u.inQ = more ++ s'.inQ ∧ s'.outQ = u.outQ ∧
      r.Sofar (taken ++ more) written (s'.putByte (tokenByte t)) := by
  rcases u.inRead_cases with ⟨he, hx⟩ | ⟨-, -, hx⟩ | ⟨v, q, he, hq, hx⟩ | ⟨q, he, hq, hx⟩ <;> rw [hx] at hi <;>
    cases hi
  · -- end-of-stream again
    rw [h.eos, decide_eq_true_eq] at he
    refine ⟨[], rfl, rfl, ?_⟩
    refine h.store hc hr [] 0x00#8 u.inQ u.inCount u.eos ?_ ?_ ?_ ?_ ?_ ?_ <;> simp only [List.append_nil]
    · intro ds hds
      refine ⟨hds, ?_⟩
      rw [hds.2 he, List.getD_eq_getElem?_getD, List.getElem?_eq_none (h.past he).le]; rfl
    · exact h.inCount
    · exact h.eos
    · exact fun hne => absurd he hne
    · exact fun _ => by have := h.past he; omega
    · exact fun hn => h.begun hn (h.last hn he)
  · -- a byte
    rw [h.eos, decide_eq_false_iff_not] at he
    have hlen := h.unread he
    have he' : .eos ∉ taken ++ [Token.byte v] := by simp [he]
    have hlen' : (tokenBytes (taken ++ [Token.byte v])).length = u.round * r.nIn + (u.rd + 1) := by
      rw [tokenBytes_append, tokenBytes_byte, List.length_append, hlen, Nat.add_assoc]; rfl
    refine ⟨[.byte v], hq, rfl, ?_⟩
    refine h.store hc hr [.byte v] v q (u.inCount + 1#32) u.eos ?_ ?_ ?_ (fun _ => hlen') (fun hx => absurd hx he') ?_
    · exact fun ds hds => ⟨hds.of_append he, hlen ▸ hds.byte.2⟩
    · rw [h.inCount, hlen', hlen]; exact (BitVec.ofNat_add _ _).symm
    · rw [h.eos, decide_eq_false he, decide_eq_false he']
    · intro _; omega
  · -- the end-of-stream token
    rw [h.eos, decide_eq_false_iff_not] at he
    have hlen := h.unread he
    have hin : .eos ∈ taken ++ [Token.eos] := by simp
    have hlen' : (tokenBytes (taken ++ [Token.eos])).length = u.round * r.nIn + u.rd := by
      rw [tokenBytes_append, tokenBytes_eos, List.append_nil, hlen]
    refine ⟨[.eos], hq, rfl, ?_⟩
    refine h.store hc hr [.eos] 0x00#8 q u.inCount true ?_ ?_ ?_ (fun hx => absurd hin hx) (fun _ => by omega) ?_
    · intro ds hds
      refine ⟨hds.of_append he, ?_⟩
      rw [hds.2 hin, List.getD_eq_getElem?_getD, List.getElem?_eq_none (by omega)]; rfl
    · rw [h.inCount, hlen', hlen]
    · exact (decide_eq_true hin).symm
    · intro hn
      rw [hlen']
      rcases Nat.eq_zero_or_pos u.rd with h0 | h0
      · exact absurd ⟨rfl, by rw [h.uncounted_eq, hn]; rfl, h0⟩ hnot
      · omega

/-- One turn. -/
theorem RoundRule.Sofar.turn {u : State} (h : r.Sofar taken written u) (t : Turn) :
    ∃ more new, u.inQ = more ++ (u.turn t).inQ ∧ (u.turn t).outQ = u.outQ ++ new ∧
      r.Sofar (taken ++ more) (written ++ new) (u.turn t) := by
  have still : ∀ v : State, v.inQ = u.inQ → v.outQ = u.outQ → r.Sofar taken written v → ∃ more new,
      u.inQ = more ++ v.inQ ∧ v.outQ = u.outQ ++ new ∧ r.Sofar (taken ++ more) (written ++ new) v :=
    fun v h1 h2 h3 => ⟨[], [], by simp [h1], by simp [h2], by simpa using h3⟩
  rcases h with h | ⟨h, ⟨hp, hs, h1, h2⟩ | ⟨hp, hs, h1, h2⟩ | ⟨hp, h1, h2⟩⟩
  · have he := u.turn_effect t
    generalize u.turn t = v at he ⊢
    cases he with
    | still => exact still _ rfl rfl (.inl h)
    | stop _ _ hc => exact still _ rfl rfl (h.stop hc)
    | endRound _ _ hc hd => exact still _ rfl rfl (h.endRound hc hd)
    | readStop _ _ hc _ hr s' hi hu h0 =>
      have hx := (h.readStop hr hu h0 []).1
      have he : u.eos = false := by rw [h.eos, decide_eq_false_iff_not]; exact hx
      rcases u.inRead_cases with ⟨he', -⟩ | ⟨-, -, hi'⟩ | ⟨_, _, -, -, hi'⟩ | ⟨q, -, hq, hi'⟩
      · rw [he] at he'; cases he'
      all_goals rw [hi'] at hi; cases hi
      exact ⟨[.eos], [], hq, by simp, by simpa using (h.readStop hr hu h0 q).2⟩
    | read _ _ hc _ hr t' s' hi hnot =>
      obtain ⟨more, h1, h2, h3⟩ := h.read hc hr t' s' hi hnot
      exact ⟨more, [], h1, by simpa using h2, by simpa using h3⟩
    | write _ _ hc _ hw _ => exact ⟨[], [_], rfl, rfl, by simpa using h.write hc hw⟩
    | writeResult _ hs => rw [h.stage] at hs; cases hs
    | complete _ hs => rw [h.stage] at hs; cases hs
  · rw [State.turn_result hp hs]
    refine still _ rfl rfl (.inr ⟨⟨h.operands, h.inCount, h.outCount, h.output, h.uncounted, h.counted⟩,
      .inr (.inl ⟨hp, rfl, h1, ?_⟩)⟩)
    show (u.command.result u).getD u.result = _
    rw [r.result_eq u h.operands, h2]
    rfl
  · rw [State.turn_finish hp hs]
    refine still _ rfl rfl (.inr ⟨⟨h.operands, h.inCount, h.outCount, h.output, h.uncounted, h.counted⟩,
      .inr (.inr ⟨rfl, ?_, h2⟩)⟩)
    rw [State.complete_status, h1]
    rfl
  · rw [State.turn_idle hp]
    exact still _ rfl rfl (.inr ⟨h, .inr (.inr ⟨hp, h1, h2⟩)⟩)

/-- Any number of turns. -/
theorem RoundRule.Sofar.runTurns {u : State} (h : r.Sofar taken written u) (ts : List Turn) :
    ∃ more new, u.inQ = more ++ (State.runTurns ts u).inQ ∧ (State.runTurns ts u).outQ = u.outQ ++ new ∧
      r.Sofar (taken ++ more) (written ++ new) (State.runTurns ts u) := by
  induction ts generalizing u taken written with
  | nil => exact ⟨[], [], by simp, by simp, by simpa using h⟩
  | cons t ts ih =>
    rw [State.runTurns_cons]
    obtain ⟨m1, n1, h1, h2, h3⟩ := h.turn t
    obtain ⟨m2, n2, h4, h5, h6⟩ := ih h3
    exact ⟨m1 ++ m2, n1 ++ n2, by rw [h1, h4, List.append_assoc], by rw [h5, h2, List.append_assoc],
      by rw [← List.append_assoc, ← List.append_assoc]; exact h6⟩

/-- Right after acceptance nothing is read or written. -/
theorem RoundRule.sofar_start (r : RoundRule k) (hp : k.phase = .running) (hst : k.stage = .rounds)
    (hstat : k.status = statusAccepted) (hwf : k.buf.wf = true) (he : k.eos = false) (hg : k.round = 0)
    (hrd : k.rd = 0) (hwr : k.wr = 0) (hic : k.inCount = 0#32) (hoc : k.outCount = 0#32) : r.Sofar [] [] k :=
  .inl {
    operands := rfl
    phase := hp
    stage := hst
    status := hstat
    result := rfl
    wf := hwf
    rd_le := by omega
    wr_le := by omega
    eos := by simp [he]
    unread := fun _ => by rw [hg, hrd]; simp
    past := fun hx => by simp at hx
    begun := fun _ hx => by omega
    last := fun _ hx => by simp at hx
    readFirst := fun _ _ hx => by omega
    counted := fun n _ => ⟨by omega, fun hx => by omega⟩
    inCount := hic
    outCount := hoc
    output := fun ds _ => by rw [hg, hwr]; simp [RoundRule.written, streamOut]
    holds := fun ds _ => by rw [hrd, hwr]; exact r.holds_start _ _ _ hwf }

end Sys2Proof.Machine
end

