-- ==== Sys2Proof/Laws/PerInstr.lean ====
section
/-! SUPPORT. What holds of every command, one lemma per command: its CMD word is legal, has the command's OPCODE in
bits 3:0 and zeros above, and is the only word that its OPCODE makes legal (30_encoding R70, R71, R74). -/

namespace Sys2Proof.Laws.WordLegal

/-- The CMD word of a well-formed command is legal, and it is the one legal word with the command's OPCODE. -/
def Statement (i : Instr) : Prop :=
  i.wellFormed = true ∧ CmdWord.wellFormed (encode i) = true ∧ opcodeField (encode i) = opcodeOf i ∧
    ∀ w : Word, CmdWord.reservedOk w = true → opcodeField w = opcodeOf i → w = encode i

/-- A word is its reserved field above its OPCODE field. -/
theorem word_eq (w : Word) : w = reservedField w ++ opcodeField w := by
  apply BitVec.eq_of_getLsbD_eq
  intro i hi
  rw [reservedField, opcodeField, BitVec.getLsbD_append, BitVec.getLsbD_extractLsb', BitVec.getLsbD_extractLsb']
  by_cases h : i < 4
  · simp [h]
  · have h1 : 4 + (i - 4) = i := by omega
    have h2 : i - 4 < 28 := by omega
    simp [h, h1, h2]

/-- The part of the statement that no command's row enters. -/
theorem only_word (i : Instr) (w : Word) (hr : CmdWord.reservedOk w = true) (ho : opcodeField w = opcodeOf i) :
    w = encode i := by
  have h0 : reservedField w = 0#28 := by simpa [CmdWord.reservedOk, reservedField] using hr
  rw [word_eq w, h0, ho]
  rfl

theorem gfMul : Statement .gfMul := ⟨rfl, by decide, by decide, only_word _⟩
theorem gfRed : Statement .gfRed := ⟨rfl, by decide, by decide, only_word _⟩
theorem hamEnc : Statement .hamEnc := ⟨rfl, by decide, by decide, only_word _⟩
theorem hamDec : Statement .hamDec := ⟨rfl, by decide, by decide, only_word _⟩
theorem addHdr : Statement .addHdr := ⟨rfl, by decide, by decide, only_word _⟩
theorem frame : Statement .frame := ⟨rfl, by decide, by decide, only_word _⟩
theorem deframe : Statement .deframe := ⟨rfl, by decide, by decide, only_word _⟩
theorem ilv : Statement .ilv := ⟨rfl, by decide, by decide, only_word _⟩
theorem dilv : Statement .dilv := ⟨rfl, by decide, by decide, only_word _⟩
theorem rsEnc : Statement .rsEnc := ⟨rfl, by decide, by decide, only_word _⟩
theorem rsDec : Statement .rsDec := ⟨rfl, by decide, by decide, only_word _⟩

end Sys2Proof.Laws.WordLegal
end

