-- ==== Sys2Proof/Laws/Progress.lean ====
section
/-! SUPPORT. Every command's rule in one place, in the terms of claims (`exists_rule`); and how far a running command
still is from completion (70_reset R229): a turn that need not wait brings it nearer (`RoundRule.ahead_turn`). -/

namespace Sys2Proof.Machine

theorem streamOut_congr {n : Nat} {f g : List Byte → List Byte} (h : ∀ bs, bs.length = n → f bs = g bs)
    (ds : List Byte) (k : Nat) : streamOut n f ds k = streamOut n g ds k := by
  unfold streamOut
  congr 1
  funext i
  exact h _ (by simp)

/-- What a command's rule says, as the claims say it: the rule `r` of command `i`, latched in `k`, reads, writes and
returns what `roundLength`, `roundOutput`, `roundTotal` and `ruleResult` give for the state `s` in which `i` was
issued. -/
structure RoundRule.Says {k : State} (r : RoundRule k) (i : Instr) (s : State) : Prop where
  nIn : r.nIn = roundLength i s.arg0.toNat
  outs : ∀ bs, bs.length = r.nIn → r.outs bs = roundOutput i s bs
  untilEos : r.rounds = .untilEos → runsUntilEos i = true ∧ ∀ len e, 1 ≤ r.nIn → roundTotal i s len e = roundCount r.nIn len
  counted : ∀ n, r.rounds = .count n → runsUntilEos i = false ∧ ∀ len e, roundTotal i s len e = n
  endless : r.nIn = 0 → r.rounds = .untilEos → i = .frame ∧ s.arg0 = 0#32 ∧ 1 ≤ r.nOut
  result : ∀ g, (r.resultAt g).getD s.result = ruleResult i s g

/-- Every accepted command has a rule. -/
theorem exists_rule {i : Instr} {s : State} (hp : s.params.wellFormed = true)
    (ha : (commandOf i).argOk (s.latchOp i) = true) : ∃ r : RoundRule (s.latchOp i), r.Says i s := by
  have hb : 14 ≤ s.params.bufBytes := by
    simp only [Params.wellFormed, Bool.and_eq_true, decide_eq_true_eq] at hp
    exact hp.1.1
  cases i with
  | gfMul =>
    refine ⟨resultOnlyRule _ .gfMul rfl _ rfl fun u h => by rw [State.operands_a0 h, State.operands_a1 h],
      ⟨rfl, fun _ _ => rfl, nofun, ?_, nofun, fun _ => rfl⟩⟩
    rintro n ⟨⟩; exact ⟨rfl, fun _ _ => rfl⟩
  | gfRed =>
    refine ⟨resultOnlyRule _ .gfRed rfl _ rfl fun u h => by rw [State.operands_a0 h],
      ⟨rfl, fun _ _ => rfl, nofun, ?_, nofun, fun _ => rfl⟩⟩
    rintro n ⟨⟩; exact ⟨rfl, fun _ _ => rfl⟩
  | hamEnc =>
    exact ⟨hamEncRule _ rfl, ⟨rfl, fun _ _ => rfl, fun _ => ⟨rfl, fun _ _ _ => rfl⟩, nofun, nofun, fun _ => rfl⟩⟩
  | hamDec =>
    exact ⟨hamDecRule _ rfl, ⟨rfl, fun _ _ => rfl, fun _ => ⟨rfl, fun _ _ _ => rfl⟩, nofun, nofun, fun _ => rfl⟩⟩
  | addHdr =>
    refine ⟨addHdrRule _ rfl, ⟨rfl, fun _ _ => rfl, nofun, ?_, nofun, fun _ => rfl⟩⟩
    rintro n ⟨⟩; exact ⟨rfl, fun _ _ => rfl⟩
  | frame =>
    refine ⟨frameRule _ rfl (by show 1 ≤ s.params.bufBytes; omega),
      ⟨rfl, fun _ _ => rfl, fun _ => ⟨rfl, fun len e hn => ?_⟩, nofun, fun h0 _ => ⟨rfl, ?_, ?_⟩, fun _ => rfl⟩⟩
    · have hn' : 1 ≤ s.arg0.toNat := hn
      exact if_neg (by omega)
    · exact BitVec.eq_of_toNat_eq h0
    · show 1 ≤ 8 + _; omega
  | deframe =>
    refine ⟨deframeRule _ rfl (by show 9 ≤ s.params.bufBytes; omega),
      ⟨rfl, fun bs hbs => ?_, nofun, ?_, nofun, fun _ => rfl⟩⟩
    · show (if headerMatch (bs.take 8) s.arg0.toNat (hdrBe s.cfg) (lowHalf s.srcport) then _ else _) = _
      rw [headerMatch]
      simp only [Bool.and_eq_true, decide_eq_true_eq, beq_iff_eq]
      have : BitVec.ofNat 16 s.arg0.toNat = s.arg0.extractLsb' 0 16 := by
        apply BitVec.eq_of_toNat_eq; simp
      rw [this]; rfl
    · rintro n ⟨⟩; exact ⟨rfl, fun _ _ => rfl⟩
  | ilv =>
    have hl : 1 ≤ s.arg0.toNat := by
      have ha' : ilvOk s.params.bufBytes s.arg0.toNat = true := ha
      simp only [ilvOk, Bool.and_eq_true, decide_eq_true_eq] at ha'
      exact ha'.1.1
    refine ⟨ilvRule _ rfl hl, ⟨rfl, fun _ _ => rfl, fun _ => ⟨rfl, fun _ _ _ => rfl⟩, nofun, fun h0 => ?_, fun _ => rfl⟩⟩
    have h0' : 7 * s.arg0.toNat = 0 := h0
    omega
  | dilv =>
    refine ⟨dilvRule _ rfl, ⟨rfl, fun _ _ => rfl, fun _ => ⟨rfl, fun _ _ _ => rfl⟩, nofun, fun h0 => ?_, fun _ => rfl⟩⟩
    have h0' : 8 + 7 * s.arg0.toNat = 0 := h0
    omega
  | rsEnc =>
    have hl : 1 ≤ s.arg0.toNat := by
      have ha' : rsEncOk s.params.bufBytes s.arg0.toNat = true := ha
      simp only [rsEncOk, Bool.and_eq_true, decide_eq_true_eq] at ha'
      exact ha'.1
    refine ⟨rsEncRule _ rfl, ⟨rfl, fun bs hbs => ?_, fun _ => ⟨rfl, fun _ _ _ => rfl⟩, nofun, fun h0 => ?_, fun _ => rfl⟩⟩
    · have hbs' : bs.length = 2 * s.arg0.toNat := hbs
      show bs ++ rsParity (bs.take s.arg0.toNat) (bs.drop s.arg0.toNat) = _
      refine congrArg (bs ++ ·) (List.ext_getElem ?_ fun j h1 h2 => ?_)
      · simp [rsParity, hbs']; omega
      · simp at h2
        simp [rsParity, byteAt, List.getD_eq_getElem?_getD]
        rw [List.getElem?_eq_getElem (by omega), List.getElem?_eq_getElem (by omega)]; rfl
    · have h0' : 2 * s.arg0.toNat = 0 := h0
      omega
  | rsDec =>
    have hl : 1 ≤ s.arg0.toNat := by
      have ha' : rsDecOk s.params.bufBytes s.arg0.toNat s.arg1.toNat = true := ha
      simp only [rsDecOk, rsEncOk, Bool.and_eq_true, decide_eq_true_eq] at ha'
      exact ha'.1.1
    refine ⟨rsDecRule _ rfl hl, ⟨rfl, fun _ _ => rfl, nofun, ?_, nofun, fun _ => rfl⟩⟩
    rintro n ⟨⟩; exact ⟨rfl, fun _ _ => rfl⟩

/-- So has every running command whose latched arguments pass its check. -/
theorem exists_rule_of_running {u : State} (hp : u.params.wellFormed = true) (ha : u.command.argOk u = true) :
    ∃ (k : State) (r : RoundRule k), u.operands = k.operands ∧
      (r.nIn = 0 → r.rounds = .untilEos → u.op = .frame ∧ u.a0 = 0#32) := by
  let s : State := { u with
    arg0 := u.a0, arg1 := u.a1, cfg := if u.be then 1#32 else 0#32, srcport := u.sp.setWidth 32 }
  have hbe : hdrBe s.cfg = u.be := by
    show hdrBe (if u.be then 1#32 else 0#32) = u.be
    cases u.be <;> rfl
  have hsp : lowHalf s.srcport = u.sp := by
    show (u.sp.setWidth 32).extractLsb' 0 16 = u.sp
    apply BitVec.eq_of_toNat_eq
    simpa using u.sp.isLt
  have hop : u.operands = (s.latchOp u.op).operands := by
    show _ = (u.params, u.op, u.a0, u.a1, hdrBe s.cfg, lowHalf s.srcport)
    rw [hbe, hsp]; rfl
  have hok : (commandOf u.op).argOk (s.latchOp u.op) = true := by
    rw [State.command] at ha
    generalize u.op = i at ha
    cases i <;> exact ha
  obtain ⟨r, hr⟩ := exists_rule (i := u.op) (s := s) hp hok
  exact ⟨_, r, hop, fun h0 hn => ⟨(hr.endless h0 hn).1, (hr.endless h0 hn).2.1⟩⟩

/-! ### How far a running command is from completion -/

variable {k : State} (r : RoundRule k)

/-- The rounds that may still start: of a counted command those to be counted, of an uncounted one at most one for each
token in IN, and one for end-of-stream. -/
def RoundRule.roundsToRun (inLen : Nat) (eos : Bool) (round : Nat) : Nat :=
  match r.rounds with
  | .untilEos => inLen + (if eos then 0 else 1)
  | .count n => n - round

/-- What is left of the rounds: the accesses of an open round and its end, and the rounds that may still start. -/
def RoundRule.roundsAhead (inLen : Nat) (eos : Bool) (round rd wr : Nat) : Nat :=
  if 0 < rd ∨ 0 < wr then
    r.roundsToRun inLen eos (round + 1) * (r.nIn + r.nOut + 1) + (r.nIn - rd + (r.nOut - wr) + 1)
  else r.roundsToRun inLen eos round * (r.nIn + r.nOut + 1)

/-- How far the command is from completion, if its accesses need not wait and IN gets no further token. -/
def RoundRule.ahead (u : State) : Nat :=
  match u.phase with
  | .idle => 0
  | .running =>
    match u.stage with
    | .rounds => 3 + r.roundsAhead u.inQ.length u.eos u.round u.rd u.wr
    | .result => 2
    | .finish => 1

theorem RoundRule.roundsToRun_untilEos (h : r.rounds = .untilEos) (n : Nat) (e : Bool) (g : Nat) :
    r.roundsToRun n e g = n + (if e then 0 else 1) := by simp only [RoundRule.roundsToRun, h]

theorem RoundRule.roundsToRun_count {m : Nat} (h : r.rounds = .count m) (n : Nat) (e : Bool) (g : Nat) :
    r.roundsToRun n e g = m - g := by simp only [RoundRule.roundsToRun, h]

/-- A token that comes into IN puts completion off by one round, at most. -/
theorem RoundRule.roundsAhead_push (n : Nat) (e : Bool) (g a b : Nat) :
    r.roundsAhead (n + 1) e g a b ≤ r.roundsAhead n e g a b + (r.nIn + r.nOut + 1) := by
  have key : ∀ x, r.roundsToRun (n + 1) e x * (r.nIn + r.nOut + 1) ≤
      r.roundsToRun n e x * (r.nIn + r.nOut + 1) + (r.nIn + r.nOut + 1) := fun x => by
    rw [← Nat.succ_mul]
    refine Nat.mul_le_mul_right _ ?_
    cases h : r.rounds with
    | untilEos => rw [r.roundsToRun_untilEos h, r.roundsToRun_untilEos h]; omega
    | count m => rw [r.roundsToRun_count h, r.roundsToRun_count h]; omega
  have h1 := key g
  have h2 := key (g + 1)
  unfold RoundRule.roundsAhead
  split <;> omega

variable {r}

/-- The command is one that `r` is the rule of, at a place within a round. -/
structure RoundRule.Placed (r : RoundRule k) (u : State) : Prop where
  operands : u.operands = k.operands
  rd_le : u.rd ≤ r.nIn
  wr_le : u.wr ≤ r.nOut
  nIn_pos : r.rounds = .untilEos → 1 ≤ r.nIn

/-- The count is not reached and no round is open, so that there is a round to run. -/
theorem RoundRule.Placed.lt_count {u : State} (h : r.Placed u) (hc : u.countReached = false)
    (h0 : ¬(0 < u.rd ∨ 0 < u.wr)) {n : Nat} (hn : r.rounds = .count n) : u.round < n := by
  have hz : u.rd = 0 ∧ u.wr = 0 := by omega
  simp only [State.countReached, hz.1, hz.2, (r.rounds_eq u h.operands).trans hn, beq_self_eq_true, Bool.true_and,
    decide_eq_false_iff_not, not_le] at hc
  exact hc

/-- Where a round of a counted command starts, one round fewer may start after it. -/
theorem RoundRule.Placed.start {u : State} (h : r.Placed u) (hc : u.countReached = false)
    (h0 : ¬(0 < u.rd ∨ 0 < u.wr)) {n : Nat} (hn : r.rounds = .count n) (m : Nat) (e e' : Bool) (l : Nat) :
    r.roundsToRun l e u.round * m = r.roundsToRun l e' (u.round + 1) * m + m := by
  have := h.lt_count hc h0 hn
  rw [r.roundsToRun_count hn, r.roundsToRun_count hn, ← Nat.succ_mul]
  congr 1
  omega

theorem RoundRule.Placed.endRound {u : State} (h : r.Placed u) (hc : u.countReached = false) (hd : u.roundDone = true) :
    r.roundsAhead u.inQ.length u.eos (u.round + 1) 0 0 < r.roundsAhead u.inQ.length u.eos u.round u.rd u.wr := by
  simp only [State.roundDone, r.roundIn_eq u h.operands, r.roundOut_eq u h.operands, Bool.and_eq_true,
    decide_eq_true_eq] at hd
  have hrd := h.rd_le
  have hwr := h.wr_le
  unfold RoundRule.roundsAhead
  rw [if_neg (by omega)]
  by_cases h0 : 0 < u.rd ∨ 0 < u.wr
  · rw [if_pos h0]; omega
  · rw [if_neg h0]
    cases hn : r.rounds with
    | untilEos => have := h.nIn_pos hn; omega
    | count n => rw [h.start hc h0 hn _ u.eos u.eos]; omega

theorem RoundRule.Placed.write {u : State} (h : r.Placed u) (hc : u.countReached = false) (hw : u.canWrite = true) :
    r.roundsAhead u.inQ.length u.eos u.round u.rd (u.wr + 1) < r.roundsAhead u.inQ.length u.eos u.round u.rd u.wr := by
  simp only [State.canWrite, r.roundOut_eq u h.operands, Bool.and_eq_true, decide_eq_true_eq] at hw
  obtain ⟨hlt, hneed⟩ := hw
  have hrd := h.rd_le
  unfold RoundRule.roundsAhead
  rw [if_pos (.inr (Nat.succ_pos _))]
  by_cases h0 : 0 < u.rd ∨ 0 < u.wr
  · rw [if_pos h0]; omega
  · rw [if_neg h0]
    cases hn : r.rounds with
    | untilEos =>
      have := r.first hn (h.nIn_pos hn) u h.operands
      have hz : u.wr = 0 := by omega
      rw [hz] at hneed
      omega
    | count n => rw [h.start hc h0 hn _ u.eos u.eos]; omega

theorem RoundRule.Placed.read {u : State} (h : r.Placed u) (hc : u.countReached = false) (hr : u.canRead = true)
    {t : Token} {s' : State} (hi : u.inRead = some (t, s')) (hnot : ¬(t = .eos ∧ u.uncounted = true ∧ u.rd = 0)) :
    r.roundsAhead s'.inQ.length s'.eos u.round (u.rd + 1) u.wr <
      r.roundsAhead u.inQ.length u.eos u.round u.rd u.wr := by
  simp only [State.canRead, r.roundIn_eq u h.operands, Bool.and_eq_true, decide_eq_true_eq] at hr
  obtain ⟨hlt, -⟩ := hr
  have hwr := h.wr_le
  unfold RoundRule.roundsAhead
  rw [if_pos (.inl (Nat.succ_pos _))]
  cases hn : r.rounds with
  | count n =>
    have hl : ∀ g, r.roundsToRun s'.inQ.length s'.eos g = r.roundsToRun u.inQ.length u.eos g := fun g => by
      rw [r.roundsToRun_count hn, r.roundsToRun_count hn]
    rw [hl]
    by_cases h0 : 0 < u.rd ∨ 0 < u.wr
    · rw [if_pos h0]; omega
    · rw [if_neg h0, h.start hc h0 hn _ u.eos u.eos]; omega
  | untilEos =>
    have hu : u.uncounted = true := by rw [State.uncounted, r.rounds_eq u h.operands, hn]; rfl
    have fewer : ∀ a b : Nat, a + 1 ≤ b → a * (r.nIn + r.nOut + 1) + (r.nIn + r.nOut + 1) ≤ b * (r.nIn + r.nOut + 1) :=
      fun a b hab => by rw [← Nat.succ_mul]; exact Nat.mul_le_mul_right _ hab
    simp only [r.roundsToRun_untilEos hn]
    rcases u.inRead_cases with ⟨he, hx⟩ | ⟨-, -, hx⟩ | ⟨v, q, he, hq, hx⟩ | ⟨q, he, hq, hx⟩ <;> rw [hx] at hi <;>
      cases hi
    · have h0 : 0 < u.rd := by
        rcases Nat.eq_zero_or_pos u.rd with hz | hz
        · exact absurd ⟨rfl, hu, hz⟩ hnot
        · exact hz
      rw [if_pos (Or.inl h0)]
      omega
    · have := fewer (q.length + (if u.eos then 0 else 1)) (u.inQ.length + (if u.eos then 0 else 1))
        (by rw [hq, List.length_cons]; omega)
      show _ * _ + _ < _
      by_cases h0 : 0 < u.rd ∨ 0 < u.wr
      · rw [if_pos h0]; simp only []; omega
      · rw [if_neg h0]; simp only []; omega
    · have := fewer (q.length + (if true then 0 else 1)) (u.inQ.length + (if u.eos then 0 else 1))
        (by rw [hq, List.length_cons, he]; simp)
      by_cases h0 : 0 < u.rd ∨ 0 < u.wr
      · rw [if_pos h0]; simp only [] at this ⊢; omega
      · rw [if_neg h0]; simp only [] at this ⊢; omega

/-- A turn brings completion nearer, or it changes nothing; and the command stays at a place within a round. -/
theorem RoundRule.Placed.turn {u : State} (h : r.Placed u) (t : Turn) :
    r.Placed (u.turn t) ∧ (r.ahead (u.turn t) < r.ahead u ∨ u.turn t = u) := by
  have he := u.turn_effect t
  have hop := (u.turn_operands t).trans h.operands
  generalize u.turn t = v at he hop ⊢
  have within : ∀ (hp : u.phase = .running) (hs : u.stage = .rounds),
      r.ahead u = 3 + r.roundsAhead u.inQ.length u.eos u.round u.rd u.wr := fun hp hs => by
    simp only [RoundRule.ahead, hp, hs]
  cases he with
  | still => exact ⟨h, .inr rfl⟩
  | stop hp hs _ =>
    refine ⟨⟨hop, h.rd_le, h.wr_le, h.nIn_pos⟩, .inl ?_⟩
    rw [within hp hs]
    simp only [RoundRule.ahead, State.stop_phase, State.stop_stage, hp]
    omega
  | endRound hp hs hc hd =>
    refine ⟨⟨hop, Nat.zero_le _, Nat.zero_le _, h.nIn_pos⟩, .inl ?_⟩
    have hlt := h.endRound hc hd
    rw [within hp hs]
    simp only [RoundRule.ahead, State.endRound_phase, State.endRound_stage, hp]
    split
    · simp only [State.endRound_inQ, State.endRound_eos, State.endRound_round, State.endRound_rd, State.endRound_wr]
      omega
    all_goals omega
  | readStop hp hs _ _ _ s' hi _ _ =>
    obtain ⟨q, n, e, rfl⟩ := State.inRead_eq hi
    refine ⟨⟨hop, h.rd_le, h.wr_le, h.nIn_pos⟩, .inl ?_⟩
    rw [within hp hs]
    simp only [RoundRule.ahead, State.stop_phase, State.stop_stage, hp]
    omega
  | read hp hs hc _ hr t' s' hi hnot =>
    have hlt := h.read hc hr hi hnot
    simp only [State.canRead, r.roundIn_eq u h.operands, Bool.and_eq_true, decide_eq_true_eq] at hr
    obtain ⟨q, n, e, rfl⟩ := State.inRead_eq hi
    simp only [] at hlt
    refine ⟨⟨hop, hr.1, h.wr_le, h.nIn_pos⟩, .inl ?_⟩
    rw [within hp hs]
    simp only [RoundRule.ahead, State.putByte_phase, State.putByte_stage, State.putByte_inQ, State.putByte_eos,
      State.putByte_round, State.putByte_rd, State.putByte_wr, hp, hs]
    omega
  | write hp hs hc _ hw _ =>
    have hlt := h.write hc hw
    simp only [State.canWrite, r.roundOut_eq u h.operands, Bool.and_eq_true, decide_eq_true_eq] at hw
    refine ⟨⟨hop, h.rd_le, hw.1, h.nIn_pos⟩, .inl ?_⟩
    rw [within hp hs]
    simp only [RoundRule.ahead, hp, hs]
    omega
  | writeResult hp hs =>
    refine ⟨⟨hop, h.rd_le, h.wr_le, h.nIn_pos⟩, .inl ?_⟩
    simp [RoundRule.ahead, hp, hs]
  | complete hp hs =>
    refine ⟨⟨hop, h.rd_le, h.wr_le, h.nIn_pos⟩, .inl ?_⟩
    simp [RoundRule.ahead, hp, hs]

/-- A turn of a running command is not idle where no access of the round need wait. -/
theorem RoundRule.Placed.turn_ne {u : State} (h : r.Placed u) (hp : u.phase = .running)
    (hr : u.stage = .rounds → u.countReached = false → u.canRead = true → u.eos = true ∨ u.inQ ≠ [])
    (hw : u.stage = .rounds → u.countReached = false → u.canWrite = true → u.outQ.length < u.params.outDepth)
    (t : Turn) : u.turn t ≠ u := by
  intro he
  have hstage : (u.turn t).stage = u.stage := congrArg State.stage he
  cases hs : u.stage with
  | result => rw [State.turn_result hp hs, hs] at hstage; cases hstage
  | finish => have := congrArg State.phase he; rw [State.turn_finish hp hs, hp] at this; cases this
  | rounds =>
    rw [State.turn_rounds hp hs] at he hstage
    rcases u.roundTurn_cases t with ⟨hc, hx⟩ | ⟨hc, hd, hx⟩ | ⟨hc, hd, hcr, hx⟩ | ⟨hc, hd, hcw, hx⟩ |
      ⟨hc, hd, hcr, hcw, -⟩
    · rw [hx, hs] at hstage; cases hstage
    · have := congrArg State.round (hx.symm.trans he)
      rw [State.endRound_round] at this
      omega
    · have hne := hx.symm.trans he
      unfold State.readTurn at hne
      rcases u.inRead_cases with ⟨-, hi⟩ | ⟨hf, hq, -⟩ | ⟨v, q, -, -, hi⟩ | ⟨q, -, -, hi⟩
      · rw [hi] at hne
        simp only at hne
        split at hne
        · have := congrArg State.stage hne; rw [State.stop_stage, hs] at this; cases this
        · have := congrArg State.rd hne; rw [State.putByte_rd] at this; omega
      · rcases hr hs hc hcr with hx' | hx'
        · rw [hf] at hx'; cases hx'
        · exact hx' hq
      all_goals
        rw [hi] at hne
        simp only at hne
        split at hne
        · have := congrArg State.stage hne; rw [State.stop_stage, hs] at this; cases this
        · have := congrArg State.rd hne; rw [State.putByte_rd] at this; simp at this
    · have hne := hx.symm.trans he
      have hroom := hw hs hc hcw
      rw [State.writeTurn, State.outWrite, if_pos hroom] at hne
      have := congrArg State.wr hne
      simp at this
    · rw [State.roundDone, r.roundIn_eq u h.operands, r.roundOut_eq u h.operands, Bool.and_eq_false_iff,
        decide_eq_false_iff_not, decide_eq_false_iff_not] at hd
      rw [State.canRead, r.roundIn_eq u h.operands, Bool.and_eq_false_iff, decide_eq_false_iff_not] at hcr
      rw [State.canWrite, r.roundOut_eq u h.operands, Bool.and_eq_false_iff, decide_eq_false_iff_not,
        decide_eq_false_iff_not] at hcw
      rcases r.live u h.operands h.rd_le h.wr_le (by tauto) with ⟨h1, h2⟩ | ⟨h1, h2⟩
      · rcases hcr with hx' | hx'
        · exact hx' h1
        · rw [h2] at hx'; cases hx'
      · rcases hcw with hx' | hx'
        · exact hx' h1
        · exact hx' h2

/-- Turns never put completion off. -/
theorem RoundRule.Placed.runTurns {u : State} (h : r.Placed u) (ts : List Turn) :
    r.Placed (State.runTurns ts u) ∧ r.ahead (State.runTurns ts u) ≤ r.ahead u := by
  induction ts generalizing u with
  | nil => exact ⟨h, Nat.le_refl _⟩
  | cons t ts ih =>
    rw [State.runTurns_cons]
    obtain ⟨h1, h2⟩ := h.turn t
    obtain ⟨h3, h4⟩ := ih h1
    refine ⟨h3, h4.trans ?_⟩
    rcases h2 with h2 | h2
    · exact h2.le
    · rw [h2]

end Sys2Proof.Machine
end

