-- ==== Sys2Proof/Tests/Slice0.lean ====
section
/-! SUPPORT. The model's own tests. Expected results are those of spec/95_test_vectors.md, named by their ids there.
Then one witness for the hypotheses of each statement that has any. -/

open Sys2Proof Sys2Proof.Machine

namespace Sys2Proof.Tests

/-! ### Well-formedness: what each check refuses -/

/-- 30_encoding R74: a reserved bit is 1, at both ends of the field. -/
theorem test_reserved_bits_ill_formed :
    CmdWord.wellFormed 0x00000011#32 = false ∧ CmdWord.wellFormed 0x80000001#32 = false := by decide

/-- 30_encoding R74: the five reserved opcodes. -/
theorem test_reserved_opcodes_ill_formed :
    [0x0#32, 0xC#32, 0xD#32, 0xE#32, 0xF#32].all (fun w => !CmdWord.wellFormed w) = true := by decide

/-- 20_memory R51: an access of 16 bits, one at offset 2, one at offset 0x24. -/
theorem test_accesses_ill_formed :
    Access.widthOk 16 = false ∧ Access.alignedOk 0x02 = false ∧ Access.mappedOk 0x24 = false ∧
    Access.wellFormed 8 0x04 = false ∧ Access.wellFormed 32 0x06 = false ∧ Access.wellFormed 32 0x24 = false ∧
    Access.wellFormed 32 0x20 = true := by decide

/-- 00_scope R5: parameters below each bound. -/
theorem test_parameters_ill_formed :
    Params.wellFormed ⟨13, 1, 1, 0#16, 0⟩ = false ∧ Params.wellFormed ⟨14, 0, 1, 0#16, 0⟩ = false ∧
    Params.wellFormed ⟨14, 1, 0, 0#16, 0⟩ = false ∧ Params.wellFormed ⟨14, 1, 1, 0#16, 0⟩ = true := by decide

/-- 30_encoding R70: a command has no field that could be ill formed; its word has, and the checks agree. -/
theorem test_command_words_well_formed :
    ∀ i ∈ [Instr.gfMul, .gfRed, .hamEnc, .hamDec, .addHdr, .frame, .deframe, .ilv, .dilv, .rsEnc, .rsDec],
      i.wellFormed = true ∧ CmdWord.wellFormed (encode i) = true := by decide

/-! ### Decoding: the words of 30_encoding R71, bit by bit -/

theorem test_decode_gf_mul : decode 0b00000000000000000000000000000001#32 = .ok .gfMul := by decide

theorem test_decode_gf_red : decode 0b00000000000000000000000000000010#32 = .ok .gfRed := by decide

theorem test_decode_ham_enc : decode 0b00000000000000000000000000000011#32 = .ok .hamEnc := by decide

theorem test_decode_ham_dec : decode 0b00000000000000000000000000000100#32 = .ok .hamDec := by decide

theorem test_decode_add_hdr : decode 0b00000000000000000000000000000101#32 = .ok .addHdr := by decide

theorem test_decode_frame : decode 0b00000000000000000000000000000110#32 = .ok .frame := by decide

theorem test_decode_deframe : decode 0b00000000000000000000000000000111#32 = .ok .deframe := by decide

theorem test_decode_ilv : decode 0b00000000000000000000000000001000#32 = .ok .ilv := by decide

theorem test_decode_dilv : decode 0b00000000000000000000000000001001#32 = .ok .dilv := by decide

theorem test_decode_rs_enc : decode 0b00000000000000000000000000001010#32 = .ok .rsEnc := by decide

theorem test_decode_rs_dec : decode 0b00000000000000000000000000001011#32 = .ok .rsDec := by decide

theorem test_decode_rejects :
    decode 0b00000000000000000000000000000000#32 = .error .reservedOpcode ∧
    decode 0b00000000000000000000000000001100#32 = .error .reservedOpcode ∧
    decode 0b00000000000000000000000000001111#32 = .error .reservedOpcode ∧
    decode 0b00000000000000000000000000010001#32 = .error .reservedBits ∧
    decode 0b10000000000000000000000000000001#32 = .error .reservedBits := by decide

theorem test_decodeTableWord :
    decodeTableWord 32 0x0B = some .rsDec ∧ decodeTableWord 32 0x0C = none ∧ decodeTableWord 32 0x15 = none := by
  decide

/-! ### Single instructions, on a small block -/

/-- Whether an outcome is a next state of which `f` holds. -/
def ends (o : Host.Outcome State Fault Refusal) (f : State → Bool) : Bool :=
  match o with
  | .next t => f t
  | _ => false

/-- 64 turns, alternately preferring a read and a write. -/
def mixed : List Turn := (List.replicate 32 [Turn.read, .write]).flatten

/-- The block of the vectors: SRC_PORT 0x1234, HDR_BE 1, the smallest BUF, the given arguments, and in IN the given
bytes and then `tail`. -/
def block (arg0 arg1 : Word) (input : List Byte) (tail : List Token) : State :=
  { State.powerUp ⟨14, 64, 64, 0x1234#16, 0⟩ with
    arg0 := arg0, arg1 := arg1, result := 0x77#32, inQ := input.map .byte ++ tail, turns := mixed }

/-- The command has completed without an error, with these RESULT, OUT, IN_COUNT and what is left in IN. -/
def completed (result : Word) (out : List Byte) (inCount : Word) (left : List Token) (t : State) : Bool :=
  t.status == 0x2#32 && t.phase == .idle && t.result == result && t.outQ == out &&
    t.outCount == BitVec.ofNat 32 out.length && t.inCount == inCount && t.inQ == left

/-- The command has ended with ERR_ARG and done nothing else. -/
def argError (left : List Token) (t : State) : Bool :=
  t.status == 0x6#32 && t.phase == .idle && t.result == 0x77#32 && t.outQ == [] && t.outCount == 0#32 &&
    t.inCount == 0#32 && t.inQ == left

/-- A byte sequence. -/
def bytes (bs : List Nat) : List Byte := bs.map (BitVec.ofNat 8)

/-- The header of the vectors, HDR_BE 1, for a length below 256. -/
def head (l : Byte) : List Byte := [0x12#8, 0x34#8, 0xFF#8, 0xFF#8, 0x00#8, l, 0x00#8, 0x00#8]

/-- V-G16: bits 31:8 of the operands are ignored. -/
theorem test_gf_mul :
    ends (exec .gfMul (block 0x102#32 0x80#32 [] [.eos])) (completed 0x1D#32 [] 0#32 [.eos]) = true :=
      by decide +kernel

/-- V-G6. -/
theorem test_gf_mul_reduces :
    ends (exec .gfMul (block 0x53#32 0xCA#32 [] [])) (completed 0x8F#32 [] 0#32 []) = true := by decide +kernel

/-- V-G31: bits 31:16 are ignored, bit 15 is not. -/
theorem test_gf_red :
    ends (exec .gfRed (block 0x1234FFFF#32 0#32 [] [])) (completed 0x3B#32 [] 0#32 []) = true := by decide +kernel

/-- V-G23. -/
theorem test_gf_red_generator :
    ends (exec .gfRed (block 0x11D#32 0#32 [] [])) (completed 0x0#32 [] 0#32 []) = true := by decide +kernel

/-- V-H31: a padded last round. -/
theorem test_ham_enc :
    ends (exec .hamEnc (block 0#32 0#32 (bytes [0x01, 0x02, 0x03, 0x04, 0x05]) [.eos]))
      (completed 0x77#32 (bytes [0x01, 0x02, 0x03, 0x04, 0x07, 0x06, 0x05, 0x05, 0x00, 0x00, 0x00, 0x05, 0x05,
      0x00]) 5#32 []) = true := by decide +kernel

/-- V-H33: the tokens after the first EOS stay in IN. -/
theorem test_ham_enc_leaves_tokens :
    ends (exec .hamEnc (block 0#32 0#32 (bytes [0x12, 0x34, 0x56, 0x78]) [.eos, .byte 0x01#8, .eos]))
      (completed 0x77#32 (bytes [0x12, 0x34, 0x56, 0x78, 0x5E, 0x3C, 0x1A]) 4#32 [.byte 0x01#8, .eos]) = true :=
      by decide +kernel

/-- V-H35: the padding of a short round is corrected against. -/
theorem test_ham_dec :
    ends (exec .hamDec (block 0#32 0#32 (bytes [0x01, 0x02, 0x03, 0x04, 0x07, 0x06, 0x05, 0x07, 0x00]) [.eos]))
      (completed 0x77#32 (bytes [0x01, 0x02, 0x03, 0x04, 0x00, 0x00, 0x00, 0x00]) 9#32 []) = true := by decide +kernel

/-- V-H18: one error in each of two lanes. -/
theorem test_ham_dec_corrects :
    ends (exec .hamDec (block 0#32 0#32 (bytes [0x13, 0xB4, 0x56, 0x78, 0x5E, 0x3C, 0x1A]) [.eos]))
      (completed 0x77#32 (bytes [0x12, 0x34, 0x56, 0x78]) 7#32 []) = true := by decide +kernel

/-- V-F4: HDR_BE 0. -/
theorem test_add_hdr :
    ends (exec .addHdr { block 0x102#32 0#32 [] [] with cfg := 0#32 })
      (completed 0x77#32 (bytes [0x34, 0x12, 0xFF, 0xFF, 0x02, 0x01, 0x00, 0x00]) 0#32 []) = true := by decide +kernel

/-- V-F6: L = 5. -/
theorem test_add_hdr_refuses :
    ends (exec .addHdr (block 5#32 0#32 [] [.eos])) (argError [.eos]) = true := by decide +kernel

/-- V-F7b: L = 1, HDR_BE 0. -/
theorem test_frame :
    ends (exec .frame { block 1#32 0#32 (bytes [0x5A, 0x5B]) [.eos] with cfg := 0#32 })
      (completed 2#32 (bytes [0x34, 0x12, 0xFF, 0xFF, 0x01, 0x00, 0x00, 0x00, 0x5A, 0x34, 0x12, 0xFF, 0xFF, 0x01,
      0x00, 0x00, 0x00, 0x5B]) 2#32 []) = true := by decide +kernel

/-- V-F8: L = 5 leaves IN alone. -/
theorem test_frame_refuses :
    ends (exec .frame (block 5#32 0#32 (bytes [0x01, 0x02]) [.eos])) (argError [.byte 0x01#8, .byte 0x02#8,
      .eos]) = true := by decide +kernel

/-- V-F11: the second frame is all padding, and dropped. -/
theorem test_deframe :
    ends (exec .deframe (block 8#32 2#32 (head 0x08#8 ++ (bytes [0x01, 0x02, 0x03])) [.eos]))
      (completed 0x77#32 ((bytes [0x01, 0x02, 0x03]) ++ List.replicate 13 0x00#8) 11#32 []) = true :=
      by decide +kernel

/-- V-F11f: the counted command leaves the EOS in IN. -/
theorem test_deframe_leaves_eos :
    ends (exec .deframe (block 8#32 1#32 (head 0x08#8 ++ (bytes [0x01, 0x02, 0x03, 0x04, 0x05, 0x06, 0x07,
      0x08])) [.eos]))
      (completed 0x77#32 (bytes [0x01, 0x02, 0x03, 0x04, 0x05, 0x06, 0x07, 0x08]) 16#32 [.eos]) = true :=
      by decide +kernel

/-- V-F12. -/
theorem test_ilv :
    ends (exec .ilv (block 2#32 0#32 (bytes [0x01, 0x02, 0x03, 0x04, 0x07, 0x06, 0x05, 0x05, 0x06, 0x07, 0x08, 0x0B,
      0x0A, 0x09]) [.eos]))
      (completed 14#32 (head 0x0E#8 ++ (bytes [0x01, 0x05, 0x02, 0x06, 0x03, 0x07, 0x04, 0x08, 0x07, 0x0B, 0x06,
      0x0A, 0x05, 0x09])) 14#32 []) = true := by decide +kernel

/-- 95 section 2.8: with BUF_BYTES = 14, L = 3 does not fit. -/
theorem test_ilv_refuses :
    ends (exec .ilv (block 3#32 0#32 [] [.eos])) (argError [.eos]) = true := by decide +kernel

/-- V-F16: the header is not validated. -/
theorem test_dilv :
    ends (exec .dilv (block 2#32 0#32 ((bytes [0xED, 0x34, 0xFF, 0xFF, 0x00, 0x0E, 0x00, 0x00]) ++
      (bytes [0x01, 0x05, 0x02, 0x06, 0x03, 0x07, 0x04, 0x08, 0x07, 0x0B, 0x06, 0x0A, 0x05, 0x09])) [.eos]))
      (completed 0x77#32 (bytes [0x01, 0x02, 0x03, 0x04, 0x07, 0x06, 0x05, 0x05, 0x06, 0x07, 0x08, 0x0B, 0x0A,
      0x09]) 22#32 []) = true := by decide +kernel

/-- V-F17: an input that ends inside the header. -/
theorem test_dilv_short :
    ends (exec .dilv (block 2#32 0#32 (bytes [0x12, 0x34, 0x56]) [.eos]))
      (completed 0x77#32 (List.replicate 14 0x00#8) 3#32 []) = true := by decide +kernel

/-- V-R1a. -/
theorem test_rs_enc :
    ends (exec .rsEnc (block 2#32 0#32 (bytes [0x01, 0x02, 0x03, 0x04, 0x05, 0x06, 0x07, 0x08]) [.eos]))
      (completed 6#32 (bytes [0x01, 0x02, 0x03, 0x04, 0x03, 0x08, 0x05, 0x06, 0x07, 0x08, 0x1B,
      0x30]) 8#32 []) = true := by decide +kernel

/-- 95 section 2.8: with BUF_BYTES = 14, p = 8 does not fit. -/
theorem test_rs_enc_refuses :
    ends (exec .rsEnc (block 8#32 0#32 [] [.eos])) (argError [.eos]) = true := by decide +kernel

/-- V-R3 and V-R7 in one: payload 0 erased in the first group, the second group after EOS. -/
theorem test_rs_dec_recovers :
    ends (exec .rsDec (block 2#32 6#32 (bytes [0x00, 0x00, 0x33, 0x44, 0x24, 0xE0]) [.eos]))
      (completed 0x77#32 (bytes [0x17, 0xA4, 0x33, 0x44, 0x00, 0x00, 0x00, 0x00]) 6#32 []) = true := by decide +kernel

/-- V-R4a: both data payloads erased, the first branch. -/
theorem test_rs_dec_order :
    ends (exec .rsDec (block 2#32 3#32 (bytes [0x00, 0x00, 0x00, 0x00, 0x24, 0xE0]) []))
      (completed 0x77#32 (bytes [0x24, 0xE0, 0x00, 0x00]) 6#32 []) = true := by decide +kernel

/-! ### The machine -/

/-- 30_encoding R72, 70_reset R220: the first command after reset, whatever the OPEN parameters. -/
theorem test_first_step_after_reset :
    ends (step (State.reset.withFetchWord 32 0x01)) (fun t => t.op == .gfMul && t.status == 0x2#32) = true := by
  decide +kernel

/-- V-E5: ERR_OPC is tested first. -/
theorem test_illegal_word :
    ends (step { block 5#32 0#32 [] [] with script := [⟨.write 32 0x00 0x15#32, mixed⟩] })
      (fun t => t.status == 0xA#32 && t.outQ == []) = true := by decide +kernel

/-- 20_memory R51: each refusal by its name. -/
theorem test_access_refusals :
    (∀ s : State, s.hostRead 16 0x04 = .refused .accessWidth) ∧
    (∀ s : State, s.hostRead 32 0x05 = .refused .accessMisaligned) ∧
    ∀ s : State, s.hostWrite 32 0x24 0#32 = .refused .accessUnmapped :=
  ⟨fun _ => rfl, fun _ => rfl, fun _ => rfl⟩

/-- V-E8: CMD reads as 0. -/
theorem test_cmd_reads_zero :
    ends (step { block 0#32 0#32 [] [] with script := [⟨.read 32 0x00, []⟩] })
      (fun t => t.trace == [.value 0#32] && t.script == []) = true := by decide +kernel

/-- 70_reset R229: a host that waits, with no turns named, does not stop the block: WAIT after GF_MUL's RESULT write, and
a removal from an empty OUT while HAM_ENC reads. -/
theorem test_waiting_host_gives_a_turn :
    ends (step { block 0#32 0#32 [] [] with
        phase := .running, op := .gfMul, status := 0x1#32, stage := .finish, turns := [], script := [⟨.wait, []⟩] })
      (fun t => t.phase == .idle && t.status == 0x2#32 && t.script == [⟨.wait, []⟩]) = true ∧
    ends (step { block 0#32 0#32 [0x5A#8] [] with
        phase := .running, op := .hamEnc, status := 0x1#32, turns := [], script := [⟨.pop, []⟩] })
      (fun t => t.inQ == [] && t.rd == 1 && t.script == [⟨.pop, []⟩]) = true := by decide +kernel

/-- The guard of `advance`: a state that no run reaches, ILV running with a round larger than BUF. -/
theorem test_buf_range :
    { block 0#32 0#32 [] [] with phase := .running, op := .ilv, a0 := 3#32 }.advance = .fault .bufRange := by rfl

/-! ### Witnesses: each statement's hypotheses are met together -/

/-- An outcome that is a next state names one. -/
theorem next_of {o : Host.Outcome State Fault Refusal} (h : ends o (fun _ => true) = true) : ∃ t, o = .next t := by
  cases o with
  | next t => exact ⟨t, rfl⟩
  | fault _ => cases h
  | refused _ => cases h

/-- It answers a next state of which `f` holds. -/
theorem next_and {o : Host.Outcome State Fault Refusal} {f : State → Bool} (h : ends o f = true) :
    ∃ t, o = .next t ∧ f t = true := by
  cases o with
  | next t => exact ⟨t, rfl, h⟩
  | fault _ => cases h
  | refused _ => cases h

/-- The block of the witnesses: in range of everything, with the given number of turns. -/
def idle (n : Nat) (arg0 arg1 : Word) (inQ : List Token) : State :=
  { State.powerUp ⟨14, 64, 64, 0x1234#16, 0⟩ with
    arg0 := arg0, arg1 := arg1, result := 0x77#32, inQ := inQ, outQ := [0xEE#8], turns := List.replicate n .read }

/-- `idle` is ready. -/
theorem idle_ready (n : Nat) (arg0 arg1 : Word) (inQ : List Token) : Ready n (idle n arg0 arg1 inQ) :=
  ⟨rfl, rfl, rfl, by simp [idle]⟩

/-- The reserved fields of the registers' values below are 0. -/
theorem reserved_zero :
    (0x0#32).extractLsb' 4 28 = 0#28 ∧ (0x1#32).extractLsb' 4 28 = 0#28 ∧ (0x2#32).extractLsb' 4 28 = 0#28 ∧
    (0x1#32).extractLsb' 1 31 = 0#31 ∧ ((0x1234#16).setWidth 32).extractLsb' 16 16 = 0#16 := by decide +kernel

/-- `idle` with any host events meets the invariant, if IN is not over-full. -/
theorem idle_inv (n : Nat) (arg0 arg1 : Word) (inQ : List Token) (script : List HostEvent) (h : inQ.length ≤ 64) :
    Inv { idle n arg0 arg1 inQ with script := script } where
  params := rfl
  status := ⟨by simp [idle, State.powerUp, statusBusy], by simp [idle, State.powerUp, statusBusy],
    by simp [idle, State.powerUp, statusErrArg], by simp [idle, State.powerUp, statusErrArg, statusErrOpc],
    reserved_zero.1⟩
  config := ⟨reserved_zero.2.2.2.1, reserved_zero.2.2.2.2⟩
  ports := ⟨h, by simp [idle, State.powerUp]⟩
  buf := ⟨rfl, rfl⟩
  round := ⟨nofun, nofun, nofun⟩

/-- A HAM_ENC that has just been accepted and waits for its first byte. -/
def busy (script : List HostEvent) : State :=
  { idle 0 0#32 0#32 [] with phase := .running, op := .hamEnc, status := 0x1#32, script := script }

/-- `busy` meets the invariant. -/
theorem busy_inv (script : List HostEvent) : Inv (busy script) where
  params := rfl
  status := ⟨by simp [busy, statusBusy], by simp [busy, statusBusy, statusDone], by simp [busy, statusErrArg],
    by simp [busy, statusErrArg, statusErrOpc], reserved_zero.2.1⟩
  config := ⟨reserved_zero.2.2.2.1, reserved_zero.2.2.2.2⟩
  ports := ⟨Nat.zero_le _, by simp [busy, idle, State.powerUp]⟩
  buf := ⟨rfl, rfl⟩
  round := ⟨fun _ => rfl, fun _ => Nat.zero_le _, fun _ => Nat.zero_le _⟩

/-- Three bytes and EOS. -/
def short : List Token := [.byte 0x01#8, .byte 0x02#8, .byte 0x03#8, .eos]

theorem witness_DecodeOfEncodeIsTheCommand : Instr.wellFormed .rsDec = true := rfl

theorem witness_StepRunsTheDecodedCommand :
    ∃ (s : State) (w : Word) (i : Instr) (ts : List Turn) (rest : List HostEvent),
      s.script = { act := .write 32 0x00 w, turns := ts } :: rest ∧ decode w = .ok i ∧ i.wellFormed = true :=
  ⟨{ idle 0 0#32 0#32 [] with script := [⟨.write 32 0x00 0x1#32, mixed⟩] }, 0x1#32, .gfMul, mixed, [], rfl, rfl, rfl⟩

theorem witness_CommandWriteWhileRunningIsIgnored : (busy []).phase = .running := rfl

/-- Both clauses, at the ends of the reserved field and for each reserved opcode. -/
theorem witness_IllegalWordEndsWithErrOpc :
    (∀ w ∈ [0x00000010#32, 0x80000000#32, 0x00000011#32], w.extractLsb' 4 28 ≠ 0#28) ∧
    (∀ w ∈ [0x0#32, 0xC#32, 0xD#32, 0xE#32, 0xF#32], w.extractLsb' 0 4 ∈ [0x0#4, 0xC#4, 0xD#4, 0xE#4, 0xF#4]) ∧
    ∀ w ts, ∃ s : State, s.phase = .idle ∧ s.script = { act := .write 32 0x00 w, turns := ts } :: [] := by
  refine ⟨by simp, by simp, fun w ts => ?_⟩
  exact ⟨{ idle 0 0#32 0#32 [] with script := [⟨.write 32 0x00 w, ts⟩] }, rfl, rfl⟩

/-- The first clause, at the bounds of each argument check (BUF_BYTES = 14). -/
theorem witness_ErrArgExactlyOnABadArgument_bad :
    (∀ l ∈ [2#32, 7#32, 65536#32], ArgumentBad .addHdr (idle 0 l 0#32 []) ∧ ArgumentBad .frame (idle 0 l 0#32 [])) ∧
    (∀ l ∈ [0#32, 3#32, 9363#32], ArgumentBad .ilv (idle 0 l 0#32 []) ∧ ArgumentBad .dilv (idle 0 l 0#32 [])) ∧
    (∀ p ∈ [0#32, 8#32], ArgumentBad .rsEnc (idle 0 p 0#32 []) ∧ ArgumentBad .rsDec (idle 0 p 0#32 [])) ∧
    ArgumentBad .rsDec (idle 0 1#32 1#32 []) := by
  simp [ArgumentBad, idle, State.powerUp]

/-- The second clause, at the same bounds; with a next state for its last premise. -/
theorem witness_ErrArgExactlyOnABadArgument_good :
    (∀ l ∈ [0#32, 1#32, 8#32, 65535#32], ¬ArgumentBad .addHdr (idle 0 l 0#32 []) ∧
      ¬ArgumentBad .frame (idle 0 l 0#32 [])) ∧
    (∀ l ∈ [1#32, 2#32], ¬ArgumentBad .ilv (idle 0 l 0#32 []) ∧ ¬ArgumentBad .dilv (idle 0 l 0#32 [])) ∧
    (∀ p ∈ [1#32, 7#32], ¬ArgumentBad .rsEnc (idle 0 p 0#32 []) ∧ ¬ArgumentBad .rsDec (idle 0 p 3#32 [])) ∧
    (∀ i ∈ [Instr.gfMul, .gfRed, .hamEnc, .hamDec, .deframe], ¬ArgumentBad i (idle 0 5#32 5#32 [])) ∧
    ∃ t, exec .addHdr (idle 20 8#32 0#32 []) = .next t :=
  ⟨by simp [ArgumentBad, idle, State.powerUp], by simp [ArgumentBad, idle, State.powerUp],
    by simp [ArgumentBad, idle, State.powerUp], by simp [ArgumentBad], next_of (by decide +kernel)⟩

theorem witness_AcceptanceLatchesAndStarts :
    Ready 0 (idle 0 8#32 0#32 short) ∧ (idle 0 8#32 0#32 short).turns = [] ∧
      ¬ArgumentBad .frame (idle 0 8#32 0#32 short) :=
  ⟨idle_ready _ _ _ _, rfl, by simp [ArgumentBad, idle]⟩

theorem witness_GfMulWritesTheProduct : Ready 3 (idle 3 2#32 0x80#32 []) := idle_ready _ _ _ _

theorem witness_GfRedWritesTheRemainder : Ready 3 (idle 3 0xFFFF#32 0#32 []) := idle_ready _ _ _ _

/-- An input that ends in a round, and an empty one. -/
theorem witness_HamEncEncodesTheInput :
    (Ready (12 * roundCount 4 3 + 3) (idle 15 0#32 0#32 short) ∧ (idle 15 0#32 0#32 short).inQ =
      [0x01#8, 0x02#8, 0x03#8].map .byte ++ .eos :: [] ∧ 1 + 7 * roundCount 4 3 ≤ 64) ∧
    Ready (12 * roundCount 4 0 + 3) (idle 3 0#32 0#32 [.eos]) ∧
      (idle 3 0#32 0#32 [.eos]).inQ = ([] : List Byte).map .byte ++ .eos :: [] :=
  ⟨⟨idle_ready _ _ _ _, rfl, by decide⟩, idle_ready _ _ _ _, rfl⟩

theorem witness_HamDecDecodesTheInput :
    (Ready (12 * roundCount 7 3 + 3) (idle 15 0#32 0#32 short) ∧ (idle 15 0#32 0#32 short).inQ =
      [0x01#8, 0x02#8, 0x03#8].map .byte ++ .eos :: [] ∧ 1 + 4 * roundCount 7 3 ≤ 64) ∧
    Ready (12 * roundCount 7 0 + 3) (idle 3 0#32 0#32 [.eos]) ∧
      (idle 3 0#32 0#32 [.eos]).inQ = ([] : List Byte).map .byte ++ .eos :: [] :=
  ⟨⟨idle_ready _ _ _ _, rfl, by decide⟩, idle_ready _ _ _ _, rfl⟩

theorem witness_AddHdrWritesOneHeader :
    Ready 12 (idle 12 65535#32 0#32 [.eos]) ∧ ¬ArgumentBad .addHdr (idle 12 65535#32 0#32 [.eos]) ∧
      (idle 12 65535#32 0#32 [.eos]).outQ.length + 8 ≤ (idle 12 65535#32 0#32 [.eos]).params.outDepth :=
  ⟨idle_ready _ _ _ _, by simp [ArgumentBad, idle], by decide⟩

/-- L = 1, the least length that completes, and L = 8. -/
theorem witness_FrameFramesTheInput :
    (Ready ((2 * 1 + 9) * roundCount 1 3 + 3) (idle 36 1#32 0#32 short) ∧
      ¬ArgumentBad .frame (idle 36 1#32 0#32 short) ∧
      (idle 36 1#32 0#32 short).inQ = [0x01#8, 0x02#8, 0x03#8].map .byte ++ .eos :: [] ∧
      1 + (8 + 1) * roundCount 1 3 ≤ 64) ∧
    Ready ((2 * 8 + 9) * roundCount 8 3 + 3) (idle 28 8#32 0#32 short) ∧
      ¬ArgumentBad .frame (idle 28 8#32 0#32 short) ∧ 1 + (8 + 8) * roundCount 8 3 ≤ 64 :=
  ⟨⟨idle_ready _ _ _ _, by simp [ArgumentBad, idle], rfl, by decide⟩, idle_ready _ _ _ _,
    by simp [ArgumentBad, idle], by decide⟩

/-- Enough bytes and no EOS (L = 1, N = 1, exactly 9 bytes); and an EOS before the end. -/
theorem witness_DeframeStripsItsFrames :
    (Ready ((2 * 1 + 9) * 1 + 3) (idle 14 1#32 1#32 ((head 0x01#8 ++ [0x5A#8]).map .byte ++ [])) ∧
      1 * (8 + 1) ≤ (head 0x01#8 ++ [0x5A#8]).length ∧ 1 + 1 * 1 ≤ 64) ∧
    Ready ((2 * 1 + 9) * 1 + 3) (idle 14 1#32 1#32 ([0x01#8, 0x02#8, 0x03#8].map .byte ++ [.eos])) ∧
      ∃ rest, [Token.eos] = .eos :: rest :=
  ⟨⟨idle_ready _ _ _ _, by decide, by decide⟩, idle_ready _ _ _ _, [], rfl⟩

theorem witness_IlvInterleavesTheInput :
    ¬ArgumentBad .ilv (idle 40 2#32 0#32 short) ∧
      Ready ((14 * 2 + 9) * roundCount (7 * 2) 3 + 3) (idle 40 2#32 0#32 short) ∧
      (idle 40 2#32 0#32 short).inQ = [0x01#8, 0x02#8, 0x03#8].map .byte ++ .eos :: [] ∧
      1 + (8 + 7 * 2) * roundCount (7 * 2) 3 ≤ 64 :=
  ⟨by simp [ArgumentBad, idle, State.powerUp], idle_ready _ _ _ _, rfl, by decide⟩

theorem witness_DilvDeinterleavesTheInput :
    ¬ArgumentBad .dilv (idle 40 2#32 0#32 short) ∧
      Ready ((14 * 2 + 9) * roundCount (8 + 7 * 2) 3 + 3) (idle 40 2#32 0#32 short) ∧
      (idle 40 2#32 0#32 short).inQ = [0x01#8, 0x02#8, 0x03#8].map .byte ++ .eos :: [] ∧
      1 + 7 * 2 * roundCount (8 + 7 * 2) 3 ≤ 64 :=
  ⟨by simp [ArgumentBad, idle, State.powerUp], idle_ready _ _ _ _, rfl, by decide⟩

theorem witness_RsEncEncodesTheInput :
    ¬ArgumentBad .rsEnc (idle 15 1#32 0#32 short) ∧
      Ready ((5 * 1 + 1) * roundCount (2 * 1) 3 + 3) (idle 15 1#32 0#32 short) ∧
      (idle 15 1#32 0#32 short).inQ = [0x01#8, 0x02#8, 0x03#8].map .byte ++ .eos :: [] ∧
      1 + 3 * 1 * roundCount (2 * 1) 3 ≤ 64 :=
  ⟨by simp [ArgumentBad, idle, State.powerUp], idle_ready _ _ _ _, rfl, by decide⟩

/-- Exactly the bytes of one group; and an EOS before the end of two. -/
theorem witness_RsDecDecodesItsGroups :
    (¬ArgumentBad .rsDec (idle 9 1#32 3#32 short) ∧ Ready ((5 * 1 + 1) * (3 / 3) + 3) (idle 9 1#32 3#32 short) ∧
      (idle 9 1#32 3#32 short).inQ = [0x01#8, 0x02#8, 0x03#8].map .byte ++ [.eos] ∧ 3 / 3 * (3 * 1) ≤ 3 ∧
      1 + 2 * 1 * (3 / 3) ≤ 64) ∧
    ¬ArgumentBad .rsDec (idle 15 1#32 6#32 short) ∧ Ready ((5 * 1 + 1) * (6 / 3) + 3) (idle 15 1#32 6#32 short) ∧
      ∃ rest, [Token.eos] = .eos :: rest :=
  ⟨⟨by simp [ArgumentBad, idle, State.powerUp], idle_ready _ _ _ _, rfl, by decide, by decide⟩,
    by simp [ArgumentBad, idle, State.powerUp], idle_ready _ _ _ _, [], rfl⟩

theorem witness_FrameOfLengthZeroNeverCompletes :
    Ready 0 (idle 0 0#32 0#32 short) ∧ (idle 0 0#32 0#32 short).arg0 = 0#32 := ⟨idle_ready _ _ _ _, rfl⟩

/-- A FRAME with L = 0 that is running. -/
def endless (script : List HostEvent) : State :=
  { idle 0 0#32 0#32 short with phase := .running, op := .frame, status := 0x1#32, script := script }

theorem witness_OnlyResetEndsFrameOfLengthZero :
    EndlessFrame (endless []) ∧ ∃ u, step (endless []) = .next u :=
  ⟨⟨rfl, rfl, rfl, rfl, rfl⟩, next_of (by decide +kernel)⟩

theorem witness_CommandWaitsOnEmptyIn :
    ∀ i ∈ [Instr.hamEnc, .hamDec, .frame, .deframe, .ilv, .dilv, .rsEnc, .rsDec],
      Ready 0 (idle 0 1#32 3#32 []) ∧ ¬ArgumentBad i (idle 0 1#32 3#32 []) ∧ ReadsInput i (idle 0 1#32 3#32 []) ∧
        (idle 0 1#32 3#32 []).inQ = [] := by
  intro i hi
  refine ⟨idle_ready _ _ _ _, ?_, ?_, rfl⟩ <;> revert i <;> simp [ArgumentBad, ReadsInput, idle, State.powerUp]

/-- No room at all, and room for 7 bytes. -/
theorem witness_AddHdrWaitsOnFullOut :
    ∀ k ∈ [0, 7], Ready k { idle k 8#32 0#32 [] with outQ := List.replicate (64 - k) 0x00#8 } ∧
      ¬ArgumentBad .addHdr { idle k 8#32 0#32 [] with outQ := List.replicate (64 - k) 0x00#8 } ∧ k < 8 ∧
      (List.replicate (64 - k) 0x00#8).length + k = 64 := by
  intro k hk
  refine ⟨⟨rfl, rfl, rfl, by simp [idle]⟩, by simp [ArgumentBad, idle], ?_⟩
  revert k
  decide

/-- An issued command; one that goes on; one that goes on after EOS. -/
theorem witness_CommandsMoveTokensInOrderAndCountThem :
    ((idle 15 0#32 0#32 short).phase = .idle ∧ ∃ t, exec .hamEnc (idle 15 0#32 0#32 short) = .next t) ∧
    ((busy []).phase = .running ∧ ∃ t, exec .gfMul { busy [] with inQ := short, turns := mixed } = .next t) ∧
    ∃ t, exec .gfMul { busy [] with inQ := short, eos := true, rd := 1, turns := mixed } = .next t :=
  ⟨⟨rfl, next_of (by decide +kernel)⟩, ⟨rfl, next_of (by decide +kernel)⟩, next_of (by decide +kernel)⟩

/-- Each command, just issued and going on. -/
theorem witness_CommandsWithoutAValueKeepResult :
    ∀ i ∈ [Instr.hamEnc, .hamDec, .addHdr, .deframe, .dilv, .rsDec],
      ((idle 9 1#32 3#32 short).phase = .idle ∧ ∃ t, exec i (idle 9 1#32 3#32 short) = .next t) ∧
      ∃ t, exec i { idle 9 1#32 3#32 short with phase := .running, op := i, a0 := 1#32, a1 := 3#32 } = .next t :=
  fun i hi => ⟨⟨rfl, next_of (by revert i; decide +kernel)⟩, next_of (by revert i; decide +kernel)⟩

/-- HAM_ENC, issued with two bytes taken, and then a step in which the host appends a token. -/
theorem witness_OutputFollowsTheRuleWhateverTheHostDoes :
    ∃ (k s : State) (taken : List Token) (written : List Byte), Ready 0 k ∧ ¬ArgumentBad .hamEnc k ∧
      History .hamEnc k s taken written ∧ s.phase = .running ∧ taken.length = 3 := by
  let k : State := { idle 2 0#32 0#32 short with script := [⟨.push (.byte 0x04#8), [.read]⟩] }
  obtain ⟨t, ht, hf⟩ := next_and (o := exec .hamEnc k) (f := fun t => t.inQ == [.byte 0x03#8, .eos] &&
    t.outQ == [0xEE#8] && t.phase == .running && t.script == k.script && t.params == k.params) (by decide +kernel)
  obtain ⟨u, hu, hg⟩ := next_and (o := exec .hamEnc k) (f := fun t => ends (step t) (fun u =>
    u.inQ == [.eos, .byte 0x04#8] && u.outQ == [0xEE#8] && u.phase == .running)) (by decide +kernel)
  obtain rfl : t = u := by rw [ht] at hu; cases hu; rfl
  obtain ⟨v, hv, hh⟩ := next_and hg
  simp only [Bool.and_eq_true, beq_iff_eq] at hf hh
  obtain ⟨⟨⟨⟨h1, h2⟩, h3⟩, h4⟩, h5⟩ := hf
  refine ⟨k, v, [.byte 0x01#8, .byte 0x02#8] ++ [.byte 0x03#8], [] ++ [], ⟨rfl, rfl, rfl, Nat.zero_le _⟩, id,
    .step t v _ _ _ _ (.issued t _ _ ht (by rw [h1]; rfl) (by rw [h2]; rfl)) h3 ?_ hv ?_ ?_, hh.2, rfl⟩
  · rintro ⟨ts, rest, hx⟩
    rw [h4] at hx
    cases hx
  · simp only [State.offered, h4, h1, h5, hh.1.1]; rfl
  · simp only [State.undrained, h4, h2, hh.1.2]; rfl

/-- HAM_ENC, completed in the issuing step: the whole input taken, one codeword written. -/
theorem witness_OutputFollowsTheRuleWhateverTheHostDoes_completed :
    ∃ (s : State) (written : List Byte), History .hamEnc (idle 15 0#32 0#32 short) s short written ∧
      s.phase = .idle ∧ written.length = 7 := by
  obtain ⟨t, ht, hf⟩ := next_and (o := exec .hamEnc (idle 15 0#32 0#32 short)) (f := fun t => t.inQ == [] &&
    t.outQ == 0xEE#8 :: t.outQ.tail && t.outQ.length == 8 && t.phase == .idle) (by decide +kernel)
  simp only [Bool.and_eq_true, beq_iff_eq] at hf
  obtain ⟨⟨⟨h1, h2⟩, h3⟩, h4⟩ := hf
  exact ⟨t, t.outQ.tail, .issued t _ _ ht (by rw [h1]; rfl) h2, h4, by rw [List.length_tail, h3]⟩

/-- A GF_MUL before its last turn, and the IDLE block after it, for ever. -/
theorem witness_CommandThatNeedNotWaitCompletes :
    ∃ x : Nat → State, Inv (x 0) ∧ (x 0).phase = .running ∧ ¬((x 0).op = .frame ∧ (x 0).a0 = 0#32) ∧
      (∀ n, step (x n) = .next (x (n + 1))) ∧ (∀ n, (x n).phase = .running → ¬(x n).resetNext) ∧
      ∀ n, Unblocked (x n) := by
  let s : State := { busy [] with op := .gfMul, stage := .finish }
  have h := busy_inv []
  refine ⟨fun n => if n = 0 then s else s.complete,
    ⟨rfl, ⟨h.status.1, h.status.2, h.status.3, h.status.4, h.status.5⟩, ⟨h.config.1, h.config.2⟩,
      ⟨h.ports.1, h.ports.2⟩, ⟨rfl, rfl⟩, ⟨fun _ => rfl, fun _ => Nat.zero_le _, fun _ => Nat.zero_le _⟩⟩,
    rfl, nofun, fun n => ?_, fun n hn => ?_, fun n hp hs => ?_⟩
  · cases n <;> rfl
  · cases n
    · rintro ⟨ts, rest, hx⟩; cases hx
    · cases hn
  · cases n <;> cases hs

theorem witness_CommandsKeepTheHostsRegisters : ∃ t, exec .ilv (idle 9 1#32 3#32 short) = .next t :=
  next_of (by decide +kernel)

theorem witness_WritesWhileRunningDoNotReachTheCommand :
    (busy []).phase = .running ∧ ∃ u, step { busy [] with script := [⟨.pause, mixed⟩] } = .next u :=
  ⟨rfl, next_of (by decide +kernel)⟩

theorem witness_CompletionIsOneLastTurn :
    { busy [] with stage := .finish }.phase = .running ∧
      ({ busy [] with stage := .finish }.turn .read).phase = .idle := ⟨rfl, rfl⟩

/-- Both ways: a last turn, and reset. -/
theorem witness_RunningEndsOnlyByCompletionOrReset :
    (ends (step { busy [⟨.pause, [.read]⟩] with stage := .finish }) (fun u => u.phase == .idle) = true) ∧
    ends (step (busy [⟨.reset, []⟩])) (fun u => u.phase == .idle) = true ∧ (busy []).phase = .running :=
  ⟨by decide +kernel, by decide +kernel, rfl⟩

theorem witness_EveryStepKeepsTheInvariant :
    (Inv { idle 0 8#32 0#32 short with script := [⟨.write 32 0x00 0x6#32, mixed⟩] } ∧
      ∃ u, step { idle 0 8#32 0#32 short with script := [⟨.write 32 0x00 0x6#32, mixed⟩] } = .next u) ∧
    Inv (busy [⟨.push (.byte 0x5A#8), mixed⟩]) ∧ ∃ u, step (busy [⟨.push (.byte 0x5A#8), mixed⟩]) = .next u :=
  ⟨⟨idle_inv _ _ _ _ _ (by decide), next_of (by decide +kernel)⟩, busy_inv _, next_of (by decide +kernel)⟩

/-- A state that steps, and one whose access is refused. -/
theorem witness_StepsFromTheInvariantDoNotFault : Inv (busy []) ∧ Inv (busy [⟨.read 32 0x24, []⟩]) :=
  ⟨busy_inv _, busy_inv _⟩

/-- Writes and reads; each way of being refused, at its boundary, and the first and last register. -/
theorem witness_RegisterAccessesAreRefusedExactlyWithoutAMeaning :
    (∀ p ∈ [(16, 0x00), (31, 0x00), (33, 0x00), (32, 0x01), (32, 0x22), (32, 0x24)],
      p.1 ≠ 32 ∨ p.2 % 4 ≠ 0 ∨ 0x24 ≤ p.2) ∧
    (∀ off ∈ [0x00, 0x20], ¬((32 : Nat) ≠ 32 ∨ off % 4 ≠ 0 ∨ 0x24 ≤ off)) ∧
    ∀ width off v, ∃ (s : State) (e : HostEvent), s.script = e :: [] ∧ e.act = .write width off v :=
  ⟨by decide, by decide, fun width off v => ⟨busy [⟨.write width off v, []⟩], ⟨.write width off v, []⟩, rfl, rfl⟩⟩

/-- Every register. -/
theorem witness_RegisterReadsReturnTheRegisters :
    ∀ p ∈ [(0x00, 0x00000000#32), (0x04, 0x1#32), (0x08, 0x1#32), (0x0C, 0x1234#32), (0x10, 0x0#32), (0x14, 0x0#32),
        (0x18, 0x77#32), (0x1C, 0x0#32), (0x20, 0x0#32)],
      ∃ s : State, Inv s ∧ s.script = { act := .read 32 p.1, turns := [] } :: [] ∧
        p ∈ [(0x00, 0x00000000#32), (0x04, (s.status.extractLsb' 0 4).setWidth 32),
          (0x08, (s.cfg.extractLsb' 0 1).setWidth 32), (0x0C, (s.srcport.extractLsb' 0 16).setWidth 32),
          (0x10, s.arg0), (0x14, s.arg1), (0x18, s.result), (0x1C, s.inCount), (0x20, s.outCount)] := by
  intro p hp
  refine ⟨busy [⟨.read 32 p.1, []⟩], busy_inv _, rfl, ?_⟩
  revert p
  decide +kernel

/-- Every register but CMD. -/
theorem witness_RegisterWritesChangeTheirRegister :
    ∀ off ∈ [0x04, 0x08, 0x0C, 0x10, 0x14, 0x18, 0x1C, 0x20], ∀ v : Word, ∃ s u : State, Inv s ∧
      s.script = { act := .write 32 off v, turns := [] } :: [] ∧
      (off, u) ∈ [(0x04, s), (0x08, { s with cfg := (v.extractLsb' 0 1).setWidth 32 }),
        (0x0C, { s with srcport := (v.extractLsb' 0 16).setWidth 32 }), (0x10, { s with arg0 := v }),
        (0x14, { s with arg1 := v }), (0x18, s), (0x1C, s), (0x20, s)] := by
  intro off hoff v
  refine ⟨busy [⟨.write 32 off v, []⟩], ?_⟩
  simp only [List.mem_cons, List.not_mem_nil, or_false] at hoff
  rcases hoff with rfl | rfl | rfl | rfl | rfl | rfl | rfl | rfl <;>
    exact ⟨_, busy_inv _, rfl, by simp only [List.mem_cons, Prod.mk.injEq]; simp; rfl⟩

/-- Room for one token, and none; while RUNNING, room with turns and without. -/
theorem witness_PushAppendsOrWaits :
    (Inv { idle 0 0#32 0#32 (List.replicate 63 .eos) with script := [⟨.push .eos, []⟩] }) ∧
      (Inv { idle 0 0#32 0#32 (List.replicate 64 .eos) with script := [⟨.push .eos, []⟩] }) ∧
      Inv (busy [⟨.push .eos, mixed⟩]) ∧ Inv (busy [⟨.push .eos, []⟩]) :=
  ⟨idle_inv _ _ _ _ _ (by decide), idle_inv _ _ _ _ _ (by decide), busy_inv _, busy_inv _⟩

/-- DRAIN; a removal; a removal from an empty OUT. -/
theorem witness_HostRemovesBytesInOrder :
    (Inv (busy [⟨.drain, []⟩]) ∧ (busy [⟨.drain, []⟩]).script = { act := .drain, turns := [] } :: []) ∧
    (Inv (busy [⟨.pop, []⟩]) ∧ (busy [⟨.pop, []⟩]).script = { act := .pop, turns := [] } :: []) ∧
    Inv { State.powerUp ⟨14, 64, 64, 0x1234#16, 0⟩ with script := [⟨.pop, []⟩] } :=
  ⟨⟨busy_inv _, rfl⟩, ⟨busy_inv _, rfl⟩, ⟨rfl, ⟨by simp [State.powerUp, statusBusy],
    by simp [State.powerUp, statusBusy], by simp [State.powerUp, statusErrArg],
    by simp [State.powerUp, statusErrArg, statusErrOpc], reserved_zero.1⟩, ⟨reserved_zero.2.2.2.1,
      reserved_zero.2.2.2.2⟩,
    ⟨Nat.zero_le _, Nat.zero_le _⟩, ⟨rfl, rfl⟩, ⟨nofun, nofun, nofun⟩⟩⟩

/-- DONE = 0. -/
theorem witness_WaitPollsUntilDone :
    Inv (busy [⟨.wait, []⟩]) ∧ (busy [⟨.wait, []⟩]).script = { act := .wait, turns := [] } :: [] ∧
      (busy [⟨.wait, []⟩]).status.getLsbD 1 = false := ⟨busy_inv _, rfl, rfl⟩

/-- DONE = 0 in an IDLE block. -/
theorem witness_WaitPollsUntilDone_idle :
    Inv { idle 0 0#32 0#32 [] with script := [⟨.wait, []⟩] } ∧ (idle 0 0#32 0#32 []).status.getLsbD 1 = false :=
  ⟨idle_inv _ _ _ _ _ (by decide), rfl⟩

/-- DONE = 1. -/
theorem witness_WaitPollsUntilDone_last :
    ∃ s : State, Inv s ∧ s.script = { act := .wait, turns := [] } :: [] ∧ s.status.getLsbD 1 = true :=
  ⟨{ idle 0 0#32 0#32 [] with status := 0x2#32, script := [⟨.wait, []⟩] },
    ⟨rfl, ⟨by simp [idle, State.powerUp, statusBusy], by simp [statusBusy], by simp [statusErrArg],
      by simp [statusErrArg, statusErrOpc], reserved_zero.2.2.1⟩, ⟨reserved_zero.2.2.2.1, reserved_zero.2.2.2.2⟩,
      ⟨Nat.zero_le _, by simp [idle, State.powerUp]⟩, ⟨rfl, rfl⟩, ⟨nofun, nofun, nofun⟩⟩, rfl, rfl⟩

theorem witness_ResetPutsTheBlockInItsResetState :
    (busy [⟨.reset, mixed⟩]).script = { act := .reset, turns := mixed } :: [] := rfl

/-- The least and the greatest bit. -/
theorem witness_ClmulIsThePolynomialProduct : (0 : Nat) < 16 ∧ (15 : Nat) < 16 := by decide

theorem witness_HammingSearchEqualsClosedForm : (List.replicate 7 0x5A#8).length = 7 := rfl

/-- An error pattern that flips bits of position `p` only has at most one 1 bit in each lane. -/
theorem one_position (p : Nat) (v : Byte) : AtMostOnePerLane ((List.replicate 7 0x00#8).set p v) := by
  have h : ∀ i b, (byteAt ((List.replicate 7 0x00#8).set p v) i).getLsbD b = true → i = p := by
    intro i b hb
    by_contra hne
    rw [byteAt, List.getD_eq_getElem?_getD, List.getElem?_set_ne (Ne.symm hne), List.getElem?_replicate] at hb
    split at hb <;> simp at hb
  intro b _ i j hi hj
  rw [h i b hi, h j b hj]

/-- No error; one flipped bit; a whole position flipped, one error in every lane. -/
theorem witness_HammingCorrectsOneErrorPerLane :
    ∀ v ∈ [0x00#8, 0x80#8, 0xFF#8], ((List.replicate 7 0x00#8).set 3 v).length = 7 ∧
      AtMostOnePerLane ((List.replicate 7 0x00#8).set 3 v) :=
  fun v _ => ⟨by simp, one_position 3 v⟩

/-- Positions 0 and 1 of lane 0; positions 5 and 6 of lane 7. -/
theorem witness_HammingMiscorrectsTwoErrorsInALane :
    (∀ m < 7, (byteAt [0x01#8, 0x01#8, 0x00#8, 0x00#8, 0x00#8, 0x00#8, 0x00#8] m).getLsbD 0 = (m == 0 || m == 1)) ∧
    ∀ m < 7, (byteAt [0x00#8, 0x00#8, 0x00#8, 0x00#8, 0x00#8, 0x80#8, 0x80#8] m).getLsbD 7 = (m == 5 || m == 6) := by
  decide

/-- A triple of the list, (0,1,2); one that is not, (4,5,6). -/
theorem witness_HammingMissesTheSevenTriples :
    (∀ n < 7, (byteAt [0x01#8, 0x01#8, 0x01#8, 0x00#8, 0x00#8, 0x00#8, 0x00#8] n).getLsbD 0 =
      (n == 0 || n == 1 || n == 2)) ∧
    ∀ n < 7, (byteAt [0x00#8, 0x00#8, 0x00#8, 0x00#8, 0x01#8, 0x01#8, 0x01#8] n).getLsbD 0 =
      (n == 4 || n == 5 || n == 6) := by
  decide

theorem witness_HammingStreamRoundTrip :
    ∃ (s t s' : State) (ds : List Byte) (err : Nat → List Byte) (rest rest' : List Token) (g : Nat),
      g = roundCount 4 ds.length ∧ Ready (12 * g + 3) s ∧ s.inQ = ds.map .byte ++ .eos :: rest ∧
      s.outQ.length + 7 * g ≤ s.params.outDepth ∧ exec .hamEnc s = .next t ∧
      (∀ i < g, (err i).length = 7 ∧ AtMostOnePerLane (err i)) ∧
      Ready (12 * g + 3) s' ∧ s'.outQ.length + 4 * g ≤ s'.params.outDepth ∧
      s'.inQ = ((List.range g).flatMap fun i =>
        corrupt (roundBytes 7 (t.outQ.drop s.outQ.length) i) (err i)).map .byte ++ .eos :: rest' := by
  obtain ⟨t, ht⟩ := next_of (o := exec .hamEnc (idle 15 0#32 0#32 short)) (by decide +kernel)
  exact ⟨idle 15 0#32 0#32 short, t, idle 15 0#32 0#32 _, [0x01#8, 0x02#8, 0x03#8],
    fun _ => (List.replicate 7 0x00#8).set 4 0xFF#8, [], [],
    1, by decide, idle_ready _ _ _ _, rfl, by decide, ht, fun _ _ => ⟨by simp, one_position _ _⟩, idle_ready _ _ _ _,
    (by decide : 1 + 4 * 1 ≤ 64), rfl⟩

theorem witness_FrameRoundTrip :
    ∃ (s t s' : State) (ds : List Byte) (rest tail : List Token) (l g : Nat), l = s.arg0.toNat ∧
      g = roundCount l ds.length ∧ 1 ≤ l ∧ ¬ArgumentBad .frame s ∧ Ready ((2 * l + 9) * g + 3) s ∧
      s.inQ = ds.map .byte ++ .eos :: rest ∧ s.outQ.length + (8 + l) * g ≤ s.params.outDepth ∧
      exec .frame s = .next t ∧ g < 2 ^ 32 ∧
      Ready ((2 * l + 9) * g + 3) s' ∧ s'.arg0 = s.arg0 ∧ s'.arg1 = t.result ∧
      s'.cfg.getLsbD 0 = s.cfg.getLsbD 0 ∧ s'.srcport.extractLsb' 0 16 = s.srcport.extractLsb' 0 16 ∧
      s'.inQ = (t.outQ.drop s.outQ.length).map .byte ++ tail ∧ s'.outQ.length + l * g ≤ s'.params.outDepth := by
  obtain ⟨t, ht⟩ := next_of (o := exec .frame (idle 28 8#32 0#32 short)) (by decide +kernel)
  exact ⟨idle 28 8#32 0#32 short, t, idle 28 8#32 t.result _, [0x01#8, 0x02#8, 0x03#8], [], [], 8, 1, rfl,
    by decide, by decide,
    by simp [ArgumentBad, idle], idle_ready _ _ _ _, rfl, by decide, ht, by decide, idle_ready _ _ _ _, rfl, rfl, rfl,
    rfl, rfl, (by decide : 1 + 8 * 1 ≤ 64)⟩

theorem witness_InterleaverRoundTrip :
    ∃ (s t s' : State) (ds : List Byte) (rest rest' : List Token) (l g : Nat), l = s.arg0.toNat ∧
      g = roundCount (7 * l) ds.length ∧ ¬ArgumentBad .ilv s ∧ Ready ((14 * l + 9) * g + 3) s ∧
      s.inQ = ds.map .byte ++ .eos :: rest ∧ s.outQ.length + (8 + 7 * l) * g ≤ s.params.outDepth ∧
      exec .ilv s = .next t ∧
      Ready ((14 * l + 9) * g + 3) s' ∧ s'.arg0 = s.arg0 ∧ 7 * l ≤ s'.params.bufBytes ∧
      s'.inQ = (t.outQ.drop s.outQ.length).map .byte ++ .eos :: rest' ∧
      s'.outQ.length + 7 * l * g ≤ s'.params.outDepth := by
  obtain ⟨t, ht⟩ := next_of (o := exec .ilv (idle 40 2#32 0#32 short)) (by decide +kernel)
  exact ⟨idle 40 2#32 0#32 short, t, idle 40 2#32 0#32 ((t.outQ.drop 1).map .byte ++ [.eos]),
    [0x01#8, 0x02#8, 0x03#8], [], [], 2, 1, rfl, by decide,
    by simp [ArgumentBad, idle, State.powerUp], idle_ready _ _ _ _, rfl, by decide, ht, idle_ready _ _ _ _, rfl,
    (by decide : 7 * 2 ≤ 14), rfl, (by decide : 1 + 7 * 2 * 1 ≤ 64)⟩

theorem witness_BuffersOfAnInterleavedGroup : (List.replicate 14 0x5A#8).length = 7 * 2 ∧ 6 < 7 ∧ 1 < 2 := by decide

theorem witness_InterleaverPermutationsAreInverse : (List.replicate 14 0x5A#8).length = 7 * 2 := rfl

/-- Each branch. -/
theorem witness_RsDecGroupBranches :
    ((∀ v ∈ [0x00#8], v = 0x00#8) ∧ ∃ v ∈ [0x01#8], v ≠ 0x00#8) ∧
    ((∃ v ∈ [0x01#8], v ≠ 0x00#8) ∧ (∀ v ∈ [0x00#8], v = 0x00#8) ∧ ∃ v ∈ [0x01#8], v ≠ 0x00#8) ∧
    ((∃ v ∈ [0x01#8], v ≠ 0x00#8) ∧ ∃ v ∈ [0x02#8], v ≠ 0x00#8) ∧ ∀ v ∈ [0x00#8], v = 0x00#8 := by decide

theorem witness_ReedSolomonRoundTrip :
    ∃ (s t s' : State) (ds : List Byte) (rest tail : List Token) (p g : Nat), p = s.arg0.toNat ∧
      g = roundCount (2 * p) ds.length ∧ ¬ArgumentBad .rsEnc s ∧ Ready ((5 * p + 1) * g + 3) s ∧
      s.inQ = ds.map .byte ++ .eos :: rest ∧ s.outQ.length + 3 * p * g ≤ s.params.outDepth ∧
      exec .rsEnc s = .next t ∧ 3 * g < 2 ^ 32 ∧
      Ready ((5 * p + 1) * g + 3) s' ∧ s'.arg0 = s.arg0 ∧ s'.arg1 = t.result ∧ 2 * p ≤ s'.params.bufBytes ∧
      s'.inQ = (t.outQ.drop s.outQ.length).map .byte ++ tail ∧ s'.outQ.length + 2 * p * g ≤ s'.params.outDepth := by
  obtain ⟨t, ht⟩ := next_of (o := exec .rsEnc (idle 15 1#32 0#32 short)) (by decide +kernel)
  exact ⟨idle 15 1#32 0#32 short, t, idle 15 1#32 t.result _, [0x01#8, 0x02#8, 0x03#8], [], [], 1, 2, rfl, by decide,
    by simp [ArgumentBad, idle, State.powerUp], idle_ready _ _ _ _, rfl, by decide, ht, by decide, idle_ready _ _ _ _,
    rfl, rfl, (by decide : 2 * 1 ≤ 14), rfl, (by decide : 1 + 2 * 1 * 2 ≤ 64)⟩

end Sys2Proof.Tests
end

section
/-! SUPPORT. The values after reset (10_state R38). -/

namespace Sys2Proof.Machine

theorem State.reset_eq_powerUp : State.reset = State.powerUp Config.params := rfl

/-- Of the block's own parameters, SRC_PORT_RESET alone shows in a register after reset. -/
@[simp] theorem State.reset_srcport : State.reset.srcport = Config.srcPortReset.setWidth 32 :=
  State.powerUp_srcport Config.params

/-- 10_state R34: the matrix H as its reader `matrixBit` shows it. -/
theorem matrixBit_rows :
    (List.range 3).map (fun r => (List.range 7).map (matrixBit r)) =
      [[true, true, false, true, true, false, false], [true, false, true, true, false, true, false],
       [false, true, true, true, false, false, true]] := by
  decide

/-- Settles O43: the laws of `State.powerUp` at the block's own parameters, field by field, then the constants G
and H. -/
theorem resetValues : Obligations.ResetValues := by
  have hG : generator = 0x011D#16 := rfl
  unfold Obligations.ResetValues
  rw [State.reset_srcport, State.reset_eq_powerUp]
  exact ⟨State.powerUp_status _, State.powerUp_cfg _, rfl, State.powerUp_arg0 _, State.powerUp_arg1 _,
    State.powerUp_result _, State.powerUp_inCount _, State.powerUp_outCount _, State.powerUp_inQ _,
    State.powerUp_outQ _, State.powerUp_phase _, State.powerUp_eos _, hG, matrixBit_rows⟩

end Sys2Proof.Machine
end

section
/-! SUPPORT. Register accesses with and without a meaning (20_memory R51). -/

namespace Sys2Proof.Machine

/-- The registers lie at the multiples of 4 below 0x24 (10_state R20). -/
theorem exists_offsetOf_iff {off : Nat} : (∃ r, off = offsetOf r) ↔ off % 4 = 0 ∧ off < 0x24 := by
  constructor
  · rintro ⟨r, rfl⟩
    cases r <;> decide
  · rintro ⟨ha, hlt⟩
    obtain ⟨n, rfl⟩ := Nat.dvd_of_mod_eq_zero ha
    have hn : n < 9 := by omega
    interval_cases n
    exacts [⟨.cmd, rfl⟩, ⟨.status, rfl⟩, ⟨.cfg, rfl⟩, ⟨.srcport, rfl⟩, ⟨.arg0, rfl⟩, ⟨.arg1, rfl⟩, ⟨.result, rfl⟩,
      ⟨.inCount, rfl⟩, ⟨.outCount, rfl⟩]

/-- The accesses that have no meaning: the complement of `accessReg_ok`. -/
theorem accessReg_error {width off : Nat} :
    (∃ x, accessReg width off = .error x) ↔ width ≠ 32 ∨ off % 4 ≠ 0 ∨ 0x24 ≤ off := by
  have hok : (∃ r, accessReg width off = .ok r) ↔ width = 32 ∧ off % 4 = 0 ∧ off < 0x24 := by
    simp only [accessReg_ok, exists_and_left, exists_offsetOf_iff]
  cases h : accessReg width off with
  | error x =>
    have hbad := hok.not.mp (by simp [h])
    exact iff_of_true ⟨x, rfl⟩ (by omega)
  | ok r =>
    have hgood := hok.mp ⟨r, h⟩
    exact iff_of_false (by simp) (by omega)

theorem State.advance_ne_refused (s : State) (x : Refusal) : s.advance ≠ .refused x := by
  rcases s.advance_eq with ⟨-, h⟩ | ⟨-, h⟩ <;> rw [h] <;> exact nofun

theorem exec_ne_refused (i : Instr) (s : State) (x : Refusal) : exec i s ≠ .refused x := by
  rw [exec_eq_issue]
  cases hp : s.phase with
  | running => rw [State.issue_running hp]; exact State.advance_ne_refused _ _
  | idle => rw [State.issue_idle hp]; exact State.advance_ne_refused _ _

/-- Every word can be written to CMD, a legal one or not (30_encoding R72, R73, R74). -/
theorem State.writeCmd_ne_refused (s : State) (w : Word) (x : Refusal) : s.writeCmd w ≠ .refused x := by
  unfold State.writeCmd
  cases decode w with
  | ok i => exact exec_ne_refused i s x
  | error y => cases s.phase <;> exact State.advance_ne_refused _ _

theorem State.hostWrite_refused_iff {s : State} {width off : Nat} {v : Word} :
    (∃ x, s.hostWrite width off v = .refused x) ↔ ∃ x, accessReg width off = .error x := by
  unfold State.hostWrite
  cases accessReg width off with
  | error x => exact iff_of_true ⟨x, rfl⟩ ⟨x, rfl⟩
  | ok r =>
    refine iff_of_false (not_exists.mpr fun x => ?_) nofun
    cases r
    case cmd => exact s.writeCmd_ne_refused v x
    all_goals exact State.advance_ne_refused _ x

theorem State.hostRead_refused_iff {s : State} {width off : Nat} :
    (∃ x, s.hostRead width off = .refused x) ↔ ∃ x, accessReg width off = .error x := by
  unfold State.hostRead
  cases accessReg width off with
  | error x => exact iff_of_true ⟨x, rfl⟩ ⟨x, rfl⟩
  | ok r => exact iff_of_false (not_exists.mpr (State.advance_ne_refused _)) nofun

/-- Settles O36: a step whose event is a register access is refused exactly when `accessReg` finds no register. -/
theorem registerAccessesAreRefusedExactlyWithoutAMeaning :
    Obligations.RegisterAccessesAreRefusedExactlyWithoutAMeaning := by
  unfold Obligations.RegisterAccessesAreRefusedExactlyWithoutAMeaning
  intro s e rest width off v hscript hact
  rw [← accessReg_error]
  rcases hact with ha | ha
  · have hstep : step s = (s.past e rest).hostWrite width off v := by
      simp only [step, hscript, State.hostEvent, ha]
    rw [hstep, State.hostWrite_refused_iff]
  · have hstep : step s = (s.past e rest).hostRead width off := by
      simp only [step, hscript, State.hostEvent, ha]
    rw [hstep, State.hostRead_refused_iff]

end Sys2Proof.Machine
end

section
/-! SUPPORT. The argument check of acceptance (30_encoding R72, R75), and the room in BUF that it makes sure of
(20_memory R58). -/

namespace Sys2Proof.Machine

/-- The check of acceptance is R75's. -/
theorem argOk_iff {i : Instr} {s : State} : (commandOf i).argOk (s.latchOp i) = true ↔ ¬ArgumentBad i s := by
  cases i with
  | gfMul | gfRed | hamEnc | hamDec | deframe => exact iff_of_true rfl id
  | addHdr | frame =>
    show lenOk s.arg0.toNat = true ↔ _
    simp only [ArgumentBad, not_not, lenOk, Bool.or_eq_true, Bool.and_eq_true, beq_iff_eq, decide_eq_true_eq, or_assoc]
  | ilv | dilv =>
    show ilvOk s.params.bufBytes s.arg0.toNat = true ↔ _
    simp [ilvOk, ArgumentBad, and_assoc]
  | rsEnc =>
    show rsEncOk s.params.bufBytes s.arg0.toNat = true ↔ _
    simp [rsEncOk, ArgumentBad]
  | rsDec =>
    show rsDecOk s.params.bufBytes s.arg0.toNat s.arg1.toNat = true ↔ _
    simp [rsDecOk, rsEncOk, ArgumentBad, and_assoc]

/-- A round of an accepted command fits in BUF. -/
theorem bufUse_le {i : Instr} {s : State} (hb : 14 ≤ s.params.bufBytes) (ha : ¬ArgumentBad i s) :
    (commandOf i).bufUse (s.latchOp i) ≤ s.params.bufBytes := by
  cases i with
  | gfMul | gfRed | addHdr => exact Nat.zero_le _
  | hamEnc => show 4 ≤ _; omega
  | hamDec => show 7 ≤ _; omega
  | frame => show 1 ≤ _; omega
  | deframe => show 9 ≤ _; omega
  | ilv | dilv =>
    obtain ⟨-, -, hfit⟩ := not_not.mp ha
    exact hfit
  | rsEnc =>
    obtain ⟨-, hfit⟩ := not_not.mp ha
    exact hfit
  | rsDec =>
    obtain ⟨-, hfit, -⟩ := not_not.mp ha
    exact hfit

end Sys2Proof.Machine
end

section
/-! SUPPORT. From the history of a command (`History`) to what it has read and written (`RoundRule.Sofar`), and from
there to the output and the result its rule gives (20_memory R62, R63). -/

namespace Sys2Proof.Machine

variable {i : Instr} {k s : State} {taken : List Token} {written : List Byte}

/-! ### The history of a command, along its steps -/

/-- An outcome of the sequencer's turns: what they took from IN and put into OUT joins the command's history. -/
theorem RoundRule.Sofar.advance {r : RoundRule k} {m u : State} {more : List Token} {new : List Byte}
    (h : r.Sofar taken written m) (hu : u = { State.runTurns m.turns m with turns := [] })
    (hin : m.inQ = more ++ u.inQ) (hout : u.outQ = m.outQ ++ new) :
    r.Sofar (taken ++ more) (written ++ new) u := by
  obtain ⟨more', new', hin', hout', h'⟩ := h.runTurns m.turns
  subst hu
  obtain rfl : more' = more := List.append_cancel_right (hin'.symm.trans hin)
  obtain rfl : new' = new := List.append_cancel_left (hout'.symm.trans hout)
  exact h'.host _ _ _ _ _ _ _ _ _

/-- Along a history, `taken` and `written` are what the command has read and written by its rule. -/
theorem History.sofar (h : History i k s taken written) (hk : Ready 0 k)
    (hok : (commandOf i).argOk (k.latchOp i) = true) (r : RoundRule (k.latchOp i)) : r.Sofar taken written s := by
  induction h with
  | issued t taken written hx hin hout =>
    rw [exec_eq_issue, State.issue_idle hk.idle] at hx
    have hacc : k.accept i = k.latchOp i := if_pos hok
    obtain ⟨-, ht⟩ := State.advance_next (hacc ▸ hx)
    exact (r.sofar_start rfl rfl rfl hk.buf rfl rfl rfl rfl rfl rfl).advance ht hin hout
  | step s u taken more written new _ hp hr hs hin hout ih =>
    obtain ⟨m, hm, -, hu⟩ := step_next hs
    obtain ⟨cfg, srcport, arg0, arg1, turns, script, trace, rfl⟩ := hm.outside hp hr
    exact (ih.host _ _ cfg srcport arg0 arg1 turns script trace).advance hu hin hout

/-! ### What the rule gives -/

/-- The rule's output, as the claims write it. -/
theorem RoundRule.Says.ruleOutput_eq {r : RoundRule (k.latchOp i)} (hr : r.Says i k) (ds : List Byte) (e : Nat) :
    ruleOutput i k ds e = r.written ds (roundTotal i k ds.length e) := by
  rw [ruleOutput, RoundRule.written, ← hr.nIn]
  exact (streamOut_congr hr.outs ds _).symm

/-- FRAME with L = 0 runs as many rounds as are asked for (42_framer R145). -/
theorem RoundRule.Says.roundTotal_endless {r : RoundRule (k.latchOp i)} (hr : r.Says i k) (h0 : r.nIn = 0)
    (hn : r.rounds = .untilEos) (len e : Nat) : roundTotal i k len e = e := by
  obtain ⟨rfl, ha, -⟩ := hr.endless h0 hn
  simp [roundTotal, ha]

/-- Whole rounds inside the input are among its rounds. -/
theorem le_roundCount {n len g : Nat} (hn : 1 ≤ n) (h : g * n ≤ len) : g ≤ roundCount n len :=
  (Nat.le_div_iff_mul_le hn).mpr (h.trans (Nat.le_add_right _ _))

/-- The rounds finished so far, and the one in which a byte is written, are among those the rule runs on any input that
the tokens taken are the start of. -/
theorem RoundRule.Within.rounds_le {r : RoundRule (k.latchOp i)} (h : r.Within taken written s) (hr : r.Says i k)
    {ds : List Byte} (hds : InputGoesOn taken ds) :
    s.round ≤ roundTotal i k ds.length written.length ∧
      (0 < s.wr → s.round < roundTotal i k ds.length written.length) := by
  cases hn : r.rounds with
  | count n =>
    obtain ⟨hle, hlt⟩ := h.counted n hn
    rw [(hr.counted n hn).2]
    exact ⟨hle, fun hw => hlt (.inr hw)⟩
  | untilEos =>
    rcases Nat.eq_zero_or_pos r.nIn with h0 | h1
    · have hlen : written.length = s.round * r.nOut + s.wr := by
        rw [h.output ds hds, List.length_append, r.written_length, List.length_take, r.outs_length _ (by simp),
          Nat.min_eq_left h.wr_le]
      have hmul : s.round ≤ s.round * r.nOut := Nat.le_mul_of_pos_right _ (hr.endless h0 hn).2.2
      rw [hr.roundTotal_endless h0 hn]
      omega
    · rw [(hr.untilEos hn).2 _ _ h1]
      have htaken : (tokenBytes taken).length ≤ ds.length := hds.1.length_le
      have started : 0 < s.rd → s.round < roundCount r.nIn ds.length := fun hrd =>
        (lt_roundCount h1).mpr ((h.begun hn hrd).trans_le htaken)
      refine ⟨?_, fun hw => started (h.readFirst hn h1 hw)⟩
      rcases Nat.eq_zero_or_pos s.rd with hrd | hrd
      · have hunread := h.unread fun he => (h.last hn he).ne' hrd
        exact le_roundCount h1 (by omega)
      · exact (started hrd).le

/-- Within the rounds, what is written is the start of the rule's output. -/
theorem RoundRule.Within.prefix_rule {r : RoundRule (k.latchOp i)} (h : r.Within taken written s) (hr : r.Says i k)
    {ds : List Byte} (hds : InputGoesOn taken ds) : written <+: ruleOutput i k ds written.length := by
  obtain ⟨hle, hlt⟩ := h.rounds_le hr hds
  rw [hr.ruleOutput_eq]
  generalize roundTotal i k ds.length written.length = total at hle hlt
  rw [h.output ds hds]
  rcases Nat.eq_zero_or_pos s.wr with hw | hw
  · rw [hw, List.take_zero, List.append_nil]
    exact r.written_prefix ds hle
  · refine List.IsPrefix.trans ?_ (r.written_prefix ds (hlt hw))
    rw [r.written_succ]
    exact (List.prefix_append_right_inj _).mpr (List.take_prefix _ _)

/-- Once the rounds are over, they were those of the rule on the input taken. -/
theorem RoundRule.Over.round_eq {r : RoundRule (k.latchOp i)} (h : r.Over taken written s) (hr : r.Says i k) (e : Nat) :
    s.round = roundTotal i k (tokenBytes taken).length e := by
  cases hn : r.rounds with
  | count n => rw [(hr.counted n hn).2, (h.counted n hn).1]
  | untilEos =>
    obtain ⟨-, h1, hrounds⟩ := h.uncounted hn
    rw [(hr.untilEos hn).2 _ _ h1]
    exact eq_roundCount h1 hrounds

/-- Once the rounds are over, what is written is the rule's whole output for any input that the tokens taken are the
start of: of an uncounted command that is the input taken, and a counted one runs as many rounds on each. -/
theorem RoundRule.Over.written_eq {r : RoundRule (k.latchOp i)} (h : r.Over taken written s) (hr : r.Says i k)
    {ds : List Byte} (hds : InputGoesOn taken ds) (e : Nat) : written = ruleOutput i k ds e := by
  rw [hr.ruleOutput_eq, h.output ds hds]
  cases hn : r.rounds with
  | count n => rw [(hr.counted n hn).2, (h.counted n hn).1]
  | untilEos => rw [hds.2 (h.uncounted hn).1, ← h.round_eq hr]

/-- An uncounted command ends on end-of-stream. -/
theorem RoundRule.Over.eos_mem {r : RoundRule (k.latchOp i)} (h : r.Over taken written s) (hr : r.Says i k)
    (hu : runsUntilEos i = true) : .eos ∈ taken := by
  cases hn : r.rounds with
  | untilEos => exact (h.uncounted hn).1
  | count n => rw [(hr.counted n hn).1] at hu; cases hu

/-- A counted command that met no end-of-stream has taken its rounds' bytes. -/
theorem RoundRule.Over.taken_length {r : RoundRule (k.latchOp i)} (h : r.Over taken written s) (hr : r.Says i k)
    (hu : runsUntilEos i = false) (he : .eos ∉ taken) (e : Nat) :
    (tokenBytes taken).length = roundTotal i k (tokenBytes taken).length e * roundLength i k.arg0.toNat := by
  cases hn : r.rounds with
  | untilEos => rw [(hr.untilEos hn).1] at hu; cases hu
  | count n => rw [(hr.counted n hn).2, ← hr.nIn]; exact (h.counted n hn).2 he

theorem RoundRule.Sofar.counts {r : RoundRule k} (h : r.Sofar taken written s) :
    s.inCount = BitVec.ofNat 32 (taken.countP tokenIsByte) ∧ s.outCount = BitVec.ofNat 32 written.length := by
  rw [← tokenBytes_length]
  rcases h with h | ⟨h, -⟩
  · exact ⟨h.inCount, h.outCount⟩
  · exact ⟨h.inCount, h.outCount⟩

theorem RoundRule.Sofar.prefix_rule {r : RoundRule (k.latchOp i)} (h : r.Sofar taken written s) (hr : r.Says i k)
    {ds : List Byte} (hds : InputGoesOn taken ds) : written <+: ruleOutput i k ds written.length := by
  rcases h with h | ⟨h, -⟩
  · exact h.prefix_rule hr hds
  · exact ⟨[], (List.append_nil _).trans (h.written_eq hr hds _)⟩

/-- A command that is IDLE again has finished its rounds, and STATUS and RESULT are as completion leaves them. -/
theorem RoundRule.Sofar.completed {r : RoundRule k} (h : r.Sofar taken written s) (hp : s.phase = .idle) :
    r.Over taken written s ∧ s.status = 0x2#32 ∧ s.result = (r.resultAt s.round).getD k.result := by
  rcases h with h | ⟨h, ⟨hp', -⟩ | ⟨hp', -⟩ | ⟨-, hstatus, hresult⟩⟩
  · rw [h.phase] at hp; cases hp
  · rw [hp'] at hp; cases hp
  · rw [hp'] at hp; cases hp
  · exact ⟨h, hstatus, hresult⟩

/-- Settles O27: the history of a command gives `RoundRule.Sofar` of its rule, which says what was written on the way
and at completion. -/
theorem outputFollowsTheRuleWhateverTheHostDoes : Obligations.OutputFollowsTheRuleWhateverTheHostDoes := by
  unfold Obligations.OutputFollowsTheRuleWhateverTheHostDoes
  intro i k s taken written hk hgood hist
  have hok := argOk_iff.mpr hgood
  obtain ⟨r, hr⟩ := exists_rule hk.params hok
  have hsofar := hist.sofar hk hok r
  obtain ⟨hin, hout⟩ := hsofar.counts
  refine ⟨hin, hout, fun ds hds => hsofar.prefix_rule hr hds, fun hidle => ?_⟩
  obtain ⟨hover, hstatus, hresult⟩ := hsofar.completed hidle
  have hvalue : s.result = ruleResult i k (roundTotal i k (tokenBytes taken).length 0) := by
    rw [hresult, ← hover.round_eq hr]
    exact hr.result s.round
  exact ⟨hstatus, hover.written_eq hr (.self taken) 0, hvalue, hover.eos_mem hr,
    fun hu he => hover.taken_length hr hu he 0⟩

end Sys2Proof.Machine
end

section
/-! SUPPORT. A command that must read waits on an empty IN (20_memory R53), and has written nothing by then. -/

namespace Sys2Proof.Machine

variable {i : Instr} {s : State}

/-! ### A command that waits -/

/-- At the start of a round that reads, whose first output byte depends on the first byte read, with nothing to read. -/
structure State.Starved (u : State) : Prop where
  stage : u.stage = .rounds
  open_round : u.countReached = false
  rd : u.rd = 0
  wr : u.wr = 0
  reads : 1 ≤ u.command.roundIn u
  need : 1 ≤ u.command.need u 0
  eos : u.eos = false
  inQ : u.inQ = []

/-- Its read waits for a token and its write for that read, so that a turn changes nothing. -/
theorem State.Starved.turn {u : State} (h : u.Starved) (t : Turn) : u.turn t = u := by
  have hread : u.inRead = none := by simp [State.inRead, h.eos, h.inQ]
  have heff := u.turn_effect t
  generalize u.turn t = v at heff ⊢
  cases heff with
  | still => rfl
  | stop _ _ hc => rw [h.open_round] at hc; cases hc
  | endRound _ _ _ hd =>
    have hle : u.command.roundIn u ≤ u.rd := by
      simp only [State.roundDone, Bool.and_eq_true, decide_eq_true_eq] at hd
      exact hd.1
    have := h.reads
    have := h.rd
    omega
  | readStop _ _ _ _ _ _ hi => rw [hread] at hi; cases hi
  | read _ _ _ _ _ _ _ hi => rw [hread] at hi; cases hi
  | write _ _ _ _ hw =>
    have hle : u.command.need u u.wr ≤ u.rd := by
      simp only [State.canWrite, Bool.and_eq_true, decide_eq_true_eq] at hw
      exact hw.2
    rw [h.wr, h.rd] at hle
    exact absurd (h.need.trans hle) (by decide)
  | writeResult _ hs => rw [h.stage] at hs; cases hs
  | complete _ hs => rw [h.stage] at hs; cases hs

theorem State.Starved.runTurns {u : State} (h : u.Starved) (ts : List Turn) : State.runTurns ts u = u :=
  State.runTurns_keeps (P := (· = u)) (fun _ t hv => hv ▸ h.turn t) ts rfl

/-! ### Every command that reads, just accepted -/

theorem roundLength_pos (ha : ¬ArgumentBad i s) (hr : ReadsInput i s) : 1 ≤ roundLength i s.arg0.toNat := by
  cases i with
  | gfMul | gfRed | addHdr => exact hr.elim
  | hamEnc => show 1 ≤ 4; omega
  | hamDec => show 1 ≤ 7; omega
  | frame => exact Nat.one_le_iff_ne_zero.mpr fun h0 => hr (BitVec.eq_of_toNat_eq h0)
  | deframe | dilv => show 1 ≤ 8 + _; omega
  | ilv =>
    obtain ⟨hl, -⟩ := not_not.mp ha
    show 1 ≤ 7 * _; omega
  | rsEnc =>
    obtain ⟨hl, -⟩ := not_not.mp ha
    show 1 ≤ 2 * _; omega
  | rsDec =>
    obtain ⟨hl, -⟩ := not_not.mp ha
    show 1 ≤ 3 * _; omega

/-- A counted command that reads has a round to run. -/
theorem roundTotal_pos (ha : ¬ArgumentBad i s) (hr : ReadsInput i s) (hu : runsUntilEos i = false) (len e : Nat) :
    1 ≤ roundTotal i s len e := by
  have count_pos : s.arg1 ≠ 0#32 → 1 ≤ s.arg1.toNat := fun h1 =>
    Nat.one_le_iff_ne_zero.mpr fun h0 => h1 (BitVec.eq_of_toNat_eq h0)
  cases i with
  | gfMul | gfRed | addHdr => exact hr.elim
  | hamEnc | hamDec | frame | ilv | dilv | rsEnc => cases hu
  | deframe => exact count_pos hr
  | rsDec =>
    obtain ⟨-, -, hmod⟩ := not_not.mp ha
    have := count_pos hr
    show 1 ≤ s.arg1.toNat / 3
    omega

/-- No command that reads writes before its first read (entry 11). -/
theorem need_pos {r : RoundRule (s.latchOp i)} (hsays : r.Says i s) (hn : 1 ≤ r.nIn) (hr : ReadsInput i s) :
    1 ≤ (commandOf i).need (s.latchOp i) 0 := by
  cases hrounds : r.rounds with
  | untilEos => exact r.first hrounds hn _ rfl
  | count n =>
    obtain ⟨hu, -⟩ := hsays.counted n hrounds
    cases i with
    | gfMul | gfRed | addHdr => exact hr.elim
    | hamEnc | hamDec | frame | ilv | dilv | rsEnc => cases hu
    | deframe =>
      show 1 ≤ if (s.latchOp .deframe).frameOk then 8 + 0 + 1 else 8
      split <;> omega
    | rsDec => rw [hsays.nIn] at hn; exact hn

/-- Every command that reads is at such a point when it has just been accepted with IN empty. -/
theorem State.starved_latchOp (hp : s.params.wellFormed = true) (ha : ¬ArgumentBad i s) (hr : ReadsInput i s)
    (hq : s.inQ = []) : (s.latchOp i).Starved := by
  obtain ⟨r, hsays⟩ := exists_rule hp (argOk_iff.mpr ha)
  have hn : 1 ≤ r.nIn := hsays.nIn ▸ roundLength_pos ha hr
  have hopen : (s.latchOp i).countReached = false := by
    have hrounds := r.rounds_eq (s.latchOp i) rfl
    cases hc : r.rounds with
    | untilEos => simp [State.countReached, hrounds, hc]
    | count n =>
      obtain ⟨hu, htotal⟩ := hsays.counted n hc
      have hpos : 1 ≤ n := htotal 0 0 ▸ roundTotal_pos ha hr hu 0 0
      simpa [State.countReached, hrounds, hc] using Nat.one_le_iff_ne_zero.mp hpos
  exact {
    stage := rfl
    open_round := hopen
    rd := rfl
    wr := rfl
    reads := (r.roundIn_eq _ rfl).symm ▸ hn
    need := need_pos hsays hn hr
    eos := rfl
    inQ := hq }

/-- Settles O23: the command is starved once it is accepted, and stays so for any number of turns. -/
theorem commandWaitsOnEmptyIn : Obligations.CommandWaitsOnEmptyIn := by
  unfold Obligations.CommandWaitsOnEmptyIn
  intro i s hs ha hr hq
  have hexec := exec_accepted hs.idle (argOk_iff.mpr ha) (bufUse_le hs.bufBytes ha)
  rw [(State.starved_latchOp hs.params ha hr hq).runTurns] at hexec
  have hlatched : Latched i s { s.latchOp i with turns := [] } :=
    ⟨rfl, rfl, rfl, rfl, rfl, rfl, rfl, rfl, rfl, rfl, rfl, rfl⟩
  exact ⟨_, hexec, hlatched, rfl, rfl, hq, rfl, rfl, rfl, rfl, rfl, rfl⟩

end Sys2Proof.Machine
end

section
/-! SUPPORT. A step with a CMD write, and that write while RUNNING (30_encoding R73). -/

namespace Sys2Proof.Machine

variable {s : State} {e : HostEvent} {rest : List HostEvent}

theorem State.hostWrite_cmd (s : State) (w : Word) : s.hostWrite 32 0x00 w = s.writeCmd w := by
  simp only [State.hostWrite, accessReg_cmd.mpr ⟨rfl, rfl⟩]

theorem step_of_cmdWrite {w : Word} (h : s.script = e :: rest) (ha : e.act = .write 32 0x00 w) :
    step s = (s.past e rest).writeCmd w := by
  simp only [step, h, State.hostEvent, ha, State.hostWrite_cmd]

theorem step_of_pause (h : s.script = e :: rest) (ha : e.act = .pause) : step s = (s.past e rest).advance := by
  simp only [step, h, State.hostEvent, ha]

/-- While RUNNING a CMD write leaves the block to the sequencer's turns, whatever the word decodes to. -/
theorem State.writeCmd_running (h : s.phase = .running) (w : Word) : s.writeCmd w = s.advance := by
  unfold State.writeCmd
  cases decode w with
  | ok i => exact (exec_eq_issue i s).trans (State.issue_running h i)
  | error x => simp only [h]

/-- Settles O6: either event leaves the same RUNNING state behind (`State.past` keeps only the event's turns), and the
sequencer's turns from there are the whole step. -/
theorem commandWriteWhileRunningIsIgnored : Obligations.CommandWriteWhileRunningIsIgnored := by
  unfold Obligations.CommandWriteWhileRunningIsIgnored
  intro s w ts rest hp
  rw [step_of_cmdWrite rfl rfl, step_of_pause rfl rfl]
  refine State.writeCmd_running ?_ w
  exact hp

end Sys2Proof.Machine
end

section
/-! SUPPORT. The GaloisField256 unit as polynomials over GF(2) (40_galois R100): what `poly` makes of the operations
of bit vectors, and `clmul` as the product. -/

namespace Sys2Proof.Machine

open Polynomial

/-! ### Clmul bit by bit -/

theorem clmulStep_getLsbD (a b : Byte) (p : Half) (i : Nat) {n : Nat} (hn : n < 16) :
    (clmulStep a b p i).getLsbD n = (p.getLsbD n ^^ (decide (i ≤ n) && a.getLsbD (n - i) && b.getLsbD i)) := by
  have hshift : (a.setWidth 16 <<< i).getLsbD n = (decide (i ≤ n) && a.getLsbD (n - i)) := by
    rcases Nat.lt_or_ge n i with hi | hi
    · simp [hi, hi.not_ge]
    · simp [hn, hi, hi.not_gt]
  cases hb : b.getLsbD i <;> simp [clmulStep, hb, hshift]

/-- Settles O44: reading bit `n` turns each XOR of the loop of Clmul into a sum over GF(2). -/
theorem clmulIsThePolynomialProduct : Obligations.ClmulIsThePolynomialProduct := by
  unfold Obligations.ClmulIsThePolynomialProduct
  intro a b n hn
  have hloop := List.foldl_hom (l := List.range 8) (init := 0#16)
    (g₂ := fun acc i => acc ^^ (decide (i ≤ n) && a.getLsbD (n - i) && b.getLsbD i))
    (fun p : Half => p.getLsbD n) fun p i => (clmulStep_getLsbD a b p i hn).symm
  rw [BitVec.getLsbD_zero] at hloop
  exact hloop.symm

/-! ### A bit vector as a polynomial -/

/-- The polynomial over GF(2) whose coefficient of `X ^ i` is bit `i` (00_scope R7). -/
noncomputable def poly {w : Nat} (v : BitVec w) : (ZMod 2)[X] :=
  ∑ i ∈ Finset.range w, if v.getLsbD i then X ^ i else 0

variable {w : Nat}

theorem coeff_poly (v : BitVec w) (n : Nat) : (poly v).coeff n = if v.getLsbD n then 1 else 0 := by
  have hterm : ∀ i, (if v.getLsbD i then (X : (ZMod 2)[X]) ^ i else 0).coeff n =
      if n = i then (if v.getLsbD n then 1 else 0) else 0 := by
    intro i
    by_cases h : n = i
    · subst h; split <;> simp
    · split <;> simp [coeff_X_pow, h]
  simp only [poly, finsetSum_coeff, hterm, Finset.sum_ite_eq, Finset.mem_range]
  split
  · rfl
  · next h => simp [BitVec.getLsbD_of_ge v n (not_lt.mp h)]

theorem poly_injective : Function.Injective (poly (w := w)) := by
  intro u v h
  refine BitVec.eq_of_getLsbD_eq fun i _ => ?_
  have hi := congrArg (·.coeff i) h
  simp only [coeff_poly] at hi
  revert hi
  cases u.getLsbD i <;> cases v.getLsbD i <;> decide

@[simp] theorem poly_zero : poly (0#w) = 0 := by
  ext n
  simp [coeff_poly]

@[simp] theorem poly_xor (u v : BitVec w) : poly (u ^^^ v) = poly u + poly v := by
  ext n
  rw [coeff_add, coeff_poly, coeff_poly, coeff_poly, BitVec.getLsbD_xor]
  cases u.getLsbD n <;> cases v.getLsbD n <;> decide

theorem poly_setWidth_of_le {m : Nat} (h : w ≤ m) (v : BitVec w) : poly (v.setWidth m) = poly v := by
  ext n
  rw [coeff_poly, coeff_poly, BitVec.getLsbD_setWidth]
  by_cases hn : n < m
  · simp [hn]
  · simp [BitVec.getLsbD_of_ge v n (by omega)]

theorem poly_twoPow {i : Nat} (hi : i < w) : poly (BitVec.twoPow w i) = X ^ i := by
  ext n
  simp [coeff_poly, coeff_X_pow, BitVec.getLsbD_twoPow, hi, eq_comm]

/-- A shift that loses no set bit multiplies by a power of `X`. -/
theorem poly_shiftLeft {v : BitVec w} {i : Nat} (h : v.toNat < 2 ^ (w - i)) : poly (v <<< i) = poly v * X ^ i := by
  ext n
  rw [coeff_mul_X_pow', coeff_poly, coeff_poly, BitVec.getLsbD_shiftLeft]
  by_cases hi : i ≤ n
  · have hlost : w ≤ n → v.getLsbD (n - i) = false := fun hw =>
      Nat.testBit_lt_two_pow (h.trans_le (Nat.pow_le_pow_right (by decide) (by omega)))
    rcases Nat.lt_or_ge n w with hw | hw
    · simp [hw, hi, hi.not_gt]
    · simp [hw.not_gt, hlost hw]
  · simp [hi, Nat.lt_of_not_le hi]

/-! ### Products -/

/-- The XOR of `m` shifted to each set bit of `q` below `k`: the loop that `clmul` and `timesGenerator` share. -/
def shiftXor (m : Half) (q : Byte) (k : Nat) : Half :=
  (List.range k).foldl (fun p i => if q.getLsbD i then p ^^^ (m <<< i) else p) 0#16

theorem shiftXor_succ (m : Half) (q : Byte) (k : Nat) :
    shiftXor m q (k + 1) = if q.getLsbD k then shiftXor m q k ^^^ (m <<< k) else shiftXor m q k := by
  simp [shiftXor, List.range_succ]

theorem poly_shiftXor {m : Half} (hm : m.toNat < 2 ^ 9) (q : Byte) {k : Nat} (hk : k ≤ 8) :
    poly (shiftXor m q k) = poly m * ∑ i ∈ Finset.range k, if q.getLsbD i then X ^ i else 0 := by
  induction k with
  | zero => simp [shiftXor]
  | succ k ih =>
    have hshift : poly (m <<< k) = poly m * X ^ k :=
      poly_shiftLeft (hm.trans_le (Nat.pow_le_pow_right (by decide) (by omega)))
    rw [shiftXor_succ, Finset.sum_range_succ, mul_add, ← ih (by omega)]
    cases q.getLsbD k <;> simp [hshift]

theorem poly_clmul (a b : Byte) : poly (clmul a b) = poly a * poly b := by
  have hm : (a.setWidth 16).toNat < 2 ^ 9 := by simp; omega
  have hloop : clmul a b = shiftXor (a.setWidth 16) b 8 := rfl
  rw [hloop, poly_shiftXor hm b le_rfl, poly_setWidth_of_le (by decide), poly.eq_def b]

theorem poly_timesGenerator (q : Byte) : poly (timesGenerator q) = poly generator * poly q :=
  poly_shiftXor (by decide) q le_rfl

end Sys2Proof.Machine
end

section
/-! SUPPORT. GfReduce as the remainder modulo G (40_galois R101). -/

namespace Sys2Proof.Machine

open Polynomial

/-- A multiple of G changes by G shifted to bit `i` when the factor's bit `i` flips. -/
theorem timesGenerator_xor_twoPow (q : Byte) {i : Nat} (hi : i < 8) :
    timesGenerator (q ^^^ BitVec.twoPow 8 i) = timesGenerator q ^^^ generator <<< i := by
  have hshift : poly (generator <<< i) = poly generator * X ^ i :=
    poly_shiftLeft (lt_of_lt_of_le (by decide : _ < 2 ^ 9) (Nat.pow_le_pow_right (by decide) (by omega)))
  apply poly_injective
  rw [poly_timesGenerator, poly_xor, poly_xor, poly_timesGenerator, poly_twoPow hi, hshift, mul_add]

theorem msb_lt (v : Half) : msb v < 16 := by
  by_cases h : v.toNat = 0
  · simp [msb, h]
  · exact (Nat.log2_lt h).mpr v.isLt

theorem toNat_ne_zero_of_le {v : Half} (h : 0x0100#16 ≤ v) : v.toNat ≠ 0 :=
  Nat.ne_of_gt (lt_of_lt_of_le (by decide) h)

theorem le_msb {v : Half} (h : 0x0100#16 ≤ v) : 8 ≤ msb v :=
  (Nat.le_log2 (toNat_ne_zero_of_le h)).mpr h

/-- One pass clears the highest set bit and changes only lower ones (40_galois R101). -/
theorem reducePass_lt {v : Half} (h : 0x0100#16 ≤ v) :
    (v ^^^ generator <<< (msb v - 8)).toNat < 2 ^ msb v := by
  have hmsb := le_msb h
  refine Nat.lt_pow_two_of_testBit _ fun i hi => ?_
  rw [BitVec.testBit_toNat, BitVec.getLsbD_xor, BitVec.getLsbD_shiftLeft]
  rcases hi.eq_or_lt with rfl | hlt
  · have htop : v.getLsbD (msb v) = true := Nat.testBit_log2 (toNat_ne_zero_of_le h)
    have hG : generator.getLsbD 8 = true := by decide
    have hsub : msb v - (msb v - 8) = 8 := by omega
    rw [hsub, htop, hG]
    simp [msb_lt v]
  · have hv : v.getLsbD i = false :=
      Nat.testBit_lt_two_pow (Nat.lt_log2_self.trans_le (Nat.pow_le_pow_right (by decide) hlt))
    have hG : generator.getLsbD (i - (msb v - 8)) = false :=
      Nat.testBit_lt_two_pow
        (lt_of_lt_of_le (by decide : generator.toNat < 2 ^ 9) (Nat.pow_le_pow_right (by decide) (by omega)))
    simp [hv, hG]

/-- `n` passes are enough for `8 + n` bits. -/
theorem gfReducePasses_lt {n : Nat} {v : Half} (h : v.toNat < 2 ^ (8 + n)) : (gfReducePasses n v).toNat < 2 ^ 8 := by
  fun_induction gfReducePasses n v with
  | case1 => exact h
  | case2 _ _ hlt => exact hlt
  | case3 n v hge ih =>
    have hle := BitVec.not_lt.mp hge
    have hmsb : msb v < 8 + (n + 1) := (Nat.log2_lt (toNat_ne_zero_of_le hle)).mpr h
    exact ih ((reducePass_lt hle).trans_le (Nat.pow_le_pow_right (by decide) (by omega)))

/-- Passes take away a multiple of G. -/
theorem exists_timesGenerator_xor_gfReducePasses (n : Nat) (v : Half) :
    ∃ q : Byte, v = timesGenerator q ^^^ gfReducePasses n v := by
  have hnone : timesGenerator 0x00#8 = 0#16 := by decide
  fun_induction gfReducePasses n v with
  | case1 => exact ⟨0x00#8, by simp [hnone]⟩
  | case2 => exact ⟨0x00#8, by simp [hnone]⟩
  | case3 n v _ ih =>
    obtain ⟨q, hq⟩ := ih
    have hi : msb v - 8 < 8 := by have := msb_lt v; omega
    refine ⟨q ^^^ BitVec.twoPow 8 (msb v - 8), ?_⟩
    rw [timesGenerator_xor_twoPow q hi, BitVec.xor_assoc, BitVec.xor_comm (generator <<< _), ← BitVec.xor_assoc, ← hq,
      BitVec.xor_assoc, BitVec.xor_self, BitVec.xor_zero]

/-- The remainder differs from the value by a multiple of G (40_galois R101). -/
theorem exists_timesGenerator_xor_gfReduce (v : Half) :
    ∃ q : Byte, v = timesGenerator q ^^^ (gfReduce v).setWidth 16 := by
  have hfit : (gfReduce v).setWidth 16 = gfReducePasses 8 v := by
    have := gfReducePasses_lt (n := 8) v.isLt
    apply BitVec.eq_of_toNat_eq
    simp [gfReduce]
    omega
  rw [hfit]
  exact exists_timesGenerator_xor_gfReducePasses 8 v

end Sys2Proof.Machine
end

section
/-! SUPPORT. The bytes under XOR and GfMul as the ring GF(2)[x]/(G) (40_galois R103): `residue` carries the laws of the
ring to GfMul. -/

namespace Sys2Proof.Machine

open Polynomial

variable {w : Nat}

/-- A bit vector's class modulo G. -/
noncomputable def residue (v : BitVec w) : AdjoinRoot (poly generator) := AdjoinRoot.mk _ (poly v)

@[simp] theorem residue_zero : residue (0#w) = 0 := by simp [residue]

@[simp] theorem residue_one : residue 0x01#8 = 1 := by
  have hone : poly 0x01#8 = 1 := poly_twoPow (w := 8) (i := 0) (by decide)
  rw [residue, hone, map_one]

@[simp] theorem residue_xor (u v : BitVec w) : residue (u ^^^ v) = residue u + residue v := by
  simp [residue]

/-- G has degree 8, and every polynomial of a byte a lower one. -/
theorem eq_zero_of_residue_eq_zero {a : Byte} (h : residue a = 0) : a = 0x00#8 := by
  have hdvd : poly generator ∣ poly a := AdjoinRoot.mk_eq_zero.mp h
  have hG : ((8 : Nat) : WithBot Nat) ≤ (poly generator).degree := by
    have htop : generator.getLsbD 8 = true := by decide
    exact le_degree_of_ne_zero (by simp [coeff_poly, htop])
  have ha : (poly a).degree < (8 : Nat) :=
    (degree_lt_iff_coeff_zero _ _).mpr fun m hm => by simp [coeff_poly, BitVec.getLsbD_of_ge a m hm]
  by_contra hne
  have hpoly : poly a ≠ 0 := fun h0 => hne (poly_injective (h0.trans poly_zero.symm))
  exact absurd (hG.trans (degree_le_of_dvd hdvd hpoly)) (not_le.mpr ha)

theorem residue_injective : Function.Injective (fun a : Byte => residue a) := by
  intro a b h
  have hsum : residue (a ^^^ b) = 0 := by
    have hself : residue (b ^^^ b) = 0 := by simp
    rw [residue_xor] at hself ⊢
    exact (congrArg (· + residue b) h).trans hself
  exact BitVec.xor_eq_zero_iff.mp (eq_zero_of_residue_eq_zero hsum)

theorem residue_gfReduce (v : Half) : residue (gfReduce v) = residue v := by
  obtain ⟨q, hq⟩ := exists_timesGenerator_xor_gfReduce v
  conv_rhs => rw [hq]
  simp [residue, poly_timesGenerator, poly_setWidth_of_le]

@[simp] theorem residue_gfMul (a b : Byte) : residue (gfMul a b) = residue a * residue b := by
  rw [gfMul, residue_gfReduce, residue, poly_clmul, map_mul, residue, residue]

@[simp] theorem residue_gfPow (a : Byte) (n : Nat) : residue (gfPow a n) = residue a ^ n := by
  induction n with
  | zero => simp [gfPow]
  | succ n ih => rw [gfPow, residue_gfMul, ih, pow_succ']

/-! ### Laws -/

theorem gfMul_comm (a b : Byte) : gfMul a b = gfMul b a :=
  residue_injective (by simp [mul_comm])

theorem gfMul_assoc (a b c : Byte) : gfMul (gfMul a b) c = gfMul a (gfMul b c) :=
  residue_injective (by simp [mul_assoc])

theorem gfMul_xor (a b c : Byte) : gfMul a (b ^^^ c) = gfMul a b ^^^ gfMul a c :=
  residue_injective (by simp [mul_add])

@[simp] theorem gfMul_zero (a : Byte) : gfMul a 0x00#8 = 0x00#8 :=
  residue_injective (by simp)

@[simp] theorem gfMul_one (a : Byte) : gfMul a 0x01#8 = a :=
  residue_injective (by simp)

theorem gfMul_gfPow (a : Byte) (m n : Nat) : gfMul (gfPow a m) (gfPow a n) = gfPow a (m + n) :=
  residue_injective (by simp [pow_add])

/-! ### The powers of 0x02 are the nonzero bytes -/

theorem gfPow_two_255 : gfPow 0x02#8 255 = 0x01#8 := by decide +kernel

/-- None of the powers 255/3, 255/5 and 255/17 is 1. -/
theorem orderOf_residue_two : orderOf (residue 0x02#8) = 255 := by
  have hpow : ∀ n, residue 0x02#8 ^ n = 1 ↔ gfPow 0x02#8 n = 0x01#8 := fun n => by
    rw [← residue_gfPow, ← residue_one]
    exact residue_injective.eq_iff
  have hmax : gfPow 0x02#8 85 ≠ 0x01#8 ∧ gfPow 0x02#8 51 ≠ 0x01#8 ∧ gfPow 0x02#8 15 ≠ 0x01#8 := by
    decide +kernel
  obtain ⟨h3, h5, h17⟩ := hmax
  refine orderOf_eq_of_pow_and_pow_div_prime (by decide) ((hpow 255).mpr gfPow_two_255) fun p hp hdvd => ?_
  rw [Ne, hpow]
  have hfactor : p ∈ Nat.primeFactors 255 := Nat.mem_primeFactors.mpr ⟨hp, hdvd, by decide⟩
  have hfactors : Nat.primeFactors 255 = {3, 5, 17} := by decide +kernel
  rw [hfactors] at hfactor
  simp only [Finset.mem_insert, Finset.mem_singleton] at hfactor
  rcases hfactor with rfl | rfl | rfl
  · exact h3
  · exact h5
  · exact h17

theorem gfPow_two_ne_one {n : Nat} (hpos : 0 < n) (hlt : n < 255) : gfPow 0x02#8 n ≠ 0x01#8 := by
  intro h
  have hone : residue 0x02#8 ^ n = 1 := by rw [← residue_gfPow, h, residue_one]
  exact pow_ne_one_of_lt_orderOf hpos.ne' (orderOf_residue_two ▸ hlt) hone

theorem gfMul_gfPow_two_inverse {n : Nat} (hn : n < 255) :
    gfMul (gfPow 0x02#8 n) (gfPow 0x02#8 (255 - n)) = 0x01#8 := by
  rw [gfMul_gfPow, Nat.add_sub_cancel' hn.le, gfPow_two_255]

/-- The 255 powers of 0x02 are distinct and not 0, and there are no more nonzero bytes. -/
theorem exists_gfPow_two_eq {a : Byte} (ha : a ≠ 0x00#8) : ∃ n < 255, gfPow 0x02#8 n = a := by
  have hinj : Set.InjOn (gfPow 0x02#8) (Finset.range 255) := by
    intro m hm n hn h
    have hpow : residue 0x02#8 ^ m = residue 0x02#8 ^ n := by rw [← residue_gfPow, h, residue_gfPow]
    exact pow_injOn_Iio_orderOf (by simpa [orderOf_residue_two] using hm) (by simpa [orderOf_residue_two] using hn) hpow
  have hne : ∀ n < 255, gfPow 0x02#8 n ≠ 0x00#8 := by
    intro n hn h0
    have hinv := gfMul_gfPow_two_inverse hn
    rw [h0, gfMul_comm, gfMul_zero] at hinv
    exact absurd hinv (by decide)
  have hcard : (Finset.univ : Finset Byte).card = 256 :=
    FinEnum.card_eq_fintypeCard.symm.trans (FinEnum.card_bitVec 8)
  have hall : (Finset.range 255).image (gfPow 0x02#8) = Finset.univ.erase 0x00#8 := by
    apply Finset.eq_of_subset_of_card_le
    · simpa [Finset.subset_iff] using hne
    · rw [Finset.card_image_of_injOn hinj, Finset.card_range, Finset.card_erase_of_mem (Finset.mem_univ _), hcard]
  have hmem : a ∈ (Finset.range 255).image (gfPow 0x02#8) := hall ▸ Finset.mem_erase.mpr ⟨ha, Finset.mem_univ a⟩
  simpa using hmem

theorem exists_gfMul_eq_one {a : Byte} (ha : a ≠ 0x00#8) : ∃ b, gfMul a b = 0x01#8 := by
  obtain ⟨n, hn, rfl⟩ := exists_gfPow_two_eq ha
  exact ⟨_, gfMul_gfPow_two_inverse hn⟩

theorem gfMul_eq_zero {a b : Byte} (h : gfMul a b = 0x00#8) : a = 0x00#8 ∨ b = 0x00#8 := by
  by_contra! hne
  obtain ⟨ha, hb⟩ := hne
  obtain ⟨c, hc⟩ := exists_gfMul_eq_one ha
  have hzero : b = 0x00#8 := calc
    b = gfMul b (gfMul a c) := by rw [hc, gfMul_one]
    _ = gfMul c (gfMul a b) := by rw [← gfMul_assoc, gfMul_comm, gfMul_comm b]
    _ = 0x00#8 := by rw [h, gfMul_zero]
  exact hb hzero

/-- G is irreducible: a product that is G is 0 modulo G, so that one of its factors is 0, and then it is not G. -/
theorem clmul_ne_generator (a b : Byte) : clmul a b ≠ generator := by
  intro h
  have hmod : gfMul a b = 0x00#8 := by
    rw [gfMul, h]
    decide
  have hpoly : poly generator = poly 0#16 := by
    rw [← h, poly_clmul, poly_zero]
    rcases gfMul_eq_zero hmod with rfl | rfl
    · rw [poly_zero, zero_mul]
    · rw [poly_zero, mul_zero]
  exact absurd (poly_injective hpoly) (by decide)

/-- Settles O46: the laws of GF(2)[x]/(G), and the powers of 0x02. -/
theorem gfMulMakesAField : Obligations.GfMulMakesAField := by
  unfold Obligations.GfMulMakesAField
  exact ⟨fun _ _ => rfl, fun a b => exists_timesGenerator_xor_gfReduce (clmul a b), gfMul_comm, gfMul_zero, gfMul_one,
    gfMul_assoc, gfMul_xor, gfPow_two_255, fun _ => gfPow_two_ne_one, clmul_ne_generator,
    fun _ => exists_gfMul_eq_one⟩

end Sys2Proof.Machine
end

section
/-! SUPPORT. The Hamming decoder lane by lane (41_hamming R120, R122 to R124): the syndrome is linear, the columns of H
name the position that the search flips, and position 7, whose column is zero, stands for none. -/

namespace Sys2Proof.Machine

/-! ### Bytes of a word -/

theorem byteAt_set (r : List Byte) (v : Byte) (i : Nat) {k : Nat} (hk : k < r.length) :
    byteAt (r.set i v) k = if i = k then v else byteAt r k := by
  simp only [byteAt, List.getD_eq_getElem?_getD]
  split
  next h => subst h; simp [hk]
  next h => rw [List.getElem?_set_ne h]

/-- Words of one length are equal when they agree in every lane of every byte. -/
theorem ext_byteAt_getLsbD {xs ys : List Byte} (hlen : xs.length = ys.length)
    (h : ∀ k < ys.length, ∀ b < 8, (byteAt xs k).getLsbD b = (byteAt ys k).getLsbD b) : xs = ys := by
  refine List.ext_getElem hlen fun k hx hy => BitVec.eq_of_getLsbD_eq fun b hb => ?_
  simpa [byteAt, hx, hy] using h k hy b hb

/-- An error pattern acts on each byte by itself (41_hamming R125). -/
theorem byteAt_corrupt {c e : List Byte} (h : c.length = e.length) (k : Nat) :
    byteAt (corrupt c e) k = byteAt c k ^^^ byteAt e k := by
  by_cases hk : k < c.length
  · exact getD_zipWith_byte _ hk (h ▸ hk)
  · have hk' : ¬k < e.length := h ▸ hk
    simp [byteAt, corrupt, List.getD_eq_getElem?_getD, hk, hk']

/-! ### The columns of H -/

/-- 41_hamming R124, with the zero pattern as the column of position 7. -/
theorem exists_column : ∀ pat : Pattern, ∃ i < 8, column i = pat := by decide

theorem column_inj {i k : Nat} (hi : i < 8) (hk : k < 8) : column i = column k ↔ i = k := by
  have hall : ∀ i < 8, ∀ k < 8, (column i = column k ↔ i = k) := by decide
  exact hall i hi k hk

theorem column_eq_zero_iff {i : Nat} (hi : i < 8) : column i = (false, false, false) ↔ i = 7 :=
  column_inj hi (k := 7) (by decide)

/-- The search finds the position whose column it looks for (41_hamming R124 (a)). -/
theorem findPosition_column : ∀ i < 7, findPosition (column i) = some i := by decide

/-! ### The syndrome -/

/-- The pattern of a word's lane (41_hamming R122). -/
def wordPattern (r : List Byte) (b : Nat) : Pattern := lanePattern (syndrome r 0) (syndrome r 1) (syndrome r 2) b

/-- 41_hamming R122, written out. -/
theorem syndrome_rows (r : List Byte) :
    syndrome r 0 = byteAt r 0 ^^^ byteAt r 1 ^^^ byteAt r 3 ^^^ byteAt r 4 ∧
    syndrome r 1 = byteAt r 0 ^^^ byteAt r 2 ^^^ byteAt r 3 ^^^ byteAt r 5 ∧
    syndrome r 2 = byteAt r 1 ^^^ byteAt r 2 ^^^ byteAt r 3 ^^^ byteAt r 6 := by
  simp [syndrome, matrixBit, syndromeMatrix, List.range_succ, byteAt]

/-- The syndrome is linear. -/
theorem syndrome_corrupt {c e : List Byte} (h : c.length = e.length) {s : Nat} (hs : s < 3) :
    syndrome (corrupt c e) s = syndrome c s ^^^ syndrome e s := by
  obtain ⟨hr0, hr1, hr2⟩ := syndrome_rows (corrupt c e)
  obtain ⟨hc0, hc1, hc2⟩ := syndrome_rows c
  obtain ⟨he0, he1, he2⟩ := syndrome_rows e
  simp only [byteAt_corrupt h] at hr0 hr1 hr2
  interval_cases s
  · rw [hr0, hc0, he0]; ac_rfl
  · rw [hr1, hc1, he1]; ac_rfl
  · rw [hr2, hc2, he2]; ac_rfl

/-- Each parity byte cancels the data bytes of its row (41_hamming R121). -/
theorem syndrome_hamEncRound (d0 d1 d2 d3 : Byte) {s : Nat} (hs : s < 3) :
    syndrome (hamEncRound d0 d1 d2 d3) s = 0x00#8 := by
  obtain ⟨h0, h1, h2⟩ := syndrome_rows (hamEncRound d0 d1 d2 d3)
  interval_cases s
  · exact h0.trans BitVec.xor_self
  · exact h1.trans BitVec.xor_self
  · exact h2.trans BitVec.xor_self

/-- The pattern of a received word shows the error alone. -/
theorem wordPattern_corrupt_hamEncRound (d0 d1 d2 d3 : Byte) {e : List Byte} (he : e.length = 7) (b : Nat) :
    wordPattern (corrupt (hamEncRound d0 d1 d2 d3) e) b = wordPattern e b := by
  have h : ∀ s < 3, syndrome (corrupt (hamEncRound d0 d1 d2 d3) e) s = syndrome e s := fun s hs => by
    have hlen : (hamEncRound d0 d1 d2 d3).length = e.length := he.symm
    rw [syndrome_corrupt hlen hs, syndrome_hamEncRound d0 d1 d2 d3 hs, BitVec.zero_xor]
  rw [wordPattern, h 0 (by decide), h 1 (by decide), h 2 (by decide), wordPattern]

/-- A lane with one error, at position `i`, has the pattern of column `i`; one without errors has the zero pattern. -/
theorem wordPattern_of_oneError {e : List Byte} {b i : Nat} (hi : i < 8)
    (h : ∀ m < 7, (byteAt e m).getLsbD b = decide (m = i)) : wordPattern e b = column i := by
  have hcolumn : ∀ i < 8, column i =
      ((decide (0 = i) ^^ decide (1 = i) ^^ decide (3 = i) ^^ decide (4 = i)),
        (decide (0 = i) ^^ decide (2 = i) ^^ decide (3 = i) ^^ decide (5 = i)),
        (decide (1 = i) ^^ decide (2 = i) ^^ decide (3 = i) ^^ decide (6 = i))) := by decide
  obtain ⟨h0, h1, h2⟩ := syndrome_rows e
  simp [hcolumn i hi, wordPattern, lanePattern, h0, h1, h2, h]

/-! ### The correction -/

/-- Correcting a lane flips its bit at the position of its column, if there is one (41_hamming R123). -/
theorem fixLane_of_column {s0 s1 s2 : Byte} {r : List Byte} {b i : Nat} (hlen : r.length = 7) (hi : i < 8)
    (h : lanePattern s0 s1 s2 b = column i) : fixLane s0 s1 s2 r b = r.set i (byteAt r i ^^^ (1#8 <<< b)) := by
  unfold fixLane
  rw [h]
  split
  next h0 =>
    obtain rfl := (column_eq_zero_iff hi).mp h0
    exact (List.set_eq_of_length_le hlen.le).symm
  next h0 =>
    have hi7 : i ≠ 7 := (column_eq_zero_iff hi).not.mp h0
    rw [findPosition_column i (by omega)]
    rfl

/-- Lane `n` is the only one that its correction touches. -/
theorem getLsbD_fixLane (s0 s1 s2 : Byte) {r : List Byte} (hlen : r.length = 7) (n : Nat) {k b : Nat} (hk : k < 7)
    (hb : b < 8) :
    (byteAt (fixLane s0 s1 s2 r n) k).getLsbD b =
      ((byteAt r k).getLsbD b ^^ (decide (b = n) && lanePattern s0 s1 s2 n == column k)) := by
  obtain ⟨i, hi, hcol⟩ := exists_column (lanePattern s0 s1 s2 n)
  have hone : (1#8 <<< n).getLsbD b = decide (b = n) := by
    rw [← BitVec.twoPow_eq, BitVec.getLsbD_twoPow]
    by_cases hbn : b = n
    · simp [← hbn, hb]
    · simp [hbn, Ne.symm hbn]
  rw [fixLane_of_column hlen hi hcol.symm, byteAt_set r _ i (hlen ▸ hk), ← hcol]
  by_cases hik : i = k
  · subst hik
    simp [hone]
  · have hne : (column i == column k) = false := beq_false_of_ne ((column_inj hi (by omega)).not.mpr hik)
    simp [hik, hne]

/-- The lanes corrected one after the other are corrected each by its own pattern (41_hamming R120). -/
theorem getLsbD_foldl_fixLane (s0 s1 s2 : Byte) {r : List Byte} (hlen : r.length = 7) (n : Nat) {k b : Nat} (hk : k < 7)
    (hb : b < 8) :
    (byteAt ((List.range n).foldl (fixLane s0 s1 s2) r) k).getLsbD b =
      ((byteAt r k).getLsbD b ^^ (decide (b < n) && lanePattern s0 s1 s2 b == column k)) := by
  induction n with
  | zero => simp
  | succ n ih =>
    rw [List.range_succ, List.foldl_append, List.foldl_cons, List.foldl_nil,
      getLsbD_fixLane _ _ _ (by rw [foldl_fixLane_length, hlen]) n hk hb, ih]
    by_cases hbn : b = n
    · subst hbn
      simp
    · have hlt : b < n + 1 ↔ b < n := by omega
      simp [hbn, hlt]

/-- A decoded bit is the received one, flipped where the lane's pattern is the position's column (41_hamming R123,
R124). -/
theorem getLsbD_hamDecRound {r : List Byte} (hlen : r.length = 7) {k b : Nat} (hk : k < 4) (hb : b < 8) :
    (byteAt (hamDecRound r) k).getLsbD b = ((byteAt r k).getLsbD b ^^ (wordPattern r b == column k)) := by
  unfold hamDecRound
  split
  next h0 =>
    obtain ⟨hs0, hs1, hs2⟩ := h0
    have hzero : wordPattern r b = (false, false, false) := by simp [wordPattern, lanePattern, hs0, hs1, hs2]
    have hcol : ((false, false, false) == column k) = false :=
      beq_false_of_ne fun h => absurd ((column_eq_zero_iff (by omega)).mp h.symm) (by omega)
    rw [hzero, hcol, Bool.xor_false, byteAt, getD_take_byte r hk, byteAt]
  next =>
    rw [byteAt, getD_take_byte _ hk]
    have h := getLsbD_foldl_fixLane (syndrome r 0) (syndrome r 1) (syndrome r 2) hlen 8 (k := k) (by omega) hb
    simpa [hb, byteAt, wordPattern] using h

/-! ### One error in each lane -/

/-- The lane's error position, 7 when there is none. -/
theorem AtMostOnePerLane.exists_position {e : List Byte} (h : AtMostOnePerLane e) {b : Nat} (hb : b < 8) :
    ∃ i < 8, ∀ m < 7, (byteAt e m).getLsbD b = decide (m = i) := by
  by_cases herr : ∃ i < 7, (byteAt e i).getLsbD b = true
  · obtain ⟨i, hi, hbit⟩ := herr
    refine ⟨i, by omega, fun m _ => ?_⟩
    by_cases hm : m = i
    · simpa [hm] using hbit
    · simpa [hm] using fun hbit' => hm (h b hb m i hbit' hbit)
  · push Not at herr
    exact ⟨7, by decide, fun m hm => by simpa [hm.ne] using herr m hm⟩

/-- Settles O49: the lane's pattern is the column of its error's position, so that the decoder flips the bit that the
error flipped, and no other. -/
theorem hammingCorrectsOneErrorPerLane : Obligations.HammingCorrectsOneErrorPerLane := by
  unfold Obligations.HammingCorrectsOneErrorPerLane
  intro d0 d1 d2 d3 e he hone
  have hlen : (hamEncRound d0 d1 d2 d3).length = e.length := he.symm
  have hword : (corrupt (hamEncRound d0 d1 d2 d3) e).length = 7 := by simp [corrupt, hamEncRound, he]
  refine ext_byteAt_getLsbD (hamDecRound_length hword) fun k hk b hb => ?_
  have hk4 : k < 4 := hk
  obtain ⟨i, hi, herr⟩ := hone.exists_position hb
  have hflip : (column i == column k) = decide (k = i) := by
    rw [beq_eq_decide, decide_eq_decide, column_inj hi (by omega), eq_comm]
  have hdata : byteAt (hamEncRound d0 d1 d2 d3) k = byteAt [d0, d1, d2, d3] k :=
    (getD_append_byte [d0, d1, d2, d3] _ k).trans (if_pos hk)
  rw [getLsbD_hamDecRound hword hk4 hb, wordPattern_corrupt_hamEncRound d0 d1 d2 d3 he,
    wordPattern_of_oneError hi herr, byteAt_corrupt hlen, BitVec.getLsbD_xor, herr k (by omega), hflip, hdata]
  simp

end Sys2Proof.Machine
end

section
/-! SUPPORT. The framer's header byte by byte (42_framer R141), and the buffers of an interleaved group (R148). -/

namespace Sys2Proof.Machine

/-! ### The header -/

/-- 42_framer R141, BE = 1. -/
theorem field16_true (v : Half) : field16 v true = [v.extractLsb' 8 8, v.extractLsb' 0 8] := rfl

/-- 42_framer R141, BE = 0. -/
theorem field16_false (v : Half) : field16 v false = [v.extractLsb' 0 8, v.extractLsb' 8 8] := rfl

/-- Settles O53: the four fields one after the other, each in the order of `be`. -/
theorem headerBytesInBothOrders : Obligations.HeaderBytesInBothOrders := by
  unfold Obligations.HeaderBytesInBothOrders
  intro len sp
  constructor
  · simp [headerBytes, field16_true]
  · simp [headerBytes, field16_false]

/-! ### The interleaver -/

/-- Position `j` of buffer `r` comes from byte `r` of codeword `j` (42_framer R148). -/
theorem ilvSource_mul_add {l j : Nat} (r : Nat) (hj : j < l) : ilvSource l (r * l + j) = 7 * j + r := by
  have hmod : (r * l + j) % l = j := by rw [Nat.mul_add_mod', Nat.mod_eq_of_lt hj]
  have hdiv : (r * l + j) / l = r := by
    rw [Nat.add_comm, Nat.add_mul_div_right _ _ (by omega), Nat.div_eq_of_lt hj, Nat.zero_add]
  rw [ilvSource, hmod, hdiv]

/-- Settles O54: byte `m` of the payload is byte `ilvSource l m` of the group, with `m = r*l + j`. -/
theorem buffersOfAnInterleavedGroup : Obligations.BuffersOfAnInterleavedGroup := by
  unfold Obligations.BuffersOfAnInterleavedGroup
  intro l q _
  refine ⟨interleave_length l q, fun r hr j hj => ?_⟩
  have hm : r * l + j < 7 * l := calc
    r * l + j < (r + 1) * l := by rw [Nat.succ_mul]; omega
    _ ≤ 7 * l := Nat.mul_le_mul_right l hr
  rw [byteAt, interleave_getD q hm, ilvSource_mul_add r hj, byteAt]

end Sys2Proof.Machine
end

section
/-! SUPPORT. RsDecGroup branch by branch (43_reed_solomon R183): its Boolean tests as statements about the bytes of the
payloads, and its XOR of two payloads byte by byte. -/

namespace Sys2Proof.Machine

/-- 43_reed_solomon R180: every byte is zero. -/
theorem erased_iff {bs : List Byte} : erased bs = true ↔ ∀ v ∈ bs, v = 0x00#8 := by simp [erased]

theorem not_erased_iff {bs : List Byte} : erased bs = false ↔ ∃ v ∈ bs, v ≠ 0x00#8 := by simp [erased]

/-- The XOR of two payloads of `p` bytes, byte by byte. -/
theorem payloadAdd_eq_map {x y : List Byte} {p : Nat} (hx : x.length = p) (hy : y.length = p) :
    payloadAdd x y = (List.range p).map fun j => byteAt x j ^^^ byteAt y j := by
  apply List.ext_getElem
  · simp [payloadAdd, hx, hy]
  · intro j hj _
    obtain ⟨hjx, hjy⟩ : j < x.length ∧ j < y.length := by simpa [payloadAdd] using hj
    simp [payloadAdd, gfAdd, byteAt, hjx, hjy]

/-! ### One equation per branch -/

theorem rsDecGroup_of_erased_first {p0 p2 : List Byte} (p1 : List Byte) (h0 : erased p0 = true)
    (h2 : erased p2 = false) : rsDecGroup p0 p1 p2 = payloadAdd p1 p2 ++ p1 := by
  simp [rsDecGroup, h0, h2]

theorem rsDecGroup_of_erased_second {p0 p1 p2 : List Byte} (h0 : erased p0 = false) (h1 : erased p1 = true)
    (h2 : erased p2 = false) : rsDecGroup p0 p1 p2 = p0 ++ payloadAdd p0 p2 := by
  simp [rsDecGroup, h0, h1, h2]

theorem rsDecGroup_of_none_erased {p0 p1 : List Byte} (p2 : List Byte) (h0 : erased p0 = false)
    (h1 : erased p1 = false) : rsDecGroup p0 p1 p2 = p0 ++ p1 := by
  simp [rsDecGroup, h0, h1]

/-- An erased parity payload recovers nothing, whatever the data payloads are. -/
theorem rsDecGroup_of_erased_third (p0 p1 : List Byte) {p2 : List Byte} (h2 : erased p2 = true) :
    rsDecGroup p0 p1 p2 = p0 ++ p1 := by
  simp [rsDecGroup, h2]

/-- Settles O58: each clause is the equation of its branch; the last covers both ways to recover nothing. -/
theorem rsDecGroupBranches : Obligations.RsDecGroupBranches := by
  unfold Obligations.RsDecGroupBranches
  intro p p0 p1 p2 hp0 hp1 hp2
  simp only [← erased_iff, ← not_erased_iff, ← payloadAdd_eq_map hp1 hp2, ← payloadAdd_eq_map hp0 hp2]
  refine ⟨rsDecGroup_of_erased_first p1, rsDecGroup_of_erased_second, ?_⟩
  rintro (⟨h0, h1⟩ | h2)
  · exact rsDecGroup_of_none_erased p2 h0 h1
  · exact rsDecGroup_of_erased_third p0 p1 h2

end Sys2Proof.Machine
end

section
/-! SUPPORT. The two errors of acceptance (60_exceptions R201, R202): a CMD write that meets one ends at once, and the
turns of the sequencer raise neither. -/

namespace Sys2Proof.Machine

variable {s : State}

/-! ### The illegal words -/

/-- 30_encoding R74: the opcodes that the map of R71 leaves out. -/
theorem instrOfOpcode_eq_none_iff : ∀ op : BitVec 4,
    instrOfOpcode op = none ↔ op ∈ [0x0#4, 0xC#4, 0xD#4, 0xE#4, 0xF#4] := by
  decide

theorem exists_decode_error_iff {w : Word} :
    (∃ x, decode w = .error x) ↔
      reservedField w ≠ 0#28 ∨ opcodeField w ∈ [0x0#4, 0xC#4, 0xD#4, 0xE#4, 0xF#4] := by
  rw [← instrOfOpcode_eq_none_iff]
  unfold decode
  by_cases hr : reservedField w = 0#28
  · cases ho : instrOfOpcode (opcodeField w) <;> simp [hr]
  · simp [hr]

/-- An illegal word is accepted like a legal one, but for `op`, and ends before the first turn. -/
theorem State.writeCmd_illegal {w : Word} {x : DecodeError} (hp : s.phase = .idle) (hd : decode w = .error x) :
    s.writeCmd w = .next { s.latch.raiseErrOpc with turns := [] } := by
  simp only [State.writeCmd, hd, hp]
  exact State.advance_idle s.latch.raiseErrOpc_phase

/-! ### What an error leaves -/

theorem statusCompleted_setErrOpc_accepted : statusCompleted (statusSetErrOpc statusAccepted) = 0xA#32 := by decide

theorem statusCompleted_setErrArg_accepted : statusCompleted (statusSetErrArg statusAccepted) = 0x6#32 := by decide

/-- The turns that the CMD write brings (`ts`) are none of what the error keeps. -/
theorem State.endsWithError_raiseErrOpc (s : State) (ts : List Turn) :
    EndsWithError 0xA#32 s { { s with turns := ts }.latch.raiseErrOpc with turns := [] } :=
  ⟨statusCompleted_setErrOpc_accepted, rfl, rfl, rfl, rfl, rfl, rfl, rfl, rfl, rfl, rfl, rfl, rfl, rfl, rfl⟩

theorem State.endsWithError_raiseErrArg (s : State) (i : Instr) :
    EndsWithError 0x6#32 s { (s.latchOp i).raiseErrArg with turns := [] } :=
  ⟨statusCompleted_setErrArg_accepted, rfl, rfl, rfl, rfl, rfl, rfl, rfl, rfl, rfl, rfl, rfl, rfl, rfl, rfl⟩

/-- Settles O7: the word decodes to no command, so the CMD write latches everything but `op` and completes with
ERR_OPC. -/
theorem illegalWordEndsWithErrOpc : Obligations.IllegalWordEndsWithErrOpc := by
  unfold Obligations.IllegalWordEndsWithErrOpc
  intro s w ts rest hidle hscript hillegal
  obtain ⟨x, hd⟩ := exists_decode_error_iff.mpr hillegal
  have hp : (s.past ⟨.write 32 0x00 w, ts⟩ rest).phase = .idle := hidle
  have hstep := (step_of_cmdWrite hscript rfl).trans (State.writeCmd_illegal hp hd)
  exact ⟨_, hstep, State.endsWithError_raiseErrOpc { s with script := rest } ts, rfl⟩

/-! ### The error flags while the sequencer takes its turns -/

/-- STATUS has neither ERR_ARG nor ERR_OPC set (10_state R22). -/
def NoError (w : Word) : Prop := statusErrArg w = false ∧ statusErrOpc w = false

theorem noError_statusAccepted : NoError statusAccepted := ⟨rfl, rfl⟩

/-- Completion changes bits 0 and 1 of STATUS, the error flags are bits 2 and 3. -/
theorem noError_statusCompleted {w : Word} (h : NoError w) : NoError (statusCompleted w) := by
  simpa [NoError, statusCompleted, statusErrArg, statusErrOpc] using h

/-- Of all turns only the completing one writes STATUS. -/
theorem State.turn_status (s : State) (t : Turn) :
    (s.turn t).status = s.status ∨ (s.turn t).status = statusCompleted s.status := by
  have h := s.turn_effect t
  generalize s.turn t = u at h ⊢
  cases h with
  | complete => exact .inr rfl
  | readStop _ _ _ _ _ s' hi => obtain ⟨q, n, e, rfl⟩ := State.inRead_eq hi; exact .inl rfl
  | read _ _ _ _ _ t s' hi => obtain ⟨q, n, e, rfl⟩ := State.inRead_eq hi; exact .inl rfl
  | _ => exact .inl rfl

theorem State.noError_turn (s : State) (t : Turn) (h : NoError s.status) : NoError (s.turn t).status := by
  rcases s.turn_status t with hs | hs <;> rw [hs]
  · exact h
  · exact noError_statusCompleted h

theorem State.noError_runTurns (ts : List Turn) (h : NoError s.status) : NoError (State.runTurns ts s).status :=
  State.runTurns_keeps (P := fun u => NoError u.status) State.noError_turn ts h

/-- Settles O8: a failed check ends the command before its first turn; after a passed one STATUS is that of acceptance,
and no turn sets an error flag. -/
theorem errArgExactlyOnABadArgument : Obligations.ErrArgExactlyOnABadArgument := by
  unfold Obligations.ErrArgExactlyOnABadArgument
  intro i s hidle
  refine ⟨fun hbad => ?_, fun hgood t hexec => ?_⟩
  · have hcheck : (commandOf i).argOk (s.latchOp i) = false :=
      Bool.eq_false_of_not_eq_true fun hok => argOk_iff.mp hok hbad
    exact ⟨_, exec_refused hidle hcheck, s.endsWithError_raiseErrArg i⟩
  · have haccept : s.accept i = s.latchOp i := if_pos (argOk_iff.mpr hgood)
    rw [exec_eq_issue, State.issue_idle hidle, haccept] at hexec
    obtain ⟨-, rfl⟩ := State.advance_next hexec
    exact State.noError_runTurns _ noError_statusAccepted

end Sys2Proof.Machine
end

section
/-! SUPPORT. The decoder of CMD words (30_encoding R70, R71, R74): an equation for each of its answers, and the words that
get each. -/

namespace Sys2Proof

open Laws.WordLegal

/-! ### The opcode map -/

/-- The map of R71 read both ways: an opcode is that of at most one command. -/
theorem instrOfOpcode_eq_some_iff (i : Instr) : ∀ op : BitVec 4, instrOfOpcode op = some i ↔ op = opcodeOf i := by
  cases i <;> decide

/-! ### The fields of a word -/

/-- A word is determined by its two fields. -/
theorem word_eq_iff_fields {v w : Word} : v = w ↔ reservedField v = reservedField w ∧ opcodeField v = opcodeField w := by
  refine ⟨fun h => h ▸ ⟨rfl, rfl⟩, fun ⟨hr, ho⟩ => ?_⟩
  rw [word_eq v, word_eq w, hr, ho]

theorem reservedField_encode (i : Instr) : reservedField (encode i) = 0#28 := by cases i <;> decide

theorem opcodeField_encode (i : Instr) : opcodeField (encode i) = opcodeOf i := by cases i <;> decide

/-- The reserved field is bits 31:4. -/
theorem reservedField_ne_zero_iff {w : Word} :
    reservedField w ≠ 0#28 ↔ ∃ b, 4 ≤ b ∧ b < 32 ∧ w.getLsbD b = true := by
  have hbit : ∀ j, (reservedField w).getLsbD j = (decide (j < 28) && w.getLsbD (4 + j)) := fun j => by
    rw [reservedField, BitVec.getLsbD_extractLsb']
  constructor
  · contrapose!
    intro h
    refine BitVec.eq_of_getLsbD_eq fun j hj => ?_
    rw [hbit, Bool.eq_false_of_not_eq_true (h (4 + j) (by omega) (by omega)), Bool.and_false, BitVec.getLsbD_zero]
  · rintro ⟨b, hlo, hhi, hb⟩ h0
    have hzero := hbit (b - 4)
    rw [h0, Nat.add_sub_cancel' hlo, hb, decide_eq_true (by omega)] at hzero
    simp at hzero

/-! ### Each answer of the decoder -/

theorem decode_eq_ok_iff {w : Word} {i : Instr} :
    decode w = .ok i ↔ reservedField w = 0#28 ∧ instrOfOpcode (opcodeField w) = some i := by
  unfold decode
  by_cases hr : reservedField w = 0#28
  · cases instrOfOpcode (opcodeField w) <;> simp [hr]
  · simp [hr]

theorem decode_eq_reservedOpcode_iff {w : Word} :
    decode w = .error .reservedOpcode ↔ reservedField w = 0#28 ∧ instrOfOpcode (opcodeField w) = none := by
  unfold decode
  by_cases hr : reservedField w = 0#28
  · cases instrOfOpcode (opcodeField w) <;> simp [hr]
  · simp [hr]

theorem decode_eq_reservedBits_iff {w : Word} : decode w = .error .reservedBits ↔ reservedField w ≠ 0#28 := by
  unfold decode
  by_cases hr : reservedField w = 0#28
  · cases instrOfOpcode (opcodeField w) <;> simp [hr]
  · simp [hr]

/-- Settles O3: a word decodes to `i` when its fields are those of `encode i`, and the fields determine the word. -/
theorem onlyItsOwnWordDecodesToACommand : Obligations.OnlyItsOwnWordDecodesToACommand := by
  unfold Obligations.OnlyItsOwnWordDecodesToACommand
  intro w i
  rw [decode_eq_ok_iff, instrOfOpcode_eq_some_iff, word_eq_iff_fields, reservedField_encode, opcodeField_encode]

/-- A word whose reserved field is 0 is its opcode, zero-extended. -/
theorem word_eq_setWidth_iff {w : Word} {op : BitVec 4} :
    w = 0#28 ++ op ↔ reservedField w = 0#28 ∧ opcodeField w = op := by
  constructor
  · rintro rfl
    revert op
    decide
  · rintro ⟨hr, ho⟩
    rw [word_eq w, hr, ho]

/-- Settles O4: the reserved bits are looked at first; a word without them is rejected for the opcodes that the map of R71
leaves out. -/
theorem illegalWordsAreRejectedByName : Obligations.IllegalWordsAreRejectedByName := by
  unfold Obligations.IllegalWordsAreRejectedByName
  intro w
  refine ⟨decode_eq_reservedBits_iff.trans reservedField_ne_zero_iff, ?_⟩
  rw [decode_eq_reservedOpcode_iff, Machine.instrOfOpcode_eq_none_iff]
  have hword : ∀ op : BitVec 4, w = 0#28 ++ op ↔ reservedField w = 0#28 ∧ opcodeField w = op := fun _ =>
    word_eq_setWidth_iff
  simp only [List.mem_cons, List.not_mem_nil, or_false, and_or_left, ← hword]
  rfl

/-- Settles O1: each of the words is `encode` of its command. -/
theorem theElevenWordsDecode : Obligations.TheElevenWordsDecode := by
  have h := onlyItsOwnWordDecodesToACommand
  unfold Obligations.OnlyItsOwnWordDecodesToACommand at h
  unfold Obligations.TheElevenWordsDecode
  simp only [h]
  decide

/-- Settles O2: one direction of O3. -/
theorem decodeOfEncodeIsTheCommand : Obligations.DecodeOfEncodeIsTheCommand :=
  fun i _ => (onlyItsOwnWordDecodesToACommand _ i).mpr rfl

namespace Machine

/-- Settles O5: a CMD write of a legal word is the execution of its command, in the state past the event. -/
theorem stepRunsTheDecodedCommand : Obligations.StepRunsTheDecodedCommand := by
  unfold Obligations.StepRunsTheDecodedCommand
  intro s w i ts rest hscript hd _
  rw [step_of_cmdWrite hscript rfl, State.writeCmd, hd]
  rfl

end Machine

end Sys2Proof
end

section
/-! SUPPORT. The machine's invariant: what a turn of the sequencer and a move of the host keep of each of its parts. -/

namespace Sys2Proof.Machine

variable {s u : State}

/-! ### A rule is a function of the operands -/

theorem State.argOk_of_operands (h : u.operands = s.operands) : u.command.argOk u = s.command.argOk s := by
  have hlen := State.operands_len h
  have hbytes : u.params.bufBytes = s.params.bufBytes := congrArg Params.bufBytes (State.operands_params h)
  rw [State.command, State.operands_op h, State.command]
  cases s.op with
  | gfMul | gfRed | hamEnc | hamDec | deframe => rfl
  | addHdr | frame => exact congrArg lenOk hlen
  | ilv | dilv => exact congrArg₂ ilvOk hbytes hlen
  | rsEnc => exact congrArg₂ rsEncOk hbytes hlen
  | rsDec =>
    show rsDecOk _ _ _ = rsDecOk _ _ _
    rw [hbytes, hlen, State.operands_count h]

theorem State.roundIn_of_operands (h : u.operands = s.operands) : u.command.roundIn u = s.command.roundIn s := by
  rw [State.command, State.operands_op h, State.command]
  cases s.op with
  | gfMul | gfRed | addHdr | hamEnc | hamDec => rfl
  | frame => exact State.operands_len h
  | deframe => exact congrArg (8 + ·) (State.operands_len h)
  | ilv => exact congrArg (7 * ·) (State.operands_len h)
  | dilv => exact congrArg (8 + 7 * ·) (State.operands_len h)
  | rsEnc => exact congrArg (2 * ·) (State.operands_len h)
  | rsDec => exact congrArg (3 * ·) (State.operands_len h)

theorem State.roundOut_of_operands (h : u.operands = s.operands) : u.command.roundOut u = s.command.roundOut s := by
  rw [State.command, State.operands_op h, State.command]
  cases s.op with
  | gfMul | gfRed | addHdr | hamEnc | hamDec => rfl
  | frame => exact congrArg (8 + ·) (State.operands_len h)
  | deframe => exact State.operands_len h
  | ilv => exact congrArg (8 + 7 * ·) (State.operands_len h)
  | dilv => exact congrArg (7 * ·) (State.operands_len h)
  | rsEnc => exact congrArg (3 * ·) (State.operands_len h)
  | rsDec => exact congrArg (2 * ·) (State.operands_len h)

/-! ### A round fits in BUF -/

theorem ilvOk_iff {b l : Nat} : ilvOk b l = true ↔ 1 ≤ l ∧ l ≤ 9362 ∧ 7 * l ≤ b := by
  simp [ilvOk, and_assoc]

theorem rsEncOk_iff {b p : Nat} : rsEncOk b p = true ↔ 1 ≤ p ∧ 2 * p ≤ b := by
  simp [rsEncOk]

theorem rsDecOk_iff {b p n : Nat} : rsDecOk b p n = true ↔ (1 ≤ p ∧ 2 * p ≤ b) ∧ n % 3 = 0 := by
  simp [rsDecOk, rsEncOk_iff]

theorem Params.bufBytes_ge {p : Params} (h : p.wellFormed = true) : 14 ≤ p.bufBytes := by
  simp only [Params.wellFormed, Bool.and_eq_true, decide_eq_true_eq] at h
  obtain ⟨⟨hbuf, -⟩, -⟩ := h
  exact hbuf

/-- The argument check leaves a round no more of BUF than there is (20_memory R58). -/
theorem State.bufUse_le_of_argOk (hp : s.params.wellFormed = true) (ha : s.command.argOk s = true) :
    s.command.bufUse s ≤ s.params.bufBytes := by
  have hb := Params.bufBytes_ge hp
  rw [State.command] at ha ⊢
  generalize s.op = i at ha ⊢
  cases i with
  | gfMul | gfRed | addHdr => exact Nat.zero_le _
  | hamEnc => show 4 ≤ _; omega
  | hamDec => show 7 ≤ _; omega
  | frame => show 1 ≤ _; omega
  | deframe => show 9 ≤ _; omega
  | ilv | dilv =>
    obtain ⟨-, -, hfit⟩ := ilvOk_iff.mp ha
    exact hfit
  | rsEnc =>
    obtain ⟨-, hfit⟩ := rsEncOk_iff.mp ha
    exact hfit
  | rsDec =>
    obtain ⟨⟨-, hfit⟩, -⟩ := rsDecOk_iff.mp ha
    exact hfit

/-- A byte read is stored at one address of BUF, or nowhere. -/
theorem State.store_cases (hp : s.params.wellFormed = true) (ha : s.command.argOk s = true)
    (hrd : s.rd < s.command.roundIn s) (v : Byte) :
    s.command.store s v = s.buf ∨ ∃ a < s.params.bufBytes, s.command.store s v = s.buf.write a v := by
  have hb := Params.bufBytes_ge hp
  have hfit := State.bufUse_le_of_argOk hp ha
  rw [State.command] at hfit hrd ⊢
  generalize s.op = i at hfit hrd ⊢
  cases i with
  | gfMul | gfRed | addHdr => exact .inl rfl
  | hamEnc | hamDec | ilv | rsEnc => exact .inr ⟨s.rd, Nat.lt_of_lt_of_le hrd hfit, rfl⟩
  | frame => exact .inr ⟨_, Nat.mod_lt _ (by omega), rfl⟩
  | deframe =>
    have hmod : (s.rd - 8) % s.payloadRoom < s.payloadRoom := Nat.mod_lt _ (by rw [State.payloadRoom]; omega)
    rw [State.payloadRoom] at hmod
    by_cases h8 : s.rd < 8
    · exact .inr ⟨s.rd, by omega, if_pos h8⟩
    · exact .inr ⟨8 + (s.rd - 8) % s.payloadRoom, by rw [State.payloadRoom]; omega, if_neg h8⟩
  | dilv =>
    have hrd' : s.rd < 8 + 7 * s.len := hrd
    have hfit' : 7 * s.len ≤ s.params.bufBytes := hfit
    by_cases h8 : s.rd < 8
    · exact .inl (if_pos h8)
    · exact .inr ⟨s.rd - 8, by omega, if_neg h8⟩
  | rsDec =>
    have hrd' : s.rd < 3 * s.len := hrd
    have hfit' : 2 * s.len ≤ s.params.bufBytes := hfit
    show s.storeRs v = s.buf ∨ ∃ a < s.params.bufBytes, s.storeRs v = s.buf.write a v
    unfold State.storeRs
    split
    · exact .inr ⟨s.rd, by omega, rfl⟩
    · split
      · exact .inr ⟨s.rd - 2 * s.len, by omega, rfl⟩
      · exact .inr ⟨s.rd - s.len, by omega, rfl⟩
      · exact .inl rfl

/-! ### STATUS -/

theorem statusBusy_completed (w : Word) : statusBusy (statusCompleted w) = false := by
  simp [statusBusy, statusCompleted]

theorem statusDone_completed (w : Word) : statusDone (statusCompleted w) = true := by
  simp [statusDone, statusCompleted]

theorem statusErrArg_completed (w : Word) : statusErrArg (statusCompleted w) = statusErrArg w := by
  simp [statusErrArg, statusCompleted]

theorem statusErrOpc_completed (w : Word) : statusErrOpc (statusCompleted w) = statusErrOpc w := by
  simp [statusErrOpc, statusCompleted]

/-- Completion writes no reserved bit. -/
theorem reserved_completed (w : Word) : (statusCompleted w).extractLsb' 4 28 = w.extractLsb' 4 28 := by
  have hmask : (~~~0x1#32).extractLsb' 4 28 = BitVec.allOnes 28 := by decide
  have hdone : (0x2#32).extractLsb' 4 28 = 0#28 := by decide
  rw [statusCompleted, BitVec.extractLsb'_or, BitVec.extractLsb'_and, hmask, hdone, BitVec.and_allOnes, BitVec.or_zero]

theorem StatusInv.congr (h : StatusInv s) (hs : u.status = s.status) (hp : u.phase = s.phase) : StatusInv u := by
  obtain ⟨h1, h2, h3, h4, h5⟩ := h
  rw [← hs, ← hp] at h1
  rw [← hs] at h2 h3 h4 h5
  exact ⟨h1, h2, h3, h4, h5⟩

/-- A command that is accepted. -/
theorem statusInv_accepted (hp : u.phase = .running) (hs : u.status = statusAccepted) : StatusInv u := by
  constructor <;> rw [hs]
  case busy_iff => exact iff_of_true rfl hp
  all_goals decide

/-- The values of STATUS in an IDLE block: after reset, completion, ERR_ARG, ERR_OPC. -/
theorem statusInv_idle (hp : u.phase = .idle) (hs : u.status ∈ [0x0#32, 0x2#32, 0x6#32, 0xA#32]) : StatusInv u := by
  simp only [List.mem_cons, List.not_mem_nil, or_false] at hs
  have hphase : ¬u.phase = .running := by simp [hp]
  rcases hs with hs | hs | hs | hs <;>
    exact ⟨iff_of_false (by rw [hs]; decide) hphase, by rw [hs]; decide, by rw [hs]; decide, by rw [hs]; decide,
      by rw [hs]; decide⟩

/-- Completion of a running command. -/
theorem StatusInv.complete (h : StatusInv s) : StatusInv s.complete where
  busy_iff := by simp [statusBusy_completed]
  not_busy_done := by simp [statusBusy_completed]
  not_both_errors := by
    rw [State.complete_status, statusErrArg_completed, statusErrOpc_completed]
    exact h.not_both_errors
  error_done := fun _ => statusDone_completed _
  reserved := (reserved_completed _).trans h.reserved

/-! ### The parts that most changes leave alone -/

/-- The command that runs goes on, at a place within its round. -/
theorem RoundInv.place (h : RoundInv s) (ho : u.operands = s.operands) (hp : u.phase = s.phase)
    (hrd : s.phase = .running → u.rd ≤ s.command.roundIn s) (hwr : s.phase = .running → u.wr ≤ s.command.roundOut s) :
    RoundInv u where
  arg_ok hr := (State.argOk_of_operands ho).trans (h.arg_ok (hp ▸ hr))
  rd_le hr := (State.roundIn_of_operands ho).symm ▸ hrd (hp ▸ hr)
  wr_le hr := (State.roundOut_of_operands ho).symm ▸ hwr (hp ▸ hr)

/-- An IDLE block has no round. -/
theorem roundInv_idle (h : u.phase = .idle) : RoundInv u := by
  constructor <;> intro hr <;> rw [h] at hr <;> cases hr

/-- What a change that leaves the command, STATUS and the phase alone must keep. -/
theorem Inv.block (h : Inv s) (ho : u.operands = s.operands) (hs : u.status = s.status) (hp : u.phase = s.phase)
    (hc : ConfigInv u) (hq : PortInv u) (hb : BufInv u) (hrd : s.phase = .running → u.rd ≤ s.command.roundIn s)
    (hwr : s.phase = .running → u.wr ≤ s.command.roundOut s) : Inv u where
  params := State.operands_params ho ▸ h.params
  status := h.status.congr hs hp
  config := hc
  ports := hq
  buf := hb
  round := h.round.place ho hp hrd hwr

/-- What a change that leaves BUF and the place in the round alone, too, must keep: the bounds of the ports and the
reserved bits. -/
theorem Inv.congr (h : Inv s) (ho : u.operands = s.operands) (hs : u.status = s.status) (hp : u.phase = s.phase)
    (hbuf : u.buf = s.buf) (hrd : u.rd = s.rd) (hwr : u.wr = s.wr) (hc : ConfigInv u) (hq : PortInv u) : Inv u := by
  refine h.block ho hs hp hc hq ⟨hbuf ▸ h.buf.canonical, ?_⟩ (fun hr => hrd ▸ h.round.rd_le hr)
    fun hr => hwr ▸ h.round.wr_le hr
  rw [hbuf, State.operands_params ho]
  exact h.buf.in_range

/-! ### A turn -/

/-- InRead takes tokens away, if anything. -/
theorem State.inRead_length_le {t : Token} (h : s.inRead = some (t, u)) : u.inQ.length ≤ s.inQ.length := by
  rcases s.inRead_cases with ⟨-, hi⟩ | ⟨-, -, hi⟩ | ⟨v, q, -, hq, hi⟩ | ⟨q, -, hq, hi⟩ <;> rw [hi] at h <;> cases h
  · exact le_rfl
  · rw [hq]; exact Nat.le_succ _
  · rw [hq]; exact Nat.le_succ _

theorem BufInv.store (h : Inv s) (hp : s.phase = .running) (hrd : s.rd < s.command.roundIn s) (v : Byte) :
    (s.command.store s v).wf = true ∧ (s.command.store s v).within s.params.bufBytes = true := by
  rcases State.store_cases h.params (h.round.arg_ok hp) hrd v with he | ⟨a, ha, he⟩ <;> rw [he]
  · exact ⟨h.buf.canonical, h.buf.in_range⟩
  · exact ⟨Memory.wf_write _ _ h.buf.canonical, Memory.within_write _ ha h.buf.in_range⟩

/-- A byte that is read joins the round within BUF and within the round's length. -/
theorem Inv.putByte (h : Inv s) (hp : s.phase = .running) (hrd : s.rd < s.command.roundIn s) (v : Byte) :
    Inv (s.putByte v) :=
  have hstore := BufInv.store h hp hrd v
  h.block rfl rfl rfl ⟨h.config.1, h.config.2⟩ ⟨h.ports.1, h.ports.2⟩ ⟨hstore.1, hstore.2⟩ (fun _ => hrd) h.round.wr_le

/-- Every turn keeps the invariant. -/
theorem Inv.turn (h : Inv s) (t : Turn) : Inv (s.turn t) := by
  have hconfig : ConfigInv s := h.config
  have hports : PortInv s := h.ports
  have heff := s.turn_effect t
  generalize s.turn t = v at heff ⊢
  cases heff with
  | still => exact h
  | stop => exact h.congr rfl rfl rfl rfl rfl rfl ⟨hconfig.1, hconfig.2⟩ ⟨hports.1, hports.2⟩
  | writeResult => exact h.congr rfl rfl rfl rfl rfl rfl ⟨hconfig.1, hconfig.2⟩ ⟨hports.1, hports.2⟩
  | endRound =>
    exact h.block rfl rfl rfl ⟨hconfig.1, hconfig.2⟩ ⟨hports.1, hports.2⟩ ⟨h.buf.1, h.buf.2⟩ (fun _ => Nat.zero_le _)
      fun _ => Nat.zero_le _
  | readStop _ _ _ _ _ s' hi =>
    have hle := State.inRead_length_le hi
    obtain ⟨q, n, e, rfl⟩ := State.inRead_eq hi
    exact h.congr rfl rfl rfl rfl rfl rfl ⟨hconfig.1, hconfig.2⟩ ⟨hle.trans hports.1, hports.2⟩
  | read hp _ _ _ hr t' s' hi =>
    have hle := State.inRead_length_le hi
    obtain ⟨q, n, e, rfl⟩ := State.inRead_eq hi
    have hrd : s.rd < s.command.roundIn s := by
      simp only [State.canRead, Bool.and_eq_true, decide_eq_true_eq] at hr
      exact hr.1
    have hread : Inv { s with inQ := q, inCount := n, eos := e } :=
      h.congr rfl rfl rfl rfl rfl rfl ⟨hconfig.1, hconfig.2⟩ ⟨hle.trans hports.1, hports.2⟩
    refine hread.putByte hp (hrd.trans_eq (State.roundIn_of_operands ?_).symm) _
    rfl
  | write hp _ _ _ hw hroom =>
    have hwr : s.wr < s.command.roundOut s := by
      simp only [State.canWrite, Bool.and_eq_true, decide_eq_true_eq] at hw
      exact hw.1
    exact h.block rfl rfl rfl ⟨hconfig.1, hconfig.2⟩ ⟨hports.1, by simpa using hroom⟩ ⟨h.buf.1, h.buf.2⟩ h.round.rd_le
      fun _ => hwr
  | complete =>
    exact {
      params := h.params
      status := h.status.complete
      config := ⟨hconfig.1, hconfig.2⟩
      ports := ⟨hports.1, hports.2⟩
      buf := ⟨h.buf.1, h.buf.2⟩
      round := roundInv_idle rfl }

/-! ### A move of the host -/

/-- A command is accepted, or ends at once with ERR_ARG (30_encoding R72). -/
theorem Inv.accept (h : Inv s) (i : Instr) : Inv (s.accept i) := by
  rcases s.accept_eq i with ⟨hok, he⟩ | ⟨-, he⟩ <;> rw [he]
  · exact {
      params := h.params
      status := statusInv_accepted rfl rfl
      config := ⟨h.config.1, h.config.2⟩
      ports := ⟨h.ports.1, h.ports.2⟩
      buf := ⟨h.buf.1, h.buf.2⟩
      round := ⟨fun _ => hok, fun _ => Nat.zero_le _, fun _ => Nat.zero_le _⟩ }
  · exact {
      params := h.params
      status := statusInv_idle rfl (by simp [statusCompleted_setErrArg_accepted])
      config := ⟨h.config.1, h.config.2⟩
      ports := ⟨h.ports.1, h.ports.2⟩
      buf := ⟨h.buf.1, h.buf.2⟩
      round := roundInv_idle rfl }

theorem Inv.illegal (h : Inv s) : Inv s.latch.raiseErrOpc where
  params := h.params
  status := statusInv_idle rfl (by simp [statusCompleted_setErrOpc_accepted])
  config := ⟨h.config.1, h.config.2⟩
  ports := ⟨h.ports.1, h.ports.2⟩
  buf := ⟨h.buf.1, h.buf.2⟩
  round := roundInv_idle rfl

/-- The reserved bits are not written (10_state R23, R24). -/
theorem Inv.writeReg (h : Inv s) (v : Word) (r : Reg) : Inv (s.writeReg v r) := by
  have hcfg : (v &&& 0x1#32).extractLsb' 1 31 = 0#31 := by
    have hmask : (0x1#32).extractLsb' 1 31 = 0#31 := by decide
    rw [BitVec.extractLsb'_and, hmask, BitVec.and_zero]
  have hsrcport : (v &&& 0xFFFF#32).extractLsb' 16 16 = 0#16 := by
    have hmask : (0xFFFF#32).extractLsb' 16 16 = 0#16 := by decide
    rw [BitVec.extractLsb'_and, hmask, BitVec.and_zero]
  have hports := h.ports
  cases r with
  | cmd | status | result | inCount | outCount => exact h
  | cfg => exact h.congr rfl rfl rfl rfl rfl rfl ⟨hcfg, h.config.2⟩ ⟨hports.1, hports.2⟩
  | srcport => exact h.congr rfl rfl rfl rfl rfl rfl ⟨h.config.1, hsrcport⟩ ⟨hports.1, hports.2⟩
  | arg0 | arg1 => exact h.congr rfl rfl rfl rfl rfl rfl ⟨h.config.1, h.config.2⟩ ⟨hports.1, hports.2⟩

/-- The reset values meet the invariant, whatever the parameters are within their bounds (10_state R38). -/
theorem inv_powerUp {p : Params} (hp : p.wellFormed = true) : Inv (State.powerUp p) where
  params := hp
  status := statusInv_idle rfl (by simp)
  config := by
    refine ⟨by rw [State.powerUp_cfg]; decide, ?_⟩
    rw [State.powerUp_srcport]
    apply BitVec.eq_of_getLsbD_eq
    intro i hi
    rw [BitVec.getLsbD_extractLsb', BitVec.getLsbD_setWidth, BitVec.getLsbD_of_ge _ _ (by omega)]
    simp
  ports := ⟨Nat.zero_le _, Nat.zero_le _⟩
  buf := ⟨rfl, rfl⟩
  round := roundInv_idle rfl

theorem HostMove.inv {m : State} (h : HostMove s m) (hs : Inv s) : Inv m := by
  have hc := hs.config
  have hq := hs.ports
  have hhost : ∀ (inQ : List Token) (outQ : List Byte) (turns : List Turn) (script : List HostEvent)
      (trace : List TraceItem), inQ.length ≤ s.params.inDepth → outQ.length ≤ s.params.outDepth →
      Inv { s with inQ := inQ, outQ := outQ, turns := turns, script := script, trace := trace } :=
    fun inQ outQ _ _ _ hin hout => hs.congr rfl rfl rfl rfl rfl rfl ⟨hc.1, hc.2⟩ ⟨hin, hout⟩
  have hpast : ∀ e rest, Inv (s.past e rest) := fun e rest => hhost _ _ _ _ _ hq.1 hq.2
  cases h with
  | quiet | waits | passes | reads => exact hhost _ _ _ _ _ hq.1 hq.2
  | issues e rest _ _ i => exact (hpast e rest).accept i
  | illegal e rest => exact (hpast e rest).illegal
  | writes e rest _ _ _ v r => exact (hpast e rest).writeReg v r
  | pushes e rest _ t _ hroom => exact hhost (s.inQ ++ [t]) _ _ _ _ (by simpa using hroom) hq.2
  | pops e rest _ v q _ hout =>
    have hle : q.length ≤ s.outQ.length := by rw [hout]; exact Nat.le_succ _
    exact hhost _ _ _ _ _ hq.1 (hle.trans hq.2)
  | drains | polls | pollsDone => exact hhost _ [] _ _ _ hq.1 (Nat.zero_le _)
  | resets e rest =>
    have hreset := inv_powerUp hs.params
    exact hreset.congr rfl rfl rfl rfl rfl rfl ⟨hreset.config.1, hreset.config.2⟩ ⟨hreset.ports.1, hreset.ports.2⟩

/-! ### A step -/

/-- Settles O34: the host's move keeps the invariant, and so does each of the sequencer's turns after it. -/
theorem everyStepKeepsTheInvariant : Obligations.EveryStepKeepsTheInvariant := by
  unfold Obligations.EveryStepKeepsTheInvariant
  intro s u hs hstep
  obtain ⟨m, hm, -, rfl⟩ := step_next hstep
  have hturns : Inv (State.runTurns m.turns m) := State.runTurns_keeps (fun _ t hv => hv.turn t) _ (hm.inv hs)
  exact hturns.congr rfl rfl rfl rfl rfl rfl ⟨hturns.config.1, hturns.config.2⟩ ⟨hturns.ports.1, hturns.ports.2⟩

/-- Settles O33: the block's own parameters are within the bounds of 00_scope R5. -/
theorem resetMeetsTheInvariant : Obligations.ResetMeetsTheInvariant := by
  have hparams : Config.params.wellFormed = true := by simp [Params.wellFormed, Config.params]
  exact inv_powerUp hparams

/-- A state of the invariant goes on to the sequencer's turns. -/
theorem Inv.bufFits (h : Inv s) : s.bufFits = true := by
  cases hp : s.phase with
  | idle => exact State.bufFits_idle hp
  | running => exact (State.bufFits_running hp).mpr (State.bufUse_le_of_argOk h.params (h.round.arg_ok hp))

/-- Register accesses are the only events that can be refused. -/
theorem access_of_step_refused {x : Refusal} (h : step s = .refused x) :
    ∃ e rest, s.script = e :: rest ∧ ∃ width off v, e.act = .write width off v ∨ e.act = .read width off := by
  unfold step at h
  cases hscript : s.script with
  | nil =>
    rw [hscript] at h
    exact absurd h (State.advance_ne_refused _ x)
  | cons e rest =>
    refine ⟨e, rest, rfl, ?_⟩
    simp only [hscript, State.hostEvent] at h
    cases hact : e.act with
    | write width off v => exact ⟨width, off, v, .inl rfl⟩
    | read width off => exact ⟨width, off, 0#32, .inr rfl⟩
    | drain | reset | pause =>
      simp only [hact] at h
      exact absurd h (State.advance_ne_refused _ x)
    | push | pop | wait =>
      simp only [hact] at h
      split at h <;> exact absurd h (State.advance_ne_refused _ x)

/-- Settles O35: the host's move keeps the invariant, in which a round fits in BUF; and what is refused is an access that
O36 names. -/
theorem stepsFromTheInvariantDoNotFault : Obligations.StepsFromTheInvariantDoNotFault := by
  unfold Obligations.StepsFromTheInvariantDoNotFault
  intro s hs
  rcases step_cases s with ⟨x, hx⟩ | ⟨m, hm, hstep⟩
  · obtain ⟨e, rest, hscript, width, off, v, hact⟩ := access_of_step_refused hx
    have hbad := (registerAccessesAreRefusedExactlyWithoutAMeaning s e rest width off v hscript hact).mp ⟨x, hx⟩
    exact .inr ⟨⟨x, hx⟩, e, rest, hscript, width, off, v, hact, by omega⟩
  · exact .inl ⟨_, hstep.trans (State.advance_of_fits (hm.inv hs).bufFits)⟩

end Sys2Proof.Machine
end

section
/-! SUPPORT. What an event of the host makes of a step (20_memory R51 to R56, 30_encoding R78), one equation per
operation; and the steps in which the sequencer has no turn to take. -/

namespace Sys2Proof.Machine

variable {s : State} {e : HostEvent} {rest : List HostEvent}

/-! ### The masks of the registers -/

/-- Dropping the bits of a word from `n` up. -/
theorem and_mask_eq {m : Word} {n : Nat} (hm : ∀ i < 32, m.getLsbD i = decide (i < n)) (v : Word) :
    v &&& m = (v.extractLsb' 0 n).setWidth 32 := by
  refine BitVec.eq_of_getLsbD_eq fun i hi => ?_
  rw [BitVec.getLsbD_and, hm i hi, BitVec.getLsbD_setWidth, BitVec.getLsbD_extractLsb', Nat.zero_add]
  simp [hi, Bool.and_comm]

theorem and_one_eq (v : Word) : v &&& 0x1#32 = (v.extractLsb' 0 1).setWidth 32 := and_mask_eq (by decide) v

theorem and_lowHalf_eq (v : Word) : v &&& 0xFFFF#32 = (v.extractLsb' 0 16).setWidth 32 := and_mask_eq (by decide) v

theorem statusView_eq (w : Word) : statusView w = (w.extractLsb' 0 4).setWidth 32 := and_mask_eq (by decide) w

/-- Where no reserved bit is set the host sees all of STATUS. -/
theorem StatusInv.view (h : StatusInv s) : statusView s.status = s.status := by
  have hhigh : ∀ i, 4 ≤ i → s.status.getLsbD i = false := fun i hi => by
    by_cases hlt : i < 32
    · have hbit := congrArg (·.getLsbD (i - 4)) h.reserved
      simp only [BitVec.getLsbD_extractLsb', BitVec.getLsbD_zero, Nat.add_sub_cancel' hi] at hbit
      simpa [show i - 4 < 28 by omega] using hbit
    · exact BitVec.getLsbD_of_ge _ _ (by omega)
  rw [statusView_eq]
  refine BitVec.eq_of_getLsbD_eq fun i hi => ?_
  rw [BitVec.getLsbD_setWidth, BitVec.getLsbD_extractLsb', Nat.zero_add]
  by_cases h4 : i < 4
  · simp [hi, h4]
  · simp [h4, hhigh i (by omega)]

/-! ### One equation per operation -/

theorem step_of_read {r : Reg} (h : s.script = e :: rest) (ha : e.act = .read 32 (offsetOf r)) :
    step s = ((s.past e rest).record (.value (s.readReg r))).advance := by
  have hread : (s.past e rest).readReg r = s.readReg r := by cases r <;> rfl
  simp only [step, h, State.hostEvent, ha, State.hostRead, accessReg_ok.mpr ⟨rfl, rfl⟩, hread]

theorem step_of_write {r : Reg} {v : Word} (h : s.script = e :: rest) (ha : e.act = .write 32 (offsetOf r) v)
    (hr : r ≠ .cmd) : step s = ((s.past e rest).writeReg v r).advance := by
  simp only [step, h, State.hostEvent, ha, State.hostWrite, accessReg_ok.mpr ⟨rfl, rfl⟩]

theorem step_of_push {t : Token} (h : s.script = e :: rest) (ha : e.act = .push t)
    (hroom : s.inQ.length < s.params.inDepth) : step s = ((s.past e rest).append t).advance := by
  simp only [step, h, State.hostEvent, ha, if_pos hroom]

theorem step_of_push_full {t : Token} (h : s.script = e :: rest) (ha : e.act = .push t)
    (hfull : ¬s.inQ.length < s.params.inDepth) : step s = (s.here e).advance := by
  simp only [step, h, State.hostEvent, ha, if_neg hfull]

theorem step_of_pop {v : Byte} {q : List Byte} (h : s.script = e :: rest) (ha : e.act = .pop) (hq : s.outQ = v :: q) :
    step s = ((s.past e rest).remove v q).advance := by
  simp only [step, h, State.hostEvent, ha, hq]

theorem step_of_pop_empty (h : s.script = e :: rest) (ha : e.act = .pop) (hq : s.outQ = []) :
    step s = (s.here e).advance := by
  simp only [step, h, State.hostEvent, ha, hq]

theorem step_of_drain (h : s.script = e :: rest) (ha : e.act = .drain) : step s = (s.past e rest).drain.advance := by
  simp only [step, h, State.hostEvent, ha]

theorem step_of_wait_done (h : s.script = e :: rest) (ha : e.act = .wait) (hd : statusDone s.status = true) :
    step s = (s.past e rest).poll.drain.advance := by
  simp only [step, h, State.hostEvent, ha, if_pos hd]

theorem step_of_wait (h : s.script = e :: rest) (ha : e.act = .wait) (hd : statusDone s.status = false) :
    step s = (s.here e).poll.advance := by
  simp [step, h, State.hostEvent, ha, hd]

theorem step_of_reset (h : s.script = e :: rest) (ha : e.act = .reset) :
    step s = (s.past e rest).resetBlock.advance := by
  simp only [step, h, State.hostEvent, ha]

/-- The turns of a step in which the host waits (entry 20). -/
theorem waitTurns_eq (ts : List Turn) : waitTurns ts = if ts = [] then [.write] else ts := by
  cases ts <;> rfl

/-- A step in which the host waits is one without a host operation, with the turns of `waitTurns`. -/
theorem step_pause_waitTurns (s : State) (e : HostEvent) :
    step { s with script := { act := .pause, turns := if e.turns = [] then [.write] else e.turns } :: s.script } =
      (s.here e).advance := by
  rw [step_of_pause rfl rfl, ← waitTurns_eq]
  rfl

/-- Where the block is IDLE or the event brings no turn, the host's operation is the whole step. -/
theorem Inv.advance_still (h : Inv s) (hstill : s.phase = .idle ∨ s.turns = []) :
    s.advance = .next { s with turns := [] } := by
  rw [State.advance_of_fits h.bufFits]
  rcases hstill with hp | ht
  · rw [State.runTurns_idle hp]
  · rw [ht, State.runTurns_nil]

/-- What the host does to the ports and to its own side keeps the invariant within the depths of the ports. -/
theorem Inv.host (h : Inv s) {inQ : List Token} {outQ : List Byte} (hin : inQ.length ≤ s.params.inDepth)
    (hout : outQ.length ≤ s.params.outDepth) (turns : List Turn) (script : List HostEvent) (trace : List TraceItem) :
    Inv { s with inQ := inQ, outQ := outQ, turns := turns, script := script, trace := trace } :=
  h.congr rfl rfl rfl rfl rfl rfl ⟨h.config.1, h.config.2⟩ ⟨hin, hout⟩

theorem Inv.past (h : Inv s) (e : HostEvent) (rest : List HostEvent) : Inv (s.past e rest) :=
  h.host h.ports.1 h.ports.2 _ _ _

/-! ### Register accesses -/

/-- Settles O37: the record of the register's value is the whole step; the masks of `State.readReg` are the fields that
the statement names. -/
theorem registerReadsReturnTheRegisters : Obligations.RegisterReadsReturnTheRegisters := by
  unfold Obligations.RegisterReadsReturnTheRegisters
  intro s rest off v hs hscript hmem
  have hread : ∀ r, off = offsetOf r → s.readReg r = v →
      step s = .next { s with script := rest, turns := [], trace := s.trace ++ [.value v] } := by
    rintro r rfl rfl
    have hinv : Inv ((s.past ⟨.read 32 (offsetOf r), []⟩ rest).record (.value (s.readReg r))) :=
      hs.host hs.ports.1 hs.ports.2 _ _ _
    rw [step_of_read hscript rfl, hinv.advance_still (.inr rfl)]
    rfl
  simp only [List.mem_cons, List.not_mem_nil, or_false, Prod.mk.injEq] at hmem
  rcases hmem with ⟨hoff, hv⟩ | ⟨hoff, hv⟩ | ⟨hoff, hv⟩ | ⟨hoff, hv⟩ | ⟨hoff, hv⟩ | ⟨hoff, hv⟩ | ⟨hoff, hv⟩ | ⟨hoff, hv⟩ |
    ⟨hoff, hv⟩
  · exact hread .cmd hoff hv.symm
  · exact hread .status hoff (hv ▸ statusView_eq s.status)
  · exact hread .cfg hoff (hv ▸ and_one_eq s.cfg)
  · exact hread .srcport hoff (hv ▸ and_lowHalf_eq s.srcport)
  · exact hread .arg0 hoff hv.symm
  · exact hread .arg1 hoff hv.symm
  · exact hread .result hoff hv.symm
  · exact hread .inCount hoff hv.symm
  · exact hread .outCount hoff hv.symm

/-- Settles O38: the write of the register is the whole step. -/
theorem registerWritesChangeTheirRegister : Obligations.RegisterWritesChangeTheirRegister := by
  unfold Obligations.RegisterWritesChangeTheirRegister
  intro s u rest off v hs hscript hmem
  have hwrite : ∀ r, off = offsetOf r → r ≠ .cmd →
      step s = .next { s.writeReg v r with script := rest, turns := [] } := by
    rintro r rfl hr
    have hstill : ((s.past ⟨.write 32 (offsetOf r) v, []⟩ rest).writeReg v r).turns = [] := by cases r <;> rfl
    rw [step_of_write hscript rfl hr, ((hs.past _ _).writeReg v r).advance_still (.inr hstill)]
    cases r <;> rfl
  simp only [List.mem_cons, List.not_mem_nil, or_false, Prod.mk.injEq, ← and_one_eq, ← and_lowHalf_eq] at hmem
  rcases hmem with ⟨hoff, rfl⟩ | ⟨hoff, rfl⟩ | ⟨hoff, rfl⟩ | ⟨hoff, rfl⟩ | ⟨hoff, rfl⟩ | ⟨hoff, rfl⟩ | ⟨hoff, rfl⟩ | ⟨hoff, rfl⟩
  · exact hwrite .status hoff nofun
  · exact hwrite .cfg hoff nofun
  · exact hwrite .srcport hoff nofun
  · exact hwrite .arg0 hoff nofun
  · exact hwrite .arg1 hoff nofun
  · exact hwrite .result hoff nofun
  · exact hwrite .inCount hoff nofun
  · exact hwrite .outCount hoff nofun

/-! ### The ports -/

/-- Settles O39: with room the token is appended before the sequencer's turns, which are those of a pause; without, the
event stays and only the turns happen. -/
theorem pushAppendsOrWaits : Obligations.PushAppendsOrWaits := by
  unfold Obligations.PushAppendsOrWaits
  intro s t ts rest hs hscript
  refine ⟨fun hroom => ?_, fun hfull => ?_, fun hstill => ?_⟩
  · rw [step_of_push hscript rfl hroom, step_of_pause rfl rfl]
    rfl
  · rw [step_of_push_full hscript rfl hfull]
    exact (step_pause_waitTurns s _).symm
  · split
    case isTrue hroom =>
      have hinv : Inv ((s.past ⟨.push t, ts⟩ rest).append t) :=
        hs.host (inQ := s.inQ ++ [t]) (by simpa using hroom) hs.ports.2 _ _ _
      rw [step_of_push hscript rfl hroom, hinv.advance_still (hstill.imp id And.left)]
      rfl
    case isFalse hfull =>
      have hidle : s.phase = .idle := hstill.resolve_right fun h => hfull h.2
      rw [step_of_push_full hscript rfl hfull]
      exact State.advance_idle hidle

/-- Settles O40: DRAIN and a removal take effect before the sequencer's turns, which are those of a pause; a removal from
an empty OUT stays and only the turns happen. -/
theorem hostRemovesBytesInOrder : Obligations.HostRemovesBytesInOrder := by
  unfold Obligations.HostRemovesBytesInOrder
  intro s ts rest hs
  refine ⟨fun hscript => ⟨?_, fun hstill => ?_⟩, fun hscript => ⟨fun hempty => ⟨?_, fun hidle => ?_⟩,
    fun v q hq => ⟨?_, fun hstill => ?_⟩⟩⟩
  · rw [step_of_drain hscript rfl, step_of_pause rfl rfl]
    rfl
  · have hinv : Inv (s.past ⟨.drain, ts⟩ rest).drain := hs.host (outQ := []) hs.ports.1 (Nat.zero_le _) _ _ _
    rw [step_of_drain hscript rfl, hinv.advance_still hstill]
    rfl
  · rw [step_of_pop_empty hscript rfl hempty]
    exact (step_pause_waitTurns s _).symm
  · rw [step_of_pop_empty hscript rfl hempty]
    exact State.advance_idle hidle
  · rw [step_of_pop hscript rfl hq, step_of_pause rfl rfl]
    rfl
  · have hle : q.length ≤ s.outQ.length := by rw [hq]; exact Nat.le_succ _
    have hinv : Inv ((s.past ⟨.pop, ts⟩ rest).remove v q) := hs.host hs.ports.1 (hle.trans hs.ports.2) _ _ _
    rw [step_of_pop hscript rfl hq, hinv.advance_still hstill]
    rfl

/-- A pass of WAIT, where no reserved bit of STATUS is set. -/
theorem State.poll_eq (h : StatusInv s) :
    s.poll = { s with outQ := [], trace := s.trace ++ s.outQ.map .byte ++ [.value s.status] } := by
  have hview : s.readReg .status = s.status := h.view
  rw [State.poll, hview]
  rfl

/-- The DRAIN of the last pass finds OUT empty. -/
theorem State.drain_poll (s : State) : s.poll.drain = s.poll := by
  have htrace : s.poll.trace ++ s.poll.outQ.map .byte = s.poll.trace := List.append_nil _
  rw [State.drain, htrace]
  rfl

/-- Settles O41: a pass takes effect before the sequencer's turns, which are those of a pause; with DONE = 1 the block is
IDLE, so that no turn does anything. -/
theorem waitPollsUntilDone : Obligations.WaitPollsUntilDone := by
  unfold Obligations.WaitPollsUntilDone
  intro s ts rest hs hscript polled
  refine ⟨fun hd => ?_, fun hd => ?_⟩
  · have hidle : s.phase = .idle := by
      cases hp : s.phase with
      | idle => rfl
      | running => exact absurd ⟨hs.status.busy_iff.mpr hp, hd⟩ hs.status.not_busy_done
    have hstatus : StatusInv (s.past ⟨.wait, ts⟩ rest) := (hs.past _ _).status
    have hstep := step_of_wait_done hscript rfl hd
    rw [State.drain_poll, State.poll_eq hstatus] at hstep
    refine ⟨?_, ?_⟩
    · rw [hstep, step_of_pause rfl rfl]
      rfl
    · rw [hstep]
      exact State.advance_idle hidle
  · have hstatus : StatusInv (s.here ⟨.wait, ts⟩) := hs.status.congr rfl rfl
    have hstep := step_of_wait hscript rfl hd
    rw [State.poll_eq hstatus] at hstep
    refine ⟨?_, fun hidle => ?_⟩
    · rw [hstep, step_of_pause rfl rfl, State.past, ← waitTurns_eq]
      rfl
    · rw [hstep]
      exact State.advance_idle hidle

/-- Settles O42: the reset state is IDLE, so that no turn does anything after it. -/
theorem resetPutsTheBlockInItsResetState : Obligations.ResetPutsTheBlockInItsResetState := by
  unfold Obligations.ResetPutsTheBlockInItsResetState
  intro s ts rest hscript
  refine ⟨_, (step_of_reset hscript rfl).trans (State.advance_idle (State.resetBlock_phase _)), ?_⟩
  exact ⟨rfl, rfl, rfl, rfl, rfl, rfl, rfl, rfl, rfl, rfl, rfl, rfl, rfl, rfl, rfl⟩

end Sys2Proof.Machine
end

section
/-! SUPPORT. What `exec` and the sequencer's turns leave alone, and what they move (20_memory R53, R56, R62): the registers
the host writes, RESULT, the tokens of IN and the bytes of OUT. -/

namespace Sys2Proof.Machine

variable {s t u v : State} {i : Instr}

/-! ### What `exec` answers -/

/-- A next state of `exec` comes from the sequencer's turns, in a RUNNING block from the state as it is, in an IDLE one from
the state after acceptance (30_encoding R72, R73). -/
theorem exec_next (h : exec i s = .next t) :
    (s.phase = .running ∧ t = { State.runTurns s.turns s with turns := [] }) ∨
    (s.phase = .idle ∧ t = { State.runTurns s.turns (s.accept i) with turns := [] }) := by
  rw [exec_eq_issue] at h
  cases hp : s.phase with
  | running =>
    rw [State.issue_running hp] at h
    exact .inl ⟨rfl, (State.advance_next h).2⟩
  | idle =>
    have hturns : (s.accept i).turns = s.turns := by rcases s.accept_eq i with ⟨-, ha⟩ | ⟨-, ha⟩ <;> rw [ha] <;> rfl
    rw [State.issue_idle hp] at h
    exact .inr ⟨rfl, hturns ▸ (State.advance_next h).2⟩

/-- Settles O29: acceptance latches copies of the host's registers, and no turn writes one. -/
theorem commandsKeepTheHostsRegisters : Obligations.CommandsKeepTheHostsRegisters := by
  unfold Obligations.CommandsKeepTheHostsRegisters
  intro i s t h
  rcases exec_next h with ⟨-, rfl⟩ | ⟨-, rfl⟩
  · simp
  · rcases s.accept_eq i with ⟨-, ha⟩ | ⟨-, ha⟩ <;> simp [ha]

/-! ### RESULT -/

theorem commandOf_result_eq_none (hi : i ∈ [.hamEnc, .hamDec, .addHdr, .deframe, .dilv, .rsDec]) (s : State) :
    (commandOf i).result s = none := by
  simp only [List.mem_cons, List.not_mem_nil, or_false] at hi
  rcases hi with rfl | rfl | rfl | rfl | rfl | rfl <;> rfl

/-- Only the RESULT write of a command that returns a value writes RESULT (10_state R27). -/
theorem State.turn_result_eq (h : s.command.result s = none) (t : Turn) : (s.turn t).result = s.result := by
  have heff := s.turn_effect t
  generalize s.turn t = v at heff ⊢
  cases heff with
  | writeResult => rw [State.writeResult_result, h, Option.getD_none]
  | readStop _ _ _ _ _ s' hi => obtain ⟨q, n, e, rfl⟩ := State.inRead_eq hi; rfl
  | read _ _ _ _ _ t s' hi => obtain ⟨q, n, e, rfl⟩ := State.inRead_eq hi; rfl
  | _ => rfl

theorem State.runTurns_result_eq (h : s.op ∈ [.hamEnc, .hamDec, .addHdr, .deframe, .dilv, .rsDec]) (ts : List Turn) :
    (State.runTurns ts s).result = s.result := by
  have hkeeps : ∀ (v : State) (t : Turn), v.op = s.op ∧ v.result = s.result →
      (v.turn t).op = s.op ∧ (v.turn t).result = s.result := by
    rintro v t ⟨hop, hresult⟩
    have hnone : v.command.result v = none := commandOf_result_eq_none (hop ▸ h) v
    exact ⟨(v.turn_op t).trans hop, (State.turn_result_eq hnone t).trans hresult⟩
  exact (State.runTurns_keeps hkeeps ts ⟨rfl, rfl⟩).2

/-- Settles O26: acceptance leaves RESULT alone, and so do the turns of these commands. -/
theorem commandsWithoutAValueKeepResult : Obligations.CommandsWithoutAValueKeepResult := by
  unfold Obligations.CommandsWithoutAValueKeepResult
  intro i s t hi h
  rcases exec_next h with ⟨hp, rfl⟩ | ⟨hp, rfl⟩
  · have hop := (hi.resolve_left fun hidle => by rw [hp] at hidle; cases hidle.1).2
    exact State.runTurns_result_eq hop _
  · have hop := (hi.resolve_right fun hrun => by rw [hp] at hrun; cases hrun.1).2
    have haccept : (s.accept i).op = i ∧ (s.accept i).result = s.result := by
      rcases s.accept_eq i with ⟨-, ha⟩ | ⟨-, ha⟩ <;> rw [ha] <;> exact ⟨rfl, rfl⟩
    exact (State.runTurns_result_eq (haccept.1.symm ▸ hop) _).trans haccept.2

/-! ### Tokens taken and bytes written -/

/-- From `s` to `t` the tokens `taken` left the head of IN, none after an end-of-stream, the bytes `new` came to the end of
OUT, and the counters and `eos` follow (20_memory R53, R56; 10_state R28, R29). -/
structure Moved (s t : State) (taken : List Token) (new : List Byte) : Prop where
  inQ : s.inQ = taken ++ t.inQ
  outQ : t.outQ = s.outQ ++ new
  eos_last : .eos ∉ taken.dropLast
  inCount : t.inCount = s.inCount + BitVec.ofNat 32 (taken.countP tokenIsByte)
  outCount : t.outCount = s.outCount + BitVec.ofNat 32 new.length
  eos : t.eos = (s.eos || decide (.eos ∈ taken))
  after_eos : s.eos = true → taken = []

theorem Moved.none (hin : t.inQ = s.inQ) (hout : t.outQ = s.outQ) (hic : t.inCount = s.inCount)
    (hoc : t.outCount = s.outCount) (he : t.eos = s.eos) : Moved s t [] [] where
  inQ := by simp [hin]
  outQ := by simp [hout]
  eos_last := by simp
  inCount := by simp [hic]
  outCount := by simp [hoc]
  eos := by simp [he]
  after_eos _ := rfl

/-- What moved in two stretches, one after the other: nothing is taken in the second if the first took an
end-of-stream. -/
theorem Moved.trans {taken more : List Token} {new new' : List Byte} (h : Moved s t taken new) (h' : Moved t u more new') :
    Moved s u (taken ++ more) (new ++ new') where
  inQ := by rw [h.inQ, h'.inQ, List.append_assoc]
  outQ := by rw [h'.outQ, h.outQ, List.append_assoc]
  eos_last := by
    rcases eq_or_ne more [] with rfl | hne
    · rw [List.append_nil]; exact h.eos_last
    · have hfirst : .eos ∉ taken := fun hmem => hne (h'.after_eos (by rw [h.eos, decide_eq_true hmem, Bool.or_true]))
      rw [List.dropLast_append_of_ne_nil hne, List.mem_append, not_or]
      exact ⟨hfirst, h'.eos_last⟩
  inCount := by rw [h'.inCount, h.inCount, List.countP_append, BitVec.ofNat_add, BitVec.add_assoc]
  outCount := by rw [h'.outCount, h.outCount, List.length_append, BitVec.ofNat_add, BitVec.add_assoc]
  eos := by simp only [h'.eos, h.eos, List.mem_append, Bool.decide_or, Bool.or_assoc]
  after_eos hs := by
    have hmid : t.eos = true := by rw [h.eos, hs, Bool.true_or]
    rw [h.after_eos hs, h'.after_eos hmid, List.append_nil]

/-- InRead takes one token, or none after an end-of-stream. -/
theorem State.inRead_moved {tok : Token} (h : s.inRead = some (tok, u)) : ∃ taken, Moved s u taken [] := by
  rcases s.inRead_cases with ⟨-, hi⟩ | ⟨-, -, hi⟩ | ⟨v, q, he, hq, hi⟩ | ⟨q, he, hq, hi⟩ <;> rw [hi] at h <;> cases h
  · exact ⟨[], .none rfl rfl rfl rfl rfl⟩
  · exact ⟨[.byte v], hq, by simp, by simp, rfl, by simp, by simp, by simp [he]⟩
  · exact ⟨[.eos], hq, by simp, by simp, by simp [tokenIsByte], by simp, by simp, by simp [he]⟩

theorem State.turn_moved (s : State) (t : Turn) : ∃ taken new, Moved s (s.turn t) taken new := by
  have heff := s.turn_effect t
  generalize s.turn t = v at heff ⊢
  cases heff with
  | still | stop | endRound | writeResult | complete => exact ⟨[], [], .none rfl rfl rfl rfl rfl⟩
  | readStop _ _ _ _ _ s' hi =>
    obtain ⟨taken, h⟩ := State.inRead_moved hi
    exact ⟨taken, [], h.inQ, h.outQ, h.eos_last, h.inCount, h.outCount, h.eos, h.after_eos⟩
  | read _ _ _ _ _ t s' hi =>
    obtain ⟨taken, h⟩ := State.inRead_moved hi
    exact ⟨taken, [], h.inQ, h.outQ, h.eos_last, h.inCount, h.outCount, h.eos, h.after_eos⟩
  | write => exact ⟨[], [_], rfl, rfl, by simp, by simp, rfl, by simp, fun _ => rfl⟩

theorem State.runTurns_moved (ts : List Turn) (s : State) : ∃ taken new, Moved s (State.runTurns ts s) taken new := by
  induction ts generalizing s with
  | nil => exact ⟨[], [], .none rfl rfl rfl rfl rfl⟩
  | cons t ts ih =>
    obtain ⟨taken, new, h⟩ := s.turn_moved t
    obtain ⟨more, new', h'⟩ := ih (s.turn t)
    rw [State.runTurns_cons]
    exact ⟨_, _, h.trans h'⟩

/-- Only the last token can be an end-of-stream, so that there is one at most. -/
theorem count_eos_le_one {taken : List Token} (h : .eos ∉ taken.dropLast) : taken.count .eos ≤ 1 := by
  rcases List.eq_nil_or_concat taken with rfl | ⟨init, last, rfl⟩
  · simp
  · rw [List.concat_eq_append, List.dropLast_concat] at h
    rw [List.concat_eq_append, List.count_append, List.count_eq_zero_of_not_mem h, Nat.zero_add]
    exact List.count_le_length

/-- Settles O25: acceptance moves nothing and clears the counters and `eos`; the turns move what `Moved` says. -/
theorem commandsMoveTokensInOrderAndCountThem : Obligations.CommandsMoveTokensInOrderAndCountThem := by
  unfold Obligations.CommandsMoveTokensInOrderAndCountThem
  intro i s t hexec
  rcases exec_next hexec with ⟨hp, rfl⟩ | ⟨hp, rfl⟩
  · obtain ⟨taken, new, h⟩ := State.runTurns_moved s.turns s
    exact ⟨taken, new, h.inQ, h.outQ, h.eos_last, count_eos_le_one h.eos_last,
      fun hidle => absurd (hp.symm.trans hidle) nofun,
      fun _ => ⟨h.inCount, h.outCount, h.eos, h.after_eos⟩⟩
  · obtain ⟨taken, new, h⟩ := State.runTurns_moved s.turns (s.accept i)
    have haccept : (s.accept i).inQ = s.inQ ∧ (s.accept i).outQ = s.outQ ∧ (s.accept i).inCount = 0#32 ∧
        (s.accept i).outCount = 0#32 ∧ (s.accept i).eos = false := by
      rcases s.accept_eq i with ⟨-, ha⟩ | ⟨-, ha⟩ <;> rw [ha] <;> exact ⟨rfl, rfl, rfl, rfl, rfl⟩
    obtain ⟨hin, hout, hic, hoc, he⟩ := haccept
    have hinCount := h.inCount
    have houtCount := h.outCount
    have heos := h.eos
    rw [hic, BitVec.zero_add] at hinCount
    rw [hoc, BitVec.zero_add] at houtCount
    rw [he, Bool.false_or] at heos
    exact ⟨taken, new, hin ▸ h.inQ, hout ▸ h.outQ, h.eos_last, count_eos_le_one h.eos_last,
      fun _ => ⟨hinCount, houtCount, heos⟩, fun hrun => absurd (hp.symm.trans hrun) nofun⟩

/-! ### The end of a command -/

/-- Bit 0 cleared and bit 1 set, written with the two bits' mask. -/
theorem statusCompleted_eq (w : Word) : statusCompleted w = (w ||| 0x3#32) ^^^ 0x1#32 := by
  have hbits : ∀ j < 32, (0x1#32).getLsbD j = decide (j = 0) ∧ (0x2#32).getLsbD j = decide (j = 1) ∧
      (0x3#32).getLsbD j = (decide (j = 0) || decide (j = 1)) := by decide
  refine BitVec.eq_of_getLsbD_eq fun j hj => ?_
  obtain ⟨h1, h2, h3⟩ := hbits j hj
  simp only [statusCompleted, BitVec.getLsbD_or, BitVec.getLsbD_and, BitVec.getLsbD_xor, BitVec.getLsbD_not, h1, h2, h3]
  rcases j with - | - | j <;> simp [hj]

/-- A turn that makes a RUNNING block IDLE is the last one. -/
theorem State.turn_to_idle (hp : s.phase = .running) {t : Turn} (hidle : (s.turn t).phase = .idle) :
    s.stage = .finish ∧ s.turn t = s.complete := by
  have heff := s.turn_effect t
  generalize s.turn t = v at heff hidle ⊢
  cases heff with
  | complete _ hs => exact ⟨hs, rfl⟩
  | readStop _ _ _ _ _ s' hi =>
    obtain ⟨q, n, e, rfl⟩ := State.inRead_eq hi
    exact absurd (hp.symm.trans hidle) nofun
  | read _ _ _ _ _ t s' hi =>
    obtain ⟨q, n, e, rfl⟩ := State.inRead_eq hi
    exact absurd (hp.symm.trans hidle) nofun
  | _ => exact absurd (hp.symm.trans hidle) nofun

/-- Settles O31. -/
theorem completionIsOneLastTurn : Obligations.CompletionIsOneLastTurn := by
  unfold Obligations.CompletionIsOneLastTurn
  intro s t hp hidle
  obtain ⟨hstage, hturn⟩ := State.turn_to_idle hp hidle
  refine ⟨hstage, ?_⟩
  rw [hturn, State.complete, statusCompleted_eq]

/-- Settles O32: the host's move leaves the block RUNNING unless it is reset, and of the turns the completing one makes it
IDLE. -/
theorem runningEndsOnlyByCompletionOrReset : Obligations.RunningEndsOnlyByCompletionOrReset := by
  unfold Obligations.RunningEndsOnlyByCompletionOrReset
  intro s u hp hstep hidle
  by_cases hr : s.resetNext
  · exact .inr hr
  · obtain ⟨m, hm, -, rfl⟩ := step_next hstep
    have hrunning : m.phase = .running := by
      obtain ⟨_, _, _, _, _, _, _, rfl⟩ := hm.outside hp hr
      exact hp
    have hkeeps : ∀ (v : State) (t : Turn), (v.phase = .idle → statusDone v.status = true ∧ statusBusy v.status = false) →
        (v.turn t).phase = .idle → statusDone (v.turn t).status = true ∧ statusBusy (v.turn t).status = false := by
      intro v t hv hidle
      cases hvp : v.phase with
      | idle => rw [State.turn_idle hvp]; exact hv hvp
      | running =>
        rw [(State.turn_to_idle hvp hidle).2]
        exact ⟨statusDone_completed _, statusBusy_completed _⟩
    exact .inl (State.runTurns_keeps hkeeps m.turns (fun h => absurd (hrunning.symm.trans h) nofun) hidle)

/-! ### The registers the host writes -/

/-- What a rule and the sequencer look at of a running command, beside the ports, `eos`, RESULT and STATUS. -/
def State.inside (s : State) := (s.operands, s.buf, s.hold, s.round, s.rd, s.wr)

/-- Every part of a command's rule is a function of `State.inside`. -/
theorem State.rule_of_inside (h : u.inside = v.inside) :
    u.command.rounds u = v.command.rounds v ∧ u.command.roundIn u = v.command.roundIn v ∧
    u.command.roundOut u = v.command.roundOut v ∧ u.command.mayRead u = v.command.mayRead v ∧
    u.command.holdNext u = v.command.holdNext v ∧ u.command.store u = v.command.store v ∧
    u.command.need u = v.command.need v ∧ u.command.outByte u = v.command.outByte v ∧
    u.command.result u = v.command.result v := by
  obtain ⟨params, _, _, _, _, _, _, _, _, _, _, buf, _, op, a0, a1, be, sp, _, _, round, rd, wr, hold, _, _, _⟩ := u
  cases v
  simp only [State.inside, State.operands, Prod.mk.injEq] at h
  obtain ⟨⟨rfl, rfl, rfl, rfl, rfl, rfl⟩, rfl, rfl, rfl, rfl, rfl⟩ := h
  cases op <;> exact ⟨rfl, rfl, rfl, rfl, rfl, rfl, rfl, rfl, rfl⟩

theorem State.place_of_inside (h : u.inside = v.inside) : u.round = v.round ∧ u.rd = v.rd ∧ u.wr = v.wr := by
  simp only [State.inside, Prod.mk.injEq] at h
  obtain ⟨-, -, -, hplace⟩ := h
  exact hplace

theorem State.uncounted_of_inside (h : u.inside = v.inside) : u.uncounted = v.uncounted := by
  obtain ⟨hrounds, -⟩ := State.rule_of_inside h
  rw [State.uncounted, hrounds, State.uncounted]

theorem State.countReached_of_inside (h : u.inside = v.inside) : u.countReached = v.countReached := by
  obtain ⟨hrounds, -⟩ := State.rule_of_inside h
  obtain ⟨hround, hrd, hwr⟩ := State.place_of_inside h
  simp only [State.countReached, hrounds, hround, hrd, hwr]

theorem State.roundDone_of_inside (h : u.inside = v.inside) : u.roundDone = v.roundDone := by
  obtain ⟨-, hin, hout, -⟩ := State.rule_of_inside h
  obtain ⟨-, hrd, hwr⟩ := State.place_of_inside h
  rw [State.roundDone, hin, hout, hrd, hwr, State.roundDone]

theorem State.canRead_of_inside (h : u.inside = v.inside) : u.canRead = v.canRead := by
  obtain ⟨-, hin, -, hmay, -⟩ := State.rule_of_inside h
  obtain ⟨-, hrd, -⟩ := State.place_of_inside h
  rw [State.canRead, hin, hmay, hrd, State.canRead]

theorem State.canWrite_of_inside (h : u.inside = v.inside) : u.canWrite = v.canWrite := by
  obtain ⟨-, -, hout, -, -, -, hneed, -⟩ := State.rule_of_inside h
  obtain ⟨-, hrd, hwr⟩ := State.place_of_inside h
  rw [State.canWrite, hout, hneed, hrd, hwr, State.canWrite]

/-- The registers the host writes, set. -/
def State.setRegs (s : State) (cfg srcport arg0 arg1 : Word) : State :=
  { s with cfg := cfg, srcport := srcport, arg0 := arg0, arg1 := arg1 }

variable (cfg srcport arg0 arg1 : Word)

theorem State.putByte_setRegs (b : Byte) :
    (s.setRegs cfg srcport arg0 arg1).putByte b = (s.putByte b).setRegs cfg srcport arg0 arg1 := by
  obtain ⟨-, -, -, -, hhold, hstore, -⟩ :=
    State.rule_of_inside (u := s.setRegs cfg srcport arg0 arg1) (v := s) rfl
  rw [State.putByte, hhold, hstore]
  rfl

theorem State.readTurn_setRegs :
    (s.setRegs cfg srcport arg0 arg1).readTurn = s.readTurn.setRegs cfg srcport arg0 arg1 := by
  have hread : (s.setRegs cfg srcport arg0 arg1).inRead =
      s.inRead.map fun x => (x.1, x.2.setRegs cfg srcport arg0 arg1) := by
    have heos : (s.setRegs cfg srcport arg0 arg1).eos = s.eos := rfl
    have hinQ : (s.setRegs cfg srcport arg0 arg1).inQ = s.inQ := rfl
    rw [State.inRead, heos, hinQ, State.inRead]
    cases s.eos with
    | true => rfl
    | false => rcases s.inQ with - | ⟨v | _, q⟩ <;> rfl
  have huncounted := State.uncounted_of_inside (u := s.setRegs cfg srcport arg0 arg1) (v := s) rfl
  have hrd : (s.setRegs cfg srcport arg0 arg1).rd = s.rd := rfl
  rw [State.readTurn, hread, huncounted, hrd, State.readTurn]
  cases s.inRead with
  | none => rfl
  | some x =>
    simp only [Option.map_some]
    split
    · rfl
    · exact State.putByte_setRegs _ _ _ _ _

theorem State.writeTurn_setRegs :
    (s.setRegs cfg srcport arg0 arg1).writeTurn = s.writeTurn.setRegs cfg srcport arg0 arg1 := by
  obtain ⟨-, -, -, -, -, -, -, hbyte, -⟩ :=
    State.rule_of_inside (u := s.setRegs cfg srcport arg0 arg1) (v := s) rfl
  rw [State.writeTurn, hbyte, State.writeTurn]
  show (match (s.setRegs cfg srcport arg0 arg1).outWrite (s.command.outByte s s.wr) with | none => _ | some s' => _) = _
  have hwrite : ∀ b, (s.setRegs cfg srcport arg0 arg1).outWrite b =
      (s.outWrite b).map fun x => x.setRegs cfg srcport arg0 arg1 := by
    intro b
    show (if s.outQ.length < s.params.outDepth then _ else _) = _
    rw [State.outWrite]
    split <;> rfl
  rw [hwrite]
  cases s.outWrite (s.command.outByte s s.wr) <;> rfl

theorem State.endRound_setRegs :
    (s.setRegs cfg srcport arg0 arg1).endRound = s.endRound.setRegs cfg srcport arg0 arg1 := by
  rw [State.endRound, State.uncounted_of_inside (u := s.setRegs cfg srcport arg0 arg1) (v := s) rfl]
  rfl

theorem State.roundTurn_setRegs (t : Turn) :
    (s.setRegs cfg srcport arg0 arg1).roundTurn t = (s.roundTurn t).setRegs cfg srcport arg0 arg1 := by
  have hin : (s.setRegs cfg srcport arg0 arg1).inside = s.inside := rfl
  simp only [State.roundTurn, State.countReached_of_inside hin, State.roundDone_of_inside hin,
    State.canRead_of_inside hin, State.canWrite_of_inside hin, State.readTurn_setRegs, State.writeTurn_setRegs,
    State.endRound_setRegs]
  cases t <;> split_ifs <;> rfl

/-- No turn depends on the registers that the host writes, or changes them (10_state R36). -/
theorem State.turn_setRegs (t : Turn) :
    (s.setRegs cfg srcport arg0 arg1).turn t = (s.turn t).setRegs cfg srcport arg0 arg1 := by
  cases hp : s.phase with
  | idle => rw [State.turn_idle hp, State.turn_idle (s := s.setRegs cfg srcport arg0 arg1) hp]
  | running =>
    cases hs : s.stage with
    | rounds =>
      rw [State.turn_rounds hp hs, State.turn_rounds (s := s.setRegs cfg srcport arg0 arg1) hp hs,
        State.roundTurn_setRegs]
    | result =>
      obtain ⟨-, -, -, -, -, -, -, -, hresult⟩ :=
        State.rule_of_inside (u := s.setRegs cfg srcport arg0 arg1) (v := s) rfl
      rw [State.turn_result hp hs, State.turn_result (s := s.setRegs cfg srcport arg0 arg1) hp hs, State.writeResult,
        hresult]
      rfl
    | finish =>
      rw [State.turn_finish hp hs, State.turn_finish (s := s.setRegs cfg srcport arg0 arg1) hp hs]
      rfl

theorem State.runTurns_setRegs (ts : List Turn) (s : State) :
    State.runTurns ts (s.setRegs cfg srcport arg0 arg1) = (State.runTurns ts s).setRegs cfg srcport arg0 arg1 := by
  induction ts generalizing s with
  | nil => rfl
  | cons t ts ih => rw [State.runTurns_cons, State.runTurns_cons, State.turn_setRegs, ih]

theorem State.advance_setRegs (h : s.advance = .next u) :
    (s.setRegs cfg srcport arg0 arg1).advance = .next (u.setRegs cfg srcport arg0 arg1) := by
  obtain ⟨hfits, rfl⟩ := State.advance_next h
  have hfits' : (s.setRegs cfg srcport arg0 arg1).bufFits = s.bufFits := by
    obtain ⟨params, -, -, -, -, -, -, -, -, -, -, -, phase, op, -, -, -, -, -, -, -, -, -, -, -, -, -⟩ := s
    cases phase <;> cases op <;> rfl
  rw [State.advance_of_fits (hfits'.trans hfits)]
  exact congrArg (fun x : State => Host.Outcome.next { x with turns := [] })
    (State.runTurns_setRegs cfg srcport arg0 arg1 s.turns s)

/-- A register write while RUNNING sets the register in the outcome of the step without a host operation. -/
theorem step_write_running {v : Word} {ts : List Turn} {rest : List HostEvent} {r : Reg} (hr : r ≠ .cmd)
    (h : step { s with script := { act := .pause, turns := ts } :: rest } = .next u) :
    step { s with script := { act := .write 32 (offsetOf r) v, turns := ts } :: rest } = .next (u.writeReg v r) := by
  rw [step_of_pause rfl rfl] at h
  rw [step_of_write rfl rfl hr]
  have hregs : u.cfg = s.cfg ∧ u.srcport = s.srcport ∧ u.arg0 = s.arg0 ∧ u.arg1 = s.arg1 := by
    obtain ⟨-, rfl⟩ := State.advance_next h
    simp [State.past]
  obtain ⟨hcfg, hsrcport, harg0, harg1⟩ := hregs
  cases r with
  | cmd => exact absurd rfl hr
  | status | result | inCount | outCount => exact h
  | cfg =>
    have hset := State.advance_setRegs (v &&& 0x1#32) u.srcport u.arg0 u.arg1 h
    rw [hsrcport, harg0, harg1] at hset
    exact hset.trans (by rw [← hsrcport, ← harg0, ← harg1]; rfl)
  | srcport =>
    have hset := State.advance_setRegs u.cfg (v &&& 0xFFFF#32) u.arg0 u.arg1 h
    rw [hcfg, harg0, harg1] at hset
    exact hset.trans (by rw [← hcfg, ← harg0, ← harg1]; rfl)
  | arg0 =>
    have hset := State.advance_setRegs u.cfg u.srcport v u.arg1 h
    rw [hcfg, hsrcport, harg1] at hset
    exact hset.trans (by rw [← hcfg, ← hsrcport, ← harg1]; rfl)
  | arg1 =>
    have hset := State.advance_setRegs u.cfg u.srcport u.arg0 v h
    rw [hcfg, hsrcport, harg0] at hset
    exact hset.trans (by rw [← hcfg, ← hsrcport, ← harg0]; rfl)

/-- Settles O30: the turns of the step commute with the register write. -/
theorem writesWhileRunningDoNotReachTheCommand : Obligations.WritesWhileRunningDoNotReachTheCommand := by
  unfold Obligations.WritesWhileRunningDoNotReachTheCommand
  intro s u v ts rest _ h
  rw [← and_one_eq, ← and_lowHalf_eq]
  exact ⟨step_write_running (r := .arg0) nofun h, step_write_running (r := .arg1) nofun h,
    step_write_running (r := .cfg) nofun h, step_write_running (r := .srcport) nofun h⟩

end Sys2Proof.Machine
end

section
/-! SUPPORT. That a command which need not wait completes (70_reset R229): `RoundRule.ahead` for the turns, the length of the
script for the host's moves. -/

namespace Sys2Proof.Machine

variable {s m u : State}

/-! ### The host's moves -/

theorem waitTurns_ne_nil (ts : List Turn) : waitTurns ts ≠ [] := by
  cases ts <;> exact nofun

/-- A move of the host uses up an event, or the host waits: then IN gets no token, and the sequencer a turn. -/
theorem HostMove.progress (h : HostMove s m) (hp : s.phase = .running) (hr : ¬s.resetNext) :
    m.script.length < s.script.length ∨ m.script = s.script ∧ m.turns ≠ [] ∧ s.offered = s.inQ := by
  have hpast : ∀ (e : HostEvent) (rest : List HostEvent), s.script = e :: rest → rest.length < s.script.length :=
    fun e rest hs => hs ▸ Nat.lt_succ_self _
  cases h with
  | quiet h => exact .inr ⟨rfl, waitTurns_ne_nil [], by simp only [State.offered, h]⟩
  | waits e rest h hw =>
    refine .inr ⟨rfl, waitTurns_ne_nil _, ?_⟩
    rcases hw with ⟨t, ha, hfull⟩ | ⟨ha, -⟩ <;> simp only [State.offered, h, ha]
    exact if_neg (Nat.not_lt.mpr hfull)
  | polls e rest h ha => exact .inr ⟨rfl, waitTurns_ne_nil _, by simp only [State.offered, h, ha]⟩
  | issues _ _ _ _ _ _ hidle | illegal _ _ _ _ _ _ hidle => exact absurd (hp.symm.trans hidle) nofun
  | resets e rest h ha => exact absurd ⟨e.turns, rest, by rw [h, ← ha]⟩ hr
  | writes e rest h width off v r => cases r <;> exact .inl (hpast e rest h)
  | passes e rest h | reads e rest h | pushes e rest h | pops e rest h | drains e rest h | pollsDone e rest h =>
    exact .inl (hpast e rest h)

theorem State.offered_length_le (s : State) : s.offered.length = s.inQ.length ∨ s.offered.length = s.inQ.length + 1 := by
  unfold State.offered
  split
  · exact .inl rfl
  · split
    · split
      · exact .inr (by simp)
      · exact .inl rfl
    · exact .inl rfl

/-! ### The steps of a command that need not wait -/

variable {k : State} {r : RoundRule k}

/-- How far the command is from completion, the tokens that the script may still append counted in. -/
def RoundRule.remaining (r : RoundRule k) (u : State) : Nat := r.ahead u + u.script.length * (r.nIn + r.nOut + 2)

theorem RoundRule.ahead_congr (hp : u.phase = s.phase) (hs : u.stage = s.stage) (hq : u.inQ.length = s.inQ.length)
    (he : u.eos = s.eos) (hround : u.round = s.round) (hrd : u.rd = s.rd) (hwr : u.wr = s.wr) :
    r.ahead u = r.ahead s := by
  simp only [RoundRule.ahead, hp, hs, hq, he, hround, hrd, hwr]

/-- A token that the host appends puts completion off by one round, at most. -/
theorem RoundRule.ahead_push_le (hp : u.phase = s.phase) (hs : u.stage = s.stage)
    (hq : u.inQ.length = s.inQ.length + 1) (he : u.eos = s.eos) (hround : u.round = s.round) (hrd : u.rd = s.rd)
    (hwr : u.wr = s.wr) : r.ahead u ≤ r.ahead s + (r.nIn + r.nOut + 1) := by
  have hpush := r.roundsAhead_push s.inQ.length s.eos s.round s.rd s.wr
  simp only [RoundRule.ahead, hp, hs, hq, he, hround, hrd, hwr]
  cases s.phase with
  | idle => exact Nat.zero_le _
  | running => cases s.stage <;> simp only [] <;> omega

/-- A step of a running command that need not wait brings completion nearer (70_reset R229). -/
theorem RoundRule.Placed.step (h : r.Placed s) (hp : s.phase = .running) (hr : ¬s.resetNext) (hu : Unblocked s)
    (hstep : Machine.step s = .next u) : r.Placed u ∧ r.remaining u < r.remaining s := by
  obtain ⟨m, hm, -, rfl⟩ := step_next hstep
  have hprogress := hm.progress hp hr
  obtain ⟨cfg, srcport, arg0, arg1, turns, script, trace, hout⟩ := hm.outside hp hr
  have hin : m.inside = s.inside := hout ▸ rfl
  have hplaced : r.Placed m := hout ▸ ⟨h.operands, h.rd_le, h.wr_le, h.nIn_pos⟩
  obtain ⟨hplaced', hahead⟩ := hplaced.runTurns m.turns
  refine ⟨⟨hplaced'.operands, hplaced'.rd_le, hplaced'.wr_le, hplaced'.nIn_pos⟩, ?_⟩
  have hscript : (State.runTurns m.turns m).script = m.script := by simp
  show r.ahead (State.runTurns m.turns m) + (State.runTurns m.turns m).script.length * _ < _
  rw [hscript, RoundRule.remaining]
  rcases hprogress with hshort | ⟨hsame, hturns, hoff⟩
  · have hle : r.ahead m ≤ r.ahead s + (r.nIn + r.nOut + 1) := by
      rcases s.offered_length_le with hq | hq
      · exact (r.ahead_congr (u := m) (s := s) (hout ▸ rfl) (hout ▸ rfl) (hout ▸ hq) (hout ▸ rfl) (hout ▸ rfl) (hout ▸ rfl)
          (hout ▸ rfl)).le.trans (Nat.le_add_right _ _)
      · exact r.ahead_push_le (hout ▸ rfl) (hout ▸ rfl) (hout ▸ hq) (hout ▸ rfl) (hout ▸ rfl) (hout ▸ rfl) (hout ▸ rfl)
    have hevent : (m.script.length + 1) * (r.nIn + r.nOut + 2) ≤ s.script.length * (r.nIn + r.nOut + 2) :=
      Nat.mul_le_mul_right _ hshort
    rw [Nat.succ_mul] at hevent
    omega
  · have heq : r.ahead m = r.ahead s := r.ahead_congr (hout ▸ rfl) (hout ▸ rfl) (hout ▸ congrArg List.length hoff)
      (hout ▸ rfl) (hout ▸ rfl) (hout ▸ rfl) (hout ▸ rfl)
    have hmoves : ∀ t, m.turn t ≠ m := by
      refine hplaced.turn_ne (hout ▸ hp) (fun hs hc hcr => ?_) (fun hs hc hcw => ?_)
      all_goals
        have hs' : s.stage = .rounds := by rw [hout] at hs; exact hs
        have hfree := hu hp hs' ((State.countReached_of_inside hin).symm.trans hc)
      · have := hfree.1 ((State.canRead_of_inside hin).symm.trans hcr)
        rw [hout]
        exact this
      · have := hfree.2 ((State.canWrite_of_inside hin).symm.trans hcw)
        rw [hout]
        exact this
    rw [hsame]
    cases hts : m.turns with
    | nil => exact absurd hts hturns
    | cons t ts =>
      obtain ⟨hplaced1, hone⟩ := hplaced.turn t
      have hfirst : r.ahead (m.turn t) < r.ahead m := hone.resolve_right (hmoves t)
      have hrest := (hplaced1.runTurns ts).2
      rw [State.runTurns_cons]
      omega

/-- Settles O28: `RoundRule.remaining` cannot fall in every step of an endless run. -/
theorem commandThatNeedNotWaitCompletes : Obligations.CommandThatNeedNotWaitCompletes := by
  unfold Obligations.CommandThatNeedNotWaitCompletes
  intro x hinv hrun hendless hstep hreset hfree
  by_contra hnever
  have hrunning : ∀ n, (x n).phase = .running := fun n => by
    cases hp : (x n).phase with
    | running => rfl
    | idle => exact absurd ⟨n, hp⟩ hnever
  obtain ⟨k, r, hop, hzero⟩ := exists_rule_of_running hinv.params (hinv.round.arg_ok hrun)
  have hstart : r.Placed (x 0) := {
    operands := hop
    rd_le := r.roundIn_eq _ hop ▸ hinv.round.rd_le hrun
    wr_le := r.roundOut_eq _ hop ▸ hinv.round.wr_le hrun
    nIn_pos := fun hn => Nat.pos_of_ne_zero fun h0 => hendless (hzero h0 hn) }
  have hplaced : ∀ n, r.Placed (x n) := fun n => by
    induction n with
    | zero => exact hstart
    | succ n ih => exact (ih.step (hrunning n) (hreset n (hrunning n)) (hfree n) (hstep n)).1
  have hfalls : ∀ n, r.remaining (x (n + 1)) < r.remaining (x n) := fun n =>
    ((hplaced n).step (hrunning n) (hreset n (hrunning n)) (hfree n) (hstep n)).2
  exact not_strictAnti_of_wellFoundedLT _ (strictAnti_nat_of_succ_lt (f := fun n => r.remaining (x n)) hfalls)

end Sys2Proof.Machine
end

section
/-! SUPPORT. What acceptance alone does, and the two commands that write headers without reading: ADD_HDR, and FRAME with
L = 0 (42_framer R143, R145). -/

namespace Sys2Proof.Machine

variable {s k u : State} {i : Instr} {g w : Nat}

/-- An accepted command has latched its operands, however many turns it gets. -/
theorem latched_runTurns (i : Instr) (s : State) (ts : List Turn) :
    Latched i s { State.runTurns ts (s.latchOp i) with turns := [] } := by
  constructor <;> simp [hdrBe, lowHalf]

/-- Settles O9. -/
theorem acceptanceLatchesAndStarts : Obligations.AcceptanceLatchesAndStarts := by
  unfold Obligations.AcceptanceLatchesAndStarts
  intro i s hs hturns ha
  have hexec := exec_accepted hs.idle (argOk_iff.mpr ha) (bufUse_le hs.bufBytes ha)
  rw [hturns] at hexec
  exact ⟨_, hexec, latched_runTurns i s [], rfl, rfl, rfl, rfl, rfl, rfl, rfl, rfl, rfl⟩

/-! ### A command that writes headers and reads nothing -/

/-- The command latched in `k` reads nothing, and a round of it writes one header. -/
structure WritesHeaders (k : State) : Prop where
  roundIn : ∀ u : State, u.operands = k.operands → u.command.roundIn u = 0
  roundOut : ∀ u : State, u.operands = k.operands → u.command.roundOut u = 8
  need : ∀ u : State, u.operands = k.operands → ∀ j < 8, u.command.need u j = 0
  outByte : ∀ u : State, u.operands = k.operands → ∀ j < 8,
    u.command.outByte u j = byteAt (k.header (lowHalf k.a0)) j

theorem writesHeaders_addHdr (hk : k.op = .addHdr) : WritesHeaders k where
  roundIn u h := by rw [State.command_of_operands h hk]; rfl
  roundOut u h := by rw [State.command_of_operands h hk]; rfl
  need u h j _ := by rw [State.command_of_operands h hk]; rfl
  outByte u h j _ := by
    rw [State.command_of_operands h hk, ← State.operands_header h, ← State.operands_a0 h]
    rfl

theorem writesHeaders_frame (hk : k.op = .frame) (h0 : k.len = 0) : WritesHeaders k where
  roundIn u h := by rw [State.command_of_operands h hk, ← h0, ← State.operands_len h]; rfl
  roundOut u h := by
    rw [State.command_of_operands h hk]
    show 8 + u.len = 8
    rw [State.operands_len h, h0]
  need u h j hj := by
    rw [State.command_of_operands h hk]
    show (if j < 8 then min 1 u.len else j - 8 + 1) = 0
    rw [if_pos hj, State.operands_len h, h0]
    rfl
  outByte u h j hj := by
    rw [State.command_of_operands h hk, ← State.operands_header h, ← State.operands_a0 h]
    exact if_pos hj

/-- Since the acceptance in `k`, `g` headers and the first `w` bytes of the next one are written. -/
structure HeadersWritten (k : State) (g w : Nat) (u : State) : Prop where
  operands : u.operands = k.operands
  phase : u.phase = .running
  stage : u.stage = .rounds
  status : u.status = statusAccepted
  result : u.result = k.result
  inQ : u.inQ = k.inQ
  inCount : u.inCount = 0#32
  buf : u.buf = k.buf
  eos : u.eos = false
  rd : u.rd = 0
  round : u.round = g
  wr : u.wr = w
  outQ : u.outQ = k.outQ ++ (List.range (8 * g + w)).map fun j => byteAt (k.header (lowHalf k.a0)) (j % 8)
  outCount : u.outCount = BitVec.ofNat 32 (8 * g + w)

theorem headersWritten_latchOp (i : Instr) (s : State) : HeadersWritten (s.latchOp i) 0 0 (s.latchOp i) := by
  constructor
  case outQ => simp
  all_goals rfl

theorem HeadersWritten.outQ_length (h : HeadersWritten k g w u) : u.outQ.length = k.outQ.length + (8 * g + w) := by
  rw [h.outQ, List.length_append, List.length_map, List.length_range]

/-- Within a header the turn is a write. -/
theorem HeadersWritten.turn_eq (hk : WritesHeaders k) (h : HeadersWritten k g w u) (hc : u.countReached = false)
    (hw : w < 8) (t : Turn) : u.turn t = u.writeTurn := by
  have hout := hk.roundOut u h.operands
  have hwr := h.wr
  rw [State.turn_rounds h.phase h.stage]
  rcases u.roundTurn_cases t with ⟨hc', -⟩ | ⟨-, hd, -⟩ | ⟨-, -, hr, -⟩ | ⟨-, -, -, hx⟩ | ⟨-, -, -, hcw, -⟩
  · rw [hc] at hc'; cases hc'
  · simp only [State.roundDone, hout, Bool.and_eq_true, decide_eq_true_eq] at hd
    omega
  · simp only [State.canRead, hk.roundIn u h.operands, Bool.and_eq_true, decide_eq_true_eq] at hr
    exact absurd hr.1 (Nat.not_lt_zero _)
  · exact hx
  · rw [State.canWrite, hout, hk.need u h.operands u.wr (hwr ▸ hw), Bool.and_eq_false_iff, decide_eq_false_iff_not,
      decide_eq_false_iff_not] at hcw
    omega

/-- With room in OUT it writes the header's next byte. -/
theorem HeadersWritten.turn_write (hk : WritesHeaders k) (h : HeadersWritten k g w u) (hc : u.countReached = false)
    (hw : w < 8) (hroom : u.outQ.length < u.params.outDepth) (t : Turn) : HeadersWritten k g (w + 1) (u.turn t) := by
  have hwr := h.wr
  have hbyte := hk.outByte u h.operands u.wr (hwr ▸ hw)
  rw [h.turn_eq hk hc hw, State.writeTurn, State.outWrite, if_pos hroom]
  exact { h with
    wr := congrArg (· + 1) hwr
    outQ := by
      have hmod : (8 * g + w) % 8 = w := by omega
      rw [← Nat.add_assoc, List.range_succ, List.map_append, ← List.append_assoc, ← h.outQ, hbyte, hwr]
      simp [hmod]
    outCount := by
      show u.outCount + 1#32 = BitVec.ofNat 32 (8 * g + w + 1)
      rw [h.outCount, BitVec.ofNat_add (8 * g + w) 1] }

/-- Without room it waits. -/
theorem HeadersWritten.turn_full (hk : WritesHeaders k) (h : HeadersWritten k g w u) (hc : u.countReached = false)
    (hw : w < 8) (hfull : u.params.outDepth ≤ u.outQ.length) (t : Turn) : u.turn t = u := by
  rw [h.turn_eq hk hc hw, State.writeTurn, State.outWrite, if_neg (Nat.not_lt.mpr hfull)]

/-- After the header's last byte the round ends. -/
theorem HeadersWritten.turn_endRound (hk : WritesHeaders k) (h : HeadersWritten k g 8 u) (hc : u.countReached = false)
    (t : Turn) : HeadersWritten k (g + 1) 0 (u.turn t) := by
  have hdone : u.roundDone = true := by
    rw [State.roundDone, hk.roundIn u h.operands, hk.roundOut u h.operands, h.rd, h.wr]
    rfl
  have hturn : u.turn t = u.endRound := by
    rw [State.turn_rounds h.phase h.stage]
    simp [State.roundTurn, hc, hdone]
  rw [hturn]
  exact { h with
    stage := by rw [State.endRound_stage, h.eos, Bool.and_false]; rfl
    rd := rfl
    round := congrArg (· + 1) h.round
    wr := rfl
    outQ := h.outQ
    outCount := h.outCount }

/-! ### ADD_HDR with no room for its whole header -/

/-- A turn of ADD_HDR before its header is complete: it writes a byte, or waits for room. -/
theorem HeadersWritten.turn_addHdr (hk : k.op = .addHdr) (hroom : k.params.outDepth < k.outQ.length + 8)
    (h : HeadersWritten k 0 w u) (hw : k.outQ.length + w ≤ k.params.outDepth) (t : Turn) :
    (k.outQ.length + w < k.params.outDepth ∧ HeadersWritten k 0 (w + 1) (u.turn t)) ∨
    (k.outQ.length + w = k.params.outDepth ∧ u.turn t = u) := by
  have hcount : u.countReached = false := by
    rw [State.countReached, State.command_of_operands h.operands hk, h.round]
    exact Bool.and_false _
  have hlen := h.outQ_length
  have hdepth : u.params.outDepth = k.params.outDepth := congrArg Params.outDepth (State.operands_params h.operands)
  rcases Nat.lt_or_eq_of_le hw with hlt | heq
  · exact .inl ⟨hlt, h.turn_write (writesHeaders_addHdr hk) hcount (by omega) (by omega) t⟩
  · exact .inr ⟨heq, h.turn_full (writesHeaders_addHdr hk) hcount (by omega) (by omega) t⟩

/-- So it fills OUT and then waits. -/
theorem HeadersWritten.runTurns_addHdr (hk : k.op = .addHdr) (hroom : k.params.outDepth < k.outQ.length + 8)
    (ts : List Turn) (h : HeadersWritten k 0 w u) (hw : k.outQ.length + w ≤ k.params.outDepth)
    (hts : k.params.outDepth ≤ k.outQ.length + w + ts.length) :
    HeadersWritten k 0 (k.params.outDepth - k.outQ.length) (State.runTurns ts u) := by
  induction ts generalizing u w with
  | nil =>
    have : w = k.params.outDepth - k.outQ.length := by simp only [List.length_nil] at hts; omega
    exact this ▸ h
  | cons t ts ih =>
    rw [List.length_cons] at hts
    rw [State.runTurns_cons]
    rcases h.turn_addHdr hk hroom hw t with ⟨hlt, hnext⟩ | ⟨heq, hstill⟩
    · exact ih hnext (by omega) (by omega)
    · rw [hstill]
      exact ih h hw (by omega)

theorem map_byteAt_range {l : List Byte} {n : Nat} (hn : n ≤ l.length) : (List.range n).map (byteAt l) = l.take n := by
  refine List.ext_getElem (by simp [hn]) fun j h1 h2 => ?_
  have hj : j < l.length := by simp at h2; omega
  simp [byteAt, hj]

/-- Settles O24. -/
theorem addHdrWaitsOnFullOut : Obligations.AddHdrWaitsOnFullOut := by
  unfold Obligations.AddHdrWaitsOnFullOut
  intro s n hs ha hn hroom
  have hexec := exec_accepted hs.idle (argOk_iff.mpr ha) (bufUse_le hs.bufBytes ha)
  have hturns := hs.turns
  have hdepth : (s.latchOp .addHdr).params.outDepth - (s.latchOp .addHdr).outQ.length = n := by
    show s.params.outDepth - s.outQ.length = n
    omega
  have h := (headersWritten_latchOp .addHdr s).runTurns_addHdr rfl (by show s.params.outDepth < s.outQ.length + 8; omega)
    s.turns (by show s.outQ.length + 0 ≤ s.params.outDepth; omega)
    (by show s.params.outDepth ≤ s.outQ.length + 0 + s.turns.length; omega)
  rw [hdepth] at h
  refine ⟨_, hexec, latched_runTurns _ _ _, h.phase, h.status, ?_, ?_, h.inQ, h.inCount, h.result, h.buf⟩
  · have hbytes : (List.range n).map (fun j => byteAt ((s.latchOp .addHdr).header (lowHalf s.arg0)) (j % 8)) =
        ((s.latchOp .addHdr).header (lowHalf s.arg0)).take n := by
      rw [← map_byteAt_range (by rw [State.header_length]; omega)]
      refine List.map_congr_left fun j hj => ?_
      rw [Nat.mod_eq_of_lt ((List.mem_range.mp hj).trans hn)]
    have hout := h.outQ
    rw [Nat.mul_zero, Nat.zero_add] at hout
    exact hout.trans (congrArg (s.outQ ++ ·) hbytes)
  · have hcount := h.outCount
    rw [Nat.mul_zero, Nat.zero_add] at hcount
    exact hcount

/-! ### FRAME with L = 0 -/

theorem countReached_frame (h : u.op = .frame) : u.countReached = false := by
  rw [State.countReached, State.command, h]
  exact Bool.and_false _

/-- A turn of FRAME with L = 0 writes a byte of a header or ends a round, or OUT is full and it waits. -/
theorem HeadersWritten.turn_frame (hk : k.op = .frame) (h0 : k.len = 0) (h : HeadersWritten k g w u) (hw : w ≤ 8)
    (t : Turn) : ∃ g' w', w' ≤ 8 ∧ HeadersWritten k g' w' (u.turn t) ∧
      (9 * g' + w' = 9 * g + w + 1 ∨ u.turn t = u ∧ u.params.outDepth ≤ u.outQ.length) := by
  have hwrites := writesHeaders_frame hk h0
  have hcount : u.countReached = false := countReached_frame ((State.operands_op h.operands).trans hk)
  rcases Nat.lt_or_eq_of_le hw with hlt | rfl
  · rcases Nat.lt_or_ge u.outQ.length u.params.outDepth with hroom | hfull
    · exact ⟨g, w + 1, hlt, h.turn_write hwrites hcount hlt hroom t, .inl rfl⟩
    · have hstill := h.turn_full hwrites hcount hlt hfull t
      exact ⟨g, w, hw, hstill.symm ▸ h, .inr ⟨hstill, hfull⟩⟩
  · exact ⟨g + 1, 0, Nat.zero_le _, h.turn_endRound hwrites hcount t, .inl (by omega)⟩

theorem HeadersWritten.runTurns_frame (hk : k.op = .frame) (h0 : k.len = 0) (ts : List Turn)
    (h : HeadersWritten k g w u) (hw : w ≤ 8) :
    ∃ g' w', w' ≤ 8 ∧ HeadersWritten k g' w' (State.runTurns ts u) ∧
      (9 * g + w + ts.length ≤ 9 * g' + w' ∨ k.params.outDepth ≤ (State.runTurns ts u).outQ.length) := by
  induction ts generalizing u g w with
  | nil => exact ⟨g, w, hw, h, .inl le_rfl⟩
  | cons t ts ih =>
    obtain ⟨g₁, w₁, hw₁, h₁, hmoved⟩ := h.turn_frame hk h0 hw t
    obtain ⟨g₂, w₂, hw₂, h₂, hlast⟩ := ih h₁ hw₁
    rw [State.runTurns_cons]
    refine ⟨g₂, w₂, hw₂, h₂, ?_⟩
    rcases hmoved with hstep | ⟨hstill, hfull⟩
    · refine hlast.imp_left fun hle => ?_
      rw [List.length_cons]
      omega
    · refine .inr ?_
      obtain ⟨_, new, hmove⟩ := State.runTurns_moved ts u
      rw [hstill, hmove.outQ, List.length_append, ← State.operands_params h.operands]
      omega

/-- Settles O21. -/
theorem frameOfLengthZeroNeverCompletes : Obligations.FrameOfLengthZeroNeverCompletes := by
  unfold Obligations.FrameOfLengthZeroNeverCompletes
  intro s hs h0
  have hlen : (s.latchOp .frame).len = 0 := congrArg BitVec.toNat h0
  have ha : ¬ArgumentBad .frame s := not_not.mpr (.inl hlen)
  have hexec := exec_accepted hs.idle (argOk_iff.mpr ha) (bufUse_le hs.bufBytes ha)
  obtain ⟨g, w, hw, h, hprogress⟩ := (headersWritten_latchOp .frame s).runTurns_frame rfl hlen s.turns (Nat.zero_le _)
  have hheader : (s.latchOp .frame).header (lowHalf (s.latchOp .frame).a0) =
      headerBytes 0x0000#16 (s.cfg.getLsbD 0) (s.srcport.extractLsb' 0 16) := by
    show headerBytes (lowHalf s.arg0) _ _ = _
    rw [h0]
    rfl
  have hout := h.outQ
  rw [hheader] at hout
  exact ⟨_, 8 * g + w, hexec, latched_runTurns _ _ _, h.phase, h.status, h.result, h.inQ, h.inCount, h.buf, hout,
    h.outCount, hprogress.imp_left fun hle => by omega⟩

/-! ### Only reset ends FRAME with L = 0 -/

/-- Its rounds read nothing and no count ends them, so that every turn stays within them. -/
theorem EndlessFrame.turn (h : EndlessFrame s) (t : Turn) : EndlessFrame (s.turn t) := by
  have heff := s.turn_effect t
  have hop := (s.turn_op t).trans h.op
  have hlen := (s.turn_a0 t).trans h.len
  have hcount := countReached_frame h.op
  have hread : s.canRead = false := by
    have hin : s.command.roundIn s = 0 := by
      rw [State.command, h.op]
      exact congrArg BitVec.toNat h.len
    rw [State.canRead, hin]
    rfl
  generalize s.turn t = v at heff hop hlen ⊢
  cases heff with
  | still => exact h
  | stop _ _ hc => rw [hcount] at hc; cases hc
  | endRound => exact ⟨h.phase, by rw [State.endRound_stage, h.eos, Bool.and_false]; rfl, hop, hlen, h.eos⟩
  | readStop _ _ _ _ hr => rw [hread] at hr; cases hr
  | read _ _ _ _ hr => rw [hread] at hr; cases hr
  | write => exact ⟨h.phase, h.stage, hop, hlen, h.eos⟩
  | writeResult _ hs => rw [h.stage] at hs; cases hs
  | complete _ hs => rw [h.stage] at hs; cases hs

/-- Settles O22: nor does what the host does, but for reset, change the command. -/
theorem onlyResetEndsFrameOfLengthZero : Obligations.OnlyResetEndsFrameOfLengthZero := by
  unfold Obligations.OnlyResetEndsFrameOfLengthZero
  intro s u hs hstep
  by_cases hr : s.resetNext
  · exact .inr hr
  · obtain ⟨m, hm, -, rfl⟩ := step_next hstep
    have hm' : EndlessFrame m := by
      obtain ⟨_, _, _, _, _, _, _, rfl⟩ := hm.outside hs.phase hr
      exact ⟨hs.phase, hs.stage, hs.op, hs.len, hs.eos⟩
    obtain ⟨hphase, hstage, hop, hlen, heos⟩ := State.runTurns_keeps (P := EndlessFrame) (fun _ t hv => hv.turn t) m.turns hm'
    exact .inl ⟨hphase, hstage, hop, hlen, heos⟩

end Sys2Proof.Machine
end

section
/-! SUPPORT. What each command has done when it completes: `exec_completes` for its rule. -/

namespace Sys2Proof.Machine

variable {s : State} {i : Instr}

/-! ### Completion of an uncounted and of a counted command -/

/-- The frame of a command's rounds, where `P` says that it runs none. -/
theorem bufKeptFrom_of_frame {t : State} {total used : Nat} {P : Prop} [Decidable P] (hP : P → total = 0)
    (h : ∀ a, total = 0 ∨ used ≤ a → t.buf.read a = s.buf.read a) : BufKeptFrom (if P then 0 else used) s t := by
  intro a ha
  by_cases hp : P
  · exact h a (.inl (hP hp))
  · rw [if_neg hp] at ha
    exact h a (.inr ha)

/-- An uncounted command, supplied with `ds` and an end-of-stream. -/
theorem exec_completes_untilEos (r : RoundRule (s.latchOp i)) {ds : List Byte} {rest : List Token} {c g : Nat}
    {out : List Byte → List Byte} (hrounds : r.rounds = .untilEos) (hin : 1 ≤ r.nIn) (hc : c = r.nIn + r.nOut + 1)
    (hout : ∀ bs, bs.length = r.nIn → r.outs bs = out bs) (hs : Ready (c * g + 3) s) (ha : ¬ArgumentBad i s)
    (hg : g = roundCount r.nIn ds.length) (hq : s.inQ = ds.map .byte ++ .eos :: rest)
    (hroom : s.outQ.length + r.nOut * g ≤ s.params.outDepth) :
    ∃ t, exec i s = .next t ∧ Completes i s t ∧ t.outQ = s.outQ ++ streamOut r.nIn out ds g ∧
      t.outCount = BitVec.ofNat 32 (r.nOut * g) ∧ t.inQ = rest ∧ t.inCount = BitVec.ofNat 32 ds.length ∧
      t.result = (r.resultAt g).getD s.result ∧ BufKeptFrom (if ds = [] then 0 else r.used) s t := by
  subst hc hg
  have hsupplied : r.Supplied ds (.eos :: rest) (roundCount r.nIn ds.length) := RoundRule.supplied_untilEos hrounds hin
  obtain ⟨t, hexec, hcompletes, hresult, hinQ, hinCount, houtQ, houtCount, hframe, -⟩ :=
    exec_completes r hs (by rw [Nat.mul_comm]) (argOk_iff.mpr ha) (bufUse_le hs.bufBytes ha) hq hsupplied
      (fun _ => by rw [Nat.mul_comm]; exact hroom)
  refine ⟨t, hexec, hcompletes, ?_, ?_, ?_, ?_, hresult, bufKeptFrom_of_frame (fun hnil => ?_) hframe⟩
  · rw [houtQ, RoundRule.written, streamOut_congr hout]
  · rw [houtCount, Nat.mul_comm]
  · rw [hinQ, RoundRule.leftIn, hrounds]
    rfl
  · rw [hinCount, RoundRule.readCount, hrounds]
  · rw [hnil]
    exact roundCount_zero

/-- A counted command, supplied with the bytes of its rounds, or with an end-of-stream before their end. -/
theorem exec_completes_count (r : RoundRule (s.latchOp i)) {ds : List Byte} {tail : List Token} {c g : Nat}
    {out : List Byte → List Byte} (hrounds : r.rounds = .count g) (hc : c = r.nIn + r.nOut + 1)
    (hout : ∀ bs, bs.length = r.nIn → r.outs bs = out bs) (hs : Ready (c * g + 3) s) (ha : ¬ArgumentBad i s)
    (hq : s.inQ = ds.map .byte ++ tail) (hlen : g * r.nIn ≤ ds.length ∨ ∃ rest, tail = .eos :: rest)
    (hroom : s.outQ.length + r.nOut * g ≤ s.params.outDepth ∨ r.nOut * g = 0) :
    ∃ t, exec i s = .next t ∧ Completes i s t ∧ t.outQ = s.outQ ++ streamOut r.nIn out ds g ∧
      t.outCount = BitVec.ofNat 32 (r.nOut * g) ∧ t.inQ = inAt ds tail (g * r.nIn) ∧
      t.inCount = BitVec.ofNat 32 (min (g * r.nIn) ds.length) ∧ t.result = (r.resultAt g).getD s.result ∧
      BufKeptFrom (if g = 0 then 0 else r.used) s t := by
  subst hc
  obtain ⟨t, hexec, hcompletes, hresult, hinQ, hinCount, houtQ, houtCount, hframe, -⟩ :=
    exec_completes r hs (by rw [Nat.mul_comm]) (argOk_iff.mpr ha) (bufUse_le hs.bufBytes ha) hq
      (RoundRule.supplied_count hrounds hlen) (fun hpos => by rw [Nat.mul_comm] at hpos ⊢; omega)
  refine ⟨t, hexec, hcompletes, ?_, ?_, ?_, ?_, hresult, bufKeptFrom_of_frame id hframe⟩
  · rw [houtQ, RoundRule.written, streamOut_congr hout]
  · rw [houtCount, Nat.mul_comm]
  · rw [hinQ, RoundRule.leftIn, hrounds]
  · rw [hinCount, RoundRule.readCount, hrounds]

/-! ### The Galois unit -/

/-- GF_MUL and GF_RED run no round: they write RESULT and complete. -/
theorem exec_resultOnly (r : RoundRule (s.latchOp i)) (hrounds : r.rounds = .count 0) (hs : Ready 3 s)
    (ha : ¬ArgumentBad i s) :
    ∃ t, exec i s = .next t ∧ Completes i s t ∧ t.result = (r.resultAt 0).getD s.result ∧ t.inQ = s.inQ ∧
      t.outQ = s.outQ ∧ t.inCount = 0#32 ∧ t.outCount = 0#32 ∧ BufKeptFrom 0 s t := by
  obtain ⟨t, hexec, hcompletes, houtQ, houtCount, hinQ, hinCount, hresult, hbuf⟩ :=
    exec_completes_count r (ds := []) hrounds rfl (fun _ _ => rfl) (hs.mono (by omega)) ha rfl (.inl (by simp))
      (.inr (by simp))
  refine ⟨t, hexec, hcompletes, hresult, ?_, ?_, ?_, ?_, hbuf⟩
  · simpa [inAt] using hinQ
  · simpa [streamOut] using houtQ
  · simpa using hinCount
  · simpa using houtCount

/-- Settles O10. -/
theorem gfMulWritesTheProduct : Obligations.GfMulWritesTheProduct := by
  unfold Obligations.GfMulWritesTheProduct
  intro s hs
  exact exec_resultOnly (resultOnlyRule (s.latchOp .gfMul) .gfMul rfl _ rfl fun u h => by
    rw [State.operands_a0 h, State.operands_a1 h]) rfl hs id

/-- Settles O11. -/
theorem gfRedWritesTheRemainder : Obligations.GfRedWritesTheRemainder := by
  unfold Obligations.GfRedWritesTheRemainder
  intro s hs
  exact exec_resultOnly (resultOnlyRule (s.latchOp .gfRed) .gfRed rfl _ rfl fun u h => by
    rw [State.operands_a0 h]) rfl hs id

/-! ### The Hamming unit -/

/-- Settles O12. -/
theorem hamEncEncodesTheInput : Obligations.HamEncEncodesTheInput := by
  unfold Obligations.HamEncEncodesTheInput
  intro s ds rest g hg hs hq hroom
  exact exec_completes_untilEos (hamEncRule (s.latchOp .hamEnc) rfl) rfl (Nat.le_add_left 1 3) rfl
    (fun _ _ => rfl) hs id hg hq hroom

/-! ### The Framer -/

/-- Settles O14. -/
theorem addHdrWritesOneHeader : Obligations.AddHdrWritesOneHeader := by
  unfold Obligations.AddHdrWritesOneHeader
  intro s hs ha hroom
  obtain ⟨t, hexec, hcompletes, houtQ, houtCount, hinQ, hinCount, hresult, hbuf⟩ :=
    exec_completes_count (addHdrRule (s.latchOp .addHdr) rfl) (ds := [])
      (out := fun _ => headerBytes (s.arg0.extractLsb' 0 16) (s.cfg.getLsbD 0) (s.srcport.extractLsb' 0 16))
      rfl rfl (fun _ _ => rfl) hs ha rfl (.inl le_rfl) (.inl hroom)
  exact ⟨t, hexec, hcompletes, by simpa [streamOut] using houtQ, houtCount, hinQ, hinCount, hresult, hbuf⟩

/-- Settles O15. -/
theorem frameFramesTheInput : Obligations.FrameFramesTheInput := by
  unfold Obligations.FrameFramesTheInput
  rintro s ds rest _ g rfl hg hl ha hs hq hroom
  have hb := hs.bufBytes
  exact exec_completes_untilEos (frameRule (s.latchOp .frame) rfl (by show 1 ≤ s.params.bufBytes; omega)) rfl hl
    (by show _ = s.arg0.toNat + (8 + s.arg0.toNat) + 1; omega) (fun _ _ => rfl) hs ha hg hq hroom

/-- Settles O16. -/
theorem deframeStripsItsFrames : Obligations.DeframeStripsItsFrames := by
  unfold Obligations.DeframeStripsItsFrames
  rintro s ds tail _ _ rfl rfl hs hq hlen hroom
  have hb := hs.bufBytes
  refine exec_completes_count (deframeRule (s.latchOp .deframe) rfl (by show 9 ≤ s.params.bufBytes; omega)) rfl
    (by show _ = 8 + s.arg0.toNat + s.arg0.toNat + 1; omega) (fun f _ => ?_) hs id hq hlen (.inl hroom)
  have hlen16 : BitVec.ofNat 16 s.arg0.toNat = s.arg0.extractLsb' 0 16 := by simp [BitVec.extractLsb']
  show (if headerMatch (f.take 8) s.arg0.toNat (hdrBe s.cfg) (lowHalf s.srcport) then _ else _) = _
  simp only [headerMatch, hlen16, Bool.and_eq_true, decide_eq_true_eq, beq_iff_eq]
  rfl

/-- Settles O17. -/
theorem ilvInterleavesTheInput : Obligations.IlvInterleavesTheInput := by
  unfold Obligations.IlvInterleavesTheInput
  rintro s ds rest _ g rfl hg ha hs hq hroom
  have hl : 1 ≤ s.arg0.toNat := (not_not.mp ha).1
  exact exec_completes_untilEos (ilvRule (s.latchOp .ilv) rfl hl) rfl (by show 1 ≤ 7 * s.arg0.toNat; omega)
    (by show _ = 7 * s.arg0.toNat + (8 + 7 * s.arg0.toNat) + 1; omega) (fun _ _ => rfl) hs ha hg hq hroom

/-- Settles O18. -/
theorem dilvDeinterleavesTheInput : Obligations.DilvDeinterleavesTheInput := by
  unfold Obligations.DilvDeinterleavesTheInput
  rintro s ds rest _ g rfl hg ha hs hq hroom
  exact exec_completes_untilEos (dilvRule (s.latchOp .dilv) rfl) rfl (by show 1 ≤ 8 + 7 * s.arg0.toNat; omega)
    (by show _ = 8 + 7 * s.arg0.toNat + 7 * s.arg0.toNat + 1; omega) (fun _ _ => rfl) hs ha hg hq hroom

/-! ### The Reed-Solomon unit -/

/-- The parity payload, byte by byte (43_reed_solomon R181). -/
theorem rsParity_halves {p : Nat} {q : List Byte} (hq : q.length = 2 * p) :
    rsParity (q.take p) (q.drop p) = (List.range p).map fun j => gfMul (byteAt q j) (byteAt q (p + j)) := by
  refine List.ext_getElem (by simp [rsParity, hq]; omega) fun j h1 h2 => ?_
  have hj : j < p := by simpa using h2
  have hj0 : j < q.length := by omega
  have hj1 : p + j < q.length := by omega
  simp [rsParity, byteAt, hj0, hj1]

/-- Settles O19. -/
theorem rsEncEncodesTheInput : Obligations.RsEncEncodesTheInput := by
  unfold Obligations.RsEncEncodesTheInput
  rintro s ds rest _ g rfl hg ha hs hq hroom
  have hp : 1 ≤ s.arg0.toNat := (not_not.mp ha).1
  exact exec_completes_untilEos (rsEncRule (s.latchOp .rsEnc) rfl) rfl (by show 1 ≤ 2 * s.arg0.toNat; omega)
    (by show _ = 2 * s.arg0.toNat + 3 * s.arg0.toNat + 1; omega) (fun bs hbs => congrArg (bs ++ ·) (rsParity_halves hbs))
    hs ha hg hq hroom

/-- Settles O20. -/
theorem rsDecDecodesItsGroups : Obligations.RsDecDecodesItsGroups := by
  unfold Obligations.RsDecDecodesItsGroups
  rintro s ds tail _ _ rfl rfl ha hs hq hlen hroom
  have hp : 1 ≤ s.arg0.toNat := (not_not.mp ha).1
  exact exec_completes_count (rsDecRule (s.latchOp .rsDec) rfl hp) rfl
    (by show _ = 3 * s.arg0.toNat + 2 * s.arg0.toNat + 1; omega) (fun _ _ => rfl) hs ha hq hlen (.inl hroom)

end Sys2Proof.Machine
end

section
/-! SUPPORT. GfReduce is the only remainder modulo G (40_galois R101), and where XOR recovers a byte from its product
(43_reed_solomon R185). -/

namespace Sys2Proof.Machine

/-! ### The remainder -/

theorem residue_timesGenerator (q : Byte) : residue (timesGenerator q) = 0 := by
  simp [residue, poly_timesGenerator]

theorem residue_setWidth (r : Byte) : residue (r.setWidth 16) = residue r := by
  simp [residue, poly_setWidth_of_le]

/-- Settles O45: a byte that differs from `v` by a multiple of G has the class of `v`, and no other byte has it. -/
theorem gfReduceIsTheRemainder : Obligations.GfReduceIsTheRemainder := by
  unfold Obligations.GfReduceIsTheRemainder
  intro v r
  constructor
  · rintro rfl
    exact exists_timesGenerator_xor_gfReduce v
  · rintro ⟨q, rfl⟩
    refine residue_injective ?_
    show residue (gfReduce _) = residue r
    rw [residue_gfReduce, residue_xor, residue_timesGenerator, residue_setWidth, zero_add]

/-! ### Recovery by XOR -/

/-- `(a + 1)(b + 1) = ab + a + b + 1`. -/
theorem gfMul_xor_one (a b : Byte) :
    gfMul (a ^^^ 0x01#8) (b ^^^ 0x01#8) = (b ^^^ gfMul a b ^^^ a) ^^^ 0x01#8 :=
  residue_injective (by simp; ring)

theorem xor_one_eq_one_iff {a : Byte} : a ^^^ 0x01#8 = 0x01#8 ↔ a = 0x00#8 := by
  rw [← BitVec.xor_eq_zero_iff, BitVec.xor_assoc, BitVec.xor_self, BitVec.xor_zero]

/-- XOR with the product recovers `a` from `b` where `(a + 1)(b + 1) = 1`. -/
theorem xor_gfMul_eq_iff {a b : Byte} :
    b ^^^ gfMul a b = a ↔ gfMul (a ^^^ 0x01#8) (b ^^^ 0x01#8) = 0x01#8 := by
  rw [gfMul_xor_one, xor_one_eq_one_iff, BitVec.xor_eq_zero_iff]

theorem gfMul_left_cancel {a b c : Byte} (ha : a ≠ 0x00#8) (h : gfMul a b = gfMul a c) : b = c := by
  have hdiff : gfMul a (b ^^^ c) = 0x00#8 := by rw [gfMul_xor, h, BitVec.xor_self]
  exact BitVec.xor_eq_zero_iff.mp ((gfMul_eq_zero hdiff).resolve_left ha)

/-- Settles O59: `a + 1` has exactly one inverse unless `a = 1`, when it has none. -/
theorem recoveryIsExactOnAThinSet : Obligations.RecoveryIsExactOnAThinSet := by
  unfold Obligations.RecoveryIsExactOnAThinSet
  refine ⟨fun _ _ => xor_gfMul_eq_iff, fun a b => ?_, fun a ha => ?_, fun b h => ?_⟩
  · rw [gfMul_comm a b, gfMul_comm (a ^^^ _)]
    exact xor_gfMul_eq_iff
  · have hne : a ^^^ 0x01#8 ≠ 0x00#8 := BitVec.xor_eq_zero_iff.not.mpr ha
    obtain ⟨c, hc⟩ := exists_gfMul_eq_one hne
    have hself : c ^^^ 0x01#8 ^^^ 0x01#8 = c := by rw [BitVec.xor_assoc, BitVec.xor_self, BitVec.xor_zero]
    refine ⟨c ^^^ 0x01#8, xor_gfMul_eq_iff.mpr (hself.symm ▸ hc), fun x hx => ?_⟩
    have hcancel : x ^^^ 0x01#8 = c := gfMul_left_cancel hne ((xor_gfMul_eq_iff.mp hx).trans hc.symm)
    rw [← hcancel, BitVec.xor_assoc, BitVec.xor_self, BitVec.xor_zero]
  · have hzero := xor_gfMul_eq_iff.mp h
    rw [BitVec.xor_self, gfMul_comm, gfMul_zero] at hzero
    exact absurd hzero (by decide)

end Sys2Proof.Machine
end

section
/-! SUPPORT. The Hamming decoder's closed form (41_hamming R124), and what it does with two and three errors in a lane
(R126). -/

namespace Sys2Proof.Machine

/-- Settles O47. -/
theorem columnsOfTheMatrix : Obligations.ColumnsOfTheMatrix := by
  unfold Obligations.ColumnsOfTheMatrix
  decide

/-! ### The closed form -/

/-- The tests E0 to E3 of 41_hamming R124 (c), for one lane. -/
theorem beq_column : ∀ x y z : Bool,
    ((x, y, z) == column 0) = (x && y && !z) ∧ ((x, y, z) == column 1) = (x && !y && z) ∧
    ((x, y, z) == column 2) = (!x && y && z) ∧ ((x, y, z) == column 3) = (x && y && z) := by decide

/-- The closed form, by the syndrome. -/
theorem hamDecClosed_eq (r : List Byte) :
    hamDecClosed r =
      [byteAt r 0 ^^^ (syndrome r 0 &&& syndrome r 1 &&& ~~~syndrome r 2),
       byteAt r 1 ^^^ (syndrome r 0 &&& ~~~syndrome r 1 &&& syndrome r 2),
       byteAt r 2 ^^^ (~~~syndrome r 0 &&& syndrome r 1 &&& syndrome r 2),
       byteAt r 3 ^^^ (syndrome r 0 &&& syndrome r 1 &&& syndrome r 2)] := by
  obtain ⟨h0, h1, h2⟩ := syndrome_rows r
  rw [h0, h1, h2]
  rfl

/-- Settles O48: in each lane both flip the bit of position `k` where the pattern is column `k`. -/
theorem hammingSearchEqualsClosedForm : Obligations.HammingSearchEqualsClosedForm := by
  unfold Obligations.HammingSearchEqualsClosedForm
  intro r hlen
  refine ext_byteAt_getLsbD (hamDecRound_length hlen) fun k hk b hb => ?_
  have hk4 : k < 4 := hk
  rw [getLsbD_hamDecRound hlen hk4 hb, wordPattern, lanePattern, hamDecClosed_eq]
  interval_cases k <;> simp [byteAt, hb, beq_column]

/-- Settles O13. -/
theorem hamDecDecodesTheInput : Obligations.HamDecDecodesTheInput := by
  unfold Obligations.HamDecDecodesTheInput
  intro s ds rest g hg hs hq hroom
  exact exec_completes_untilEos (hamDecRule (s.latchOp .hamDec) rfl) rfl (Nat.le_add_left 1 6) rfl
    hammingSearchEqualsClosedForm hs id hg hq hroom

/-! ### More than one error in a lane -/

/-- The pattern of a lane whose errors are `f`. -/
def errorPattern (f : Nat → Bool) : Pattern :=
  ((f 0 ^^ f 1 ^^ f 3 ^^ f 4), (f 0 ^^ f 2 ^^ f 3 ^^ f 5), (f 1 ^^ f 2 ^^ f 3 ^^ f 6))

theorem wordPattern_eq_errorPattern {e : List Byte} {b : Nat} {f : Nat → Bool}
    (h : ∀ m < 7, (byteAt e m).getLsbD b = f m) : wordPattern e b = errorPattern f := by
  obtain ⟨h0, h1, h2⟩ := syndrome_rows e
  simp [wordPattern, lanePattern, errorPattern, h0, h1, h2, h]

/-- Two columns add to a third, and not all three are parity positions. -/
theorem errorPattern_pair : ∀ j < 7, ∀ i < j,
    ∃ m < 7, m ≠ i ∧ m ≠ j ∧ (i < 4 ∨ m < 4) ∧ errorPattern (fun n => n == i || n == j) = column m := by decide

/-- Settles O50: the decoder flips a third position, so that the smaller of the wrong positions is a data position. -/
theorem hammingMiscorrectsTwoErrorsInALane : Obligations.HammingMiscorrectsTwoErrorsInALane := by
  unfold Obligations.HammingMiscorrectsTwoErrorsInALane
  intro d0 d1 d2 d3 e b i j he hb hij hj herr
  obtain ⟨m, hm, hmi, hmj, hdata, hpattern⟩ := errorPattern_pair j hj i hij
  have hlen : (hamEncRound d0 d1 d2 d3).length = e.length := he.symm
  have hword : (corrupt (hamEncRound d0 d1 d2 d3) e).length = 7 := by simp [corrupt, hamEncRound, he]
  have hbit : ∀ k < 4, (byteAt (hamDecRound (corrupt (hamEncRound d0 d1 d2 d3) e)) k).getLsbD b =
      ((byteAt [d0, d1, d2, d3] k).getLsbD b ^^ (k == i || k == j) ^^ decide (m = k)) := fun k hk => by
    have hflip : (column m == column k) = decide (m = k) := by
      rw [beq_eq_decide, decide_eq_decide, column_inj (by omega) (by omega)]
    have hbyte : byteAt (hamEncRound d0 d1 d2 d3) k = byteAt [d0, d1, d2, d3] k :=
      (getD_append_byte [d0, d1, d2, d3] _ k).trans (if_pos hk)
    rw [getLsbD_hamDecRound hword hk hb, wordPattern_corrupt_hamEncRound d0 d1 d2 d3 he,
      wordPattern_eq_errorPattern herr, hpattern, byteAt_corrupt hlen, BitVec.getLsbD_xor, herr k (by omega), hbyte,
      hflip]
  rcases hdata with hi | hm4
  · exact ⟨i, hi, by rw [hbit i hi]; simp [hmi]⟩
  · exact ⟨m, hm4, by rw [hbit m hm4, beq_false_of_ne hmi, beq_false_of_ne hmj]; simp⟩

/-- The triples of 41_hamming R126. -/
def missedTriples : List (Nat × Nat × Nat) :=
  [(0, 1, 2), (0, 3, 6), (0, 4, 5), (1, 3, 5), (1, 4, 6), (2, 3, 4), (2, 5, 6)]

/-- They are the triples whose columns add to zero. -/
theorem errorPattern_triple : ∀ m < 7, ∀ j < m, ∀ i < j,
    (errorPattern (fun n => n == i || n == j || n == m) == (false, false, false)) = decide ((i, j, m) ∈ missedTriples) := by
  decide

/-- Settles O51. -/
theorem hammingMissesTheSevenTriples : Obligations.HammingMissesTheSevenTriples := by
  unfold Obligations.HammingMissesTheSevenTriples
  intro d0 d1 d2 d3 e b i j m he hb hij hjm hm herr
  show _ ↔ (i, j, m) ∈ missedTriples
  rw [← decide_eq_true_iff (p := _ ∈ _), ← errorPattern_triple m hm j hjm i hij, beq_iff_eq, ← wordPattern_eq_errorPattern herr,
    ← wordPattern_corrupt_hamEncRound d0 d1 d2 d3 he, wordPattern, lanePattern, Prod.mk.injEq, Prod.mk.injEq]
  constructor
  · intro h
    exact ⟨h 0 (by decide), h 1 (by decide), h 2 (by decide)⟩
  · rintro ⟨h0, h1, h2⟩ s hs
    interval_cases s
    · exact h0
    · exact h1
    · exact h2

end Sys2Proof.Machine
end

section
/-! SUPPORT. The round trips: what one command wrote, another turns back into the input and its padding. A round of the one
is a round of the other (`streamOut_flatMap`), so that each is a fact about one round. -/

namespace Sys2Proof.Machine

variable {n m g : Nat} {ds : List Byte}

/-! ### Rounds written and read again -/

/-- The rounds of an input hold all of it. -/
theorem le_roundCount_mul (hn : 1 ≤ n) (ds : List Byte) : ds.length ≤ roundCount n ds.length * n :=
  Nat.not_lt.mp fun h => Nat.lt_irrefl _ ((lt_roundCount hn).mpr h)

theorem length_flatMap_range {f : Nat → List Byte} (hf : ∀ i < g, (f i).length = m) :
    ((List.range g).flatMap f).length = g * m := by
  rw [List.length_flatMap, List.map_congr_left (g := fun _ => m) fun i hi => hf i (List.mem_range.mp hi)]
  simp

/-- A round of what was written. -/
theorem roundBytes_streamOut {out : List Byte → List Byte} (hout : ∀ bs, bs.length = n → (out bs).length = m) {i : Nat}
    (hi : i < g) : roundBytes m (streamOut n out ds g) i = out (roundBytes n ds i) := by
  have h := roundBytes_flatMap (f := fun i => out (roundBytes n ds i)) (fun i _ => hout _ (by simp)) hi []
  rwa [List.append_nil] at h

/-- Rounds that are turned back into those of the input give the input and its padding. -/
theorem streamOut_flatMap {f : Nat → List Byte} {out : List Byte → List Byte} (hle : ds.length ≤ g * n)
    (hf : ∀ i < g, (f i).length = m) (hout : ∀ i < g, out (f i) = roundBytes n ds i) :
    streamOut m out ((List.range g).flatMap f) g = ds ++ List.replicate (n * g - ds.length) 0x00#8 := by
  rw [Nat.mul_comm n, ← flatMap_roundBytes hle, streamOut]
  refine List.flatMap_congr fun i hi => ?_
  have hi' := List.mem_range.mp hi
  have hround := roundBytes_flatMap hf hi' []
  rw [List.append_nil] at hround
  rw [hround, hout i hi']

/-- What one rule wrote, read by a rule that undoes a round of it. -/
theorem streamOut_streamOut {out dec : List Byte → List Byte} (hle : ds.length ≤ g * n)
    (hout : ∀ bs, bs.length = n → (out bs).length = m) (hdec : ∀ bs, bs.length = n → dec (out bs) = bs) :
    streamOut m dec (streamOut n out ds g) g = ds ++ List.replicate (n * g - ds.length) 0x00#8 :=
  streamOut_flatMap hle (fun _ _ => hout _ (by simp)) fun _ _ => hdec _ (by simp)

theorem length_streamOut {out : List Byte → List Byte} (hout : ∀ bs, bs.length = n → (out bs).length = m)
    (ds : List Byte) (g : Nat) : (streamOut n out ds g).length = g * m :=
  length_flatMap_range fun _ _ => hout _ (by simp)

/-- What `exec` answers is one state. -/
theorem exec_unique {i : Instr} {s t u : State} (h : exec i s = .next t) (h' : exec i s = .next u) : t = u :=
  Host.Outcome.next.inj (h.symm.trans h')

/-! ### The Hamming unit -/

theorem eq_of_length_four {q : List Byte} (h : q.length = 4) : [byteAt q 0, byteAt q 1, byteAt q 2, byteAt q 3] = q := by
  obtain ⟨a, b, c, d, rfl⟩ := List.length_eq_four.mp h
  rfl

/-- Settles O52: HAM_DEC reads the codewords that HAM_ENC wrote, with their errors, one a round. -/
theorem hammingStreamRoundTrip : Obligations.HammingStreamRoundTrip := by
  unfold Obligations.HammingStreamRoundTrip
  intro s t s' ds err rest rest' g hg hs hq hroom hexec herr hs' hroom' hq'
  obtain ⟨_, hexec', -, houtQ, -⟩ := hamEncEncodesTheInput s ds rest g hg hs hq hroom
  obtain rfl := exec_unique hexec hexec'
  have hword : ∀ i < g, roundBytes 7 (t.outQ.drop s.outQ.length) i = hamEncRound (byteAt (roundBytes 4 ds i) 0)
      (byteAt (roundBytes 4 ds i) 1) (byteAt (roundBytes 4 ds i) 2) (byteAt (roundBytes 4 ds i) 3) := fun i hi => by
    rw [houtQ, List.drop_left]
    exact roundBytes_streamOut (m := 7) (fun _ _ => rfl) hi
  have hlen : ∀ i < g, (corrupt (roundBytes 7 (t.outQ.drop s.outQ.length) i) (err i)).length = 7 := fun i hi => by
    simp [corrupt, (herr i hi).1]
  have hdecodes : ∀ i < g, hamDecClosed (corrupt (roundBytes 7 (t.outQ.drop s.outQ.length) i) (err i)) =
      roundBytes 4 ds i := fun i hi => by
    obtain ⟨hlen7, hone⟩ := herr i hi
    rw [← hammingSearchEqualsClosedForm _ (hlen i hi), hword i hi,
      hammingCorrectsOneErrorPerLane _ _ _ _ _ hlen7 hone, eq_of_length_four (by simp)]
  have hcount : g = roundCount 7 ((List.range g).flatMap fun i =>
      corrupt (roundBytes 7 (t.outQ.drop s.outQ.length) i) (err i)).length := by
    rw [length_flatMap_range hlen, roundCount_mul (by omega)]
  obtain ⟨u, hu, -, huQ, -⟩ := hamDecDecodesTheInput s' _ rest' g hcount hs' hq' hroom'
  have hle : ds.length ≤ g * 4 := hg ▸ le_roundCount_mul (by omega) ds
  refine ⟨u, hu, ?_⟩
  rw [huQ, streamOut_flatMap hle hlen hdecodes, List.append_assoc]

/-! ### The framer -/

/-- Settles O56. -/
theorem frameRoundTrip : Obligations.FrameRoundTrip := by
  unfold Obligations.FrameRoundTrip
  rintro s t s' ds rest tail _ g rfl hg hl ha hs hq hroom hexec hg32 hs' harg0 harg1 hcfg hsp hq' hroom'
  obtain ⟨_, hexec', -, houtQ, -, -, -, hresult, -⟩ := frameFramesTheInput s ds rest _ g rfl hg hl ha hs hq hroom
  obtain rfl := exec_unique hexec hexec'
  have hl16 : s.arg0.toNat ≤ 65535 := by
    have := not_not.mp ha
    omega
  have hn : g = s'.arg1.toNat := by
    rw [harg1, hresult, BitVec.toNat_ofNat, Nat.mod_eq_of_lt hg32]
  rw [houtQ, List.drop_left] at hq'
  have hlen : ∀ d : List Byte, d.length = s.arg0.toNat → (headerBytes (s.arg0.extractLsb' 0 16) (s.cfg.getLsbD 0)
      (s.srcport.extractLsb' 0 16) ++ d).length = 8 + s.arg0.toNat := fun d hd => by simp [hd]
  have htotal := length_streamOut hlen ds g
  have hle : ds.length ≤ g * s.arg0.toNat := hg ▸ le_roundCount_mul hl ds
  obtain ⟨u, hu, -, huQ, -, huin, -⟩ := deframeStripsItsFrames s' _ tail _ g (congrArg BitVec.toNat harg0.symm) hn hs' hq'
    (.inl htotal.ge) hroom'
  refine ⟨u, hu, ?_, ?_⟩
  · rw [huin, if_pos htotal.ge, List.drop_eq_nil_of_le htotal.le]
    rfl
  · rw [huQ, List.append_assoc]
    refine congrArg (s'.outQ ++ ·) (streamOut_streamOut hle hlen fun d _ => ?_)
    rw [harg0, hcfg, hsp, List.take_left' (headerBytes_length _ _ _), List.drop_left' (headerBytes_length _ _ _)]
    exact if_pos ⟨hl16, rfl⟩

/-! ### The interleaver -/

theorem dilvSource_ilvSource {l k : Nat} (hk : k < 7 * l) : dilvSource l (ilvSource l k) = k := by
  have hdiv : k / l < 7 := Nat.div_lt_of_lt_mul (Nat.mul_comm 7 l ▸ hk)
  have hmod7 : (7 * (k % l) + k / l) % 7 = k / l := by rw [Nat.mul_add_mod, Nat.mod_eq_of_lt hdiv]
  have hdiv7 : (7 * (k % l) + k / l) / 7 = k % l := by
    rw [Nat.mul_add_div (by decide), Nat.div_eq_of_lt hdiv, Nat.add_zero]
  rw [dilvSource, ilvSource, hmod7, hdiv7, Nat.div_add_mod']

theorem ilvSource_dilvSource {l k : Nat} (hk : k < 7 * l) : ilvSource l (dilvSource l k) = k := by
  rw [dilvSource, ilvSource_mul_add _ (by omega), Nat.div_add_mod]

/-- Settles O55. -/
theorem interleaverPermutationsAreInverse : Obligations.InterleaverPermutationsAreInverse := by
  unfold Obligations.InterleaverPermutationsAreInverse
  intro l q hq
  have hext : ∀ {w : List Byte}, w.length = 7 * l → (∀ k < 7 * l, w.getD k 0x00#8 = q.getD k 0x00#8) → w = q :=
    fun {w} hw h => List.ext_getElem (hw.trans hq.symm) fun k h1 h2 => by
      have hk := h k (hq ▸ h2)
      rwa [List.getD_eq_getElem _ _ h1, List.getD_eq_getElem _ _ h2] at hk
  constructor
  · refine hext (deinterleave_length l _) fun k hk => ?_
    rw [deinterleave_getD _ hk, interleave_getD _ (dilvSource_lt hk), ilvSource_dilvSource hk]
  · refine hext (interleave_length l _) fun k hk => ?_
    rw [interleave_getD _ hk, deinterleave_getD _ (ilvSource_lt hk), dilvSource_ilvSource hk]

/-- Settles O57. -/
theorem interleaverRoundTrip : Obligations.InterleaverRoundTrip := by
  unfold Obligations.InterleaverRoundTrip
  rintro s t s' ds rest rest' _ g rfl hg ha hs hq hroom hexec hs' harg0 hbuf hq' hroom'
  obtain ⟨hl, hl16, -⟩ := not_not.mp ha
  obtain ⟨_, hexec', -, houtQ, -⟩ := ilvInterleavesTheInput s ds rest _ g rfl hg ha hs hq hroom
  obtain rfl := exec_unique hexec hexec'
  rw [houtQ, List.drop_left] at hq'
  have hlen : ∀ q : List Byte, q.length = 7 * s.arg0.toNat → (headerBytes (BitVec.ofNat 16 (7 * s.arg0.toNat))
      (s.cfg.getLsbD 0) (s.srcport.extractLsb' 0 16) ++ interleave s.arg0.toNat q).length = 8 + 7 * s.arg0.toNat :=
    fun q _ => by simp
  have hcount : g = roundCount (8 + 7 * s.arg0.toNat) (g * (8 + 7 * s.arg0.toNat)) := (roundCount_mul (by omega)).symm
  rw [← length_streamOut hlen ds g] at hcount
  have ha' : ¬ArgumentBad .dilv s' := not_not.mpr (by rw [harg0]; exact ⟨hl, hl16, hbuf⟩)
  have hle : ds.length ≤ g * (7 * s.arg0.toNat) := hg ▸ le_roundCount_mul (by omega) ds
  obtain ⟨u, hu, -, huQ, -, huin, -⟩ := dilvDeinterleavesTheInput s' _ rest' _ g (congrArg BitVec.toNat harg0.symm) hcount
    ha' hs' hq' hroom'
  refine ⟨u, hu, huin, ?_⟩
  rw [huQ, List.append_assoc]
  refine congrArg (s'.outQ ++ ·) (streamOut_streamOut hle hlen fun q hq => ?_)
  rw [List.drop_left' (headerBytes_length _ _ _), (interleaverPermutationsAreInverse _ q hq).1]

/-! ### Reed-Solomon -/

/-- The parity of an erased payload is erased. -/
theorem erased_rsParity {x y : List Byte} (h : erased x = true ∨ erased y = true) : erased (rsParity x y) = true := by
  rw [erased_iff]
  intro v hv
  obtain ⟨j, hj, rfl⟩ := List.getElem_of_mem hv
  simp only [rsParity, List.getElem_zipWith]
  rcases h with hx | hy
  · rw [erased_iff.mp hx _ (List.getElem_mem _), gfMul_comm, gfMul_zero]
  · rw [erased_iff.mp hy _ (List.getElem_mem _), gfMul_zero]

/-- What was encoded needs no recovery: where a data payload is erased, so is the parity (43_reed_solomon R186). -/
theorem rsDecGroup_rsParity (x y : List Byte) : rsDecGroup x y (rsParity x y) = x ++ y := by
  cases hx : erased x with
  | true => exact rsDecGroup_of_erased_third x y (erased_rsParity (.inl hx))
  | false =>
    cases hy : erased y with
    | true => exact rsDecGroup_of_erased_third x y (erased_rsParity (.inr hy))
    | false => exact rsDecGroup_of_none_erased _ hx hy

/-- The same for a group as it stands in the stream. -/
theorem rsDecGroup_encoded {p : Nat} {q : List Byte} (hq : q.length = 2 * p) :
    let w := q ++ (List.range p).map fun j => gfMul (byteAt q j) (byteAt q (p + j))
    rsDecGroup (w.take p) ((w.drop p).take p) (w.drop (2 * p)) = q := by
  intro w
  have hw : w = q.take p ++ (q.drop p ++ rsParity (q.take p) (q.drop p)) := by
    rw [rsParity_halves hq, ← List.append_assoc, List.take_append_drop]
  have hfirst : (q.take p).length = p := by simp [hq]; omega
  have hsecond : (q.drop p).length = p := by simp [hq]; omega
  have hthird : w.drop (2 * p) = rsParity (q.take p) (q.drop p) := by
    rw [rsParity_halves hq]
    exact List.drop_left' hq
  rw [hthird, hw, List.take_left' hfirst, List.drop_left' hfirst, List.take_left' hsecond, rsDecGroup_rsParity,
    List.take_append_drop]

/-- Settles O60. -/
theorem reedSolomonRoundTrip : Obligations.ReedSolomonRoundTrip := by
  unfold Obligations.ReedSolomonRoundTrip
  rintro s t s' ds rest tail _ g rfl hg ha hs hq hroom hexec hg32 hs' harg0 harg1 hbuf hq' hroom'
  obtain ⟨hp, -⟩ := not_not.mp ha
  obtain ⟨_, hexec', -, houtQ, -, -, -, hresult, -⟩ := rsEncEncodesTheInput s ds rest _ g rfl hg ha hs hq hroom
  obtain rfl := exec_unique hexec hexec'
  have hn : s'.arg1.toNat = 3 * g := by
    rw [harg1, hresult, BitVec.toNat_ofNat, Nat.mod_eq_of_lt hg32]
  rw [houtQ, List.drop_left] at hq'
  have hlen : ∀ q : List Byte, q.length = 2 * s.arg0.toNat → (q ++ (List.range s.arg0.toNat).map fun j =>
      gfMul (byteAt q j) (byteAt q (s.arg0.toNat + j))).length = 3 * s.arg0.toNat := fun q hq => by
    rw [List.length_append, hq, List.length_map, List.length_range]
    omega
  have htotal := length_streamOut hlen ds g
  have hle : ds.length ≤ g * (2 * s.arg0.toNat) := hg ▸ le_roundCount_mul (by omega) ds
  have ha' : ¬ArgumentBad .rsDec s' := not_not.mpr (by rw [harg0, hn]; exact ⟨hp, hbuf, by omega⟩)
  obtain ⟨u, hu, -, huQ, -, huin, -⟩ := rsDecDecodesItsGroups s' _ tail _ g (congrArg BitVec.toNat harg0.symm) (by omega)
    ha' hs' hq' (.inl htotal.ge) hroom'
  refine ⟨u, hu, ?_, ?_⟩
  · rw [huin, if_pos htotal.ge, List.drop_eq_nil_of_le htotal.le]
    rfl
  · rw [huQ, List.append_assoc]
    exact congrArg (s'.outQ ++ ·) (streamOut_streamOut hle hlen fun q hq => rsDecGroup_encoded hq)

end Sys2Proof.Machine
end
